-- ==== Sys2Proof/Word.lean ====
section
/-! DEFINITION. The two word types of the block: the byte of the stream and of memory, and the 32-bit CSR word
(00_scope.md R7, R9). -/

namespace Sys2Proof

/-- A byte: an 8-bit unsigned value (R9). -/
abbrev Byte := BitVec 8

/-- A CSR word and a system address: 32 bits (R7, `ADDR_WIDTH`, `LEN_WIDTH`). -/
abbrev Word := BitVec 32

end Sys2Proof
end

