-- ==== Sys2Proof/Config.lean ====
section
/-! DEFINITION. The parameters of 00_scope.md R7, each a constant but the `OPEN` one, and the free values the spec leaves open. -/

namespace Sys2Proof.Config

/-- The address space holds 2^`ADDR_WIDTH` bytes (R7, R61). -/
abbrev addrSpace : Nat := 4294967296

/-- `MAX_INPUT_LEN` = 2^30, the largest SRC_LEN a COMPRESS accepts (R7, R233). -/
abbrev maxInputLen : Nat := 1073741824

/-- `D_BITS`, log2 of the hash-table entry count (R7). -/
abbrev dBits : Nat := 14

/-- `HASH_ENTRIES` = 2^`D_BITS` (R7, R50). -/
abbrev hashEntries : Nat := 16384

/-- `ENTRY_WIDTH`, the width of a hash-table entry (R7, R50). -/
abbrev entryWidth : Nat := 16

/-- `HASH_MUL`, the multiplier of the match-finder hash (R7, R145). -/
abbrev hashMul : Nat := 0x1824429D

/-- `BLOCK_MAX`, the largest compressor block (R7, R152). -/
abbrev blockMax : Nat := 49152

/-- `TAIL`, the bytes at a block's end that are never probed (R7, R155). -/
abbrev tail : Nat := 20

/-- `MIN_SPAN` (R7, R153). -/
abbrev minSpan : Nat := 32

/-- `M1_MAX_OFFSET` (R7, R97). -/
abbrev m1MaxOffset : Nat := 1024

/-- `M2_MAX_OFFSET` (R7, R99, R162). -/
abbrev m2MaxOffset : Nat := 2048

/-- `M2_MAX_LEN` (R7, R99, R162). -/
abbrev m2MaxLen : Nat := 8

/-- `M3_MAX_OFFSET` (R7, R100, R162). -/
abbrev m3MaxOffset : Nat := 16384

/-- `M3_MAX_LEN`, the largest M3 length without extension bytes (R7, R100). -/
abbrev m3MaxLen : Nat := 33

/-- `M4_MAX_OFFSET`, the largest distance of any token (R7, R107). -/
abbrev m4MaxOffset : Nat := 49151

/-- `M4_MAX_LEN`, the largest M4 length without extension bytes (R7, R101). -/
abbrev m4MaxLen : Nat := 9

/-- `MX_MIN_OFFSET`, the smallest M1L distance (R7, R98). -/
abbrev mxMinOffset : Nat := 2049

/-- `MX_MAX_OFFSET`, the largest M1L distance (R7, R98). -/
abbrev mxMaxOffset : Nat := 3072

/-- `FIRST_LIT_MAX`, the largest run the first-literal form holds (R7, R94). -/
abbrev firstLitMax : Nat := 238

/-- `WORST_CASE(n)`, the largest compressed length of an n-byte input (R7, R169). -/
abbrev worstCase (n : Nat) : Nat := n + n / 16 + 64 + 3

/-- `CORE_ID`, the value of the ID register (R7, R23). -/
abbrev coreId : Word := 0x4C5A4F31

/-- `CORE_VERSION`, the value of the VERSION register and of a good handshake (R7, R24). -/
abbrev coreVersion : Word := 0x00000007

/-- `STRICT_RESET`: the reset value of CTRL.STRICT (R7, R25). -/
abbrev strictReset : Bool := true

/-- `CSR_BASE`, the OPEN parameter: the platform address of the CSR window (R7, R22). No rule depends on it (log 11). -/
opaque csrBase : Word

/-- The platform address of the CSR at a window offset (R22). -/
def csrAddress (off : Nat) : Word := csrBase + BitVec.ofNat 32 off

/-- FREE VALUE: the byte a host read of a DST address returns while BUSY = 1, one for each draw (R85, R270; log 5). -/
opaque raceRead : Nat → Byte

/-- FREE VALUE: the byte a raced command leaves at a DST offset, one for each draw and offset (R85; log 5). -/
opaque raceByte : Nat → Nat → Byte

/-- FREE VALUE: the number that selects the code a raced command ends with (R85; log 5). -/
opaque raceCode : Nat → Nat

/-- FREE VALUE: the number that selects the OUT_LEN a raced command ends with (R85; log 5). -/
opaque raceOutLen : Nat → Nat

/-- FREE VALUE: the number that selects the IN_USED a raced command ends with (R85; log 5). -/
opaque raceInUsed : Nat → Nat

/-- FREE VALUE: how many of the interrupted engine step's writes a reset lets through (R263; log 6). -/
opaque tearPoint : Nat → Nat

end Sys2Proof.Config
end

