-- ==== Sys2Proof/Syntax.lean ====
section
/-! DEFINITION. The instructions of the block: the tokens of the LZO1X-1 stream, which DECOMPRESS executes (30_encoding.md R91),
and the four commands a CTRL write starts (R110). Rows of spec/opcode_table.json that are slices of one format (LIT_FIRST has
six, M2, M4 and EOS two each) share one constructor, since the slices differ only in the operand's range (log 13). -/

namespace Sys2Proof

/-- `S`, the decoder state (10_state.md R44): START before the first token, 0..3 after T trailing literals, 4 after a run of four
or more literals. -/
inductive DecState where
  /-- START. -/
  | start
  /-- S = 0, 1, 2 or 3. -/
  | trail (t : BitVec 2)
  /-- S = 4. -/
  | run
deriving DecidableEq, Repr

/-- One instruction. A token's operands are what its header holds; the literal bytes that follow a header are read from SRC by the
token's own meaning (R142, R193; log 13). -/
inductive Instr where
  /-- LITF, the first-literal form: `n` literals (R94, R184). -/
  | litf (n : Nat)
  /-- LIT, short form: `n` literals, 4..18 (R95, R185). -/
  | litShort (n : Nat)
  /-- LIT, long form: `n` literals, 19 or more (R96, R185). -/
  | litLong (n : Nat)
  /-- M1S: a copy of length 2, then `t` literals (R97, R186). -/
  | m1s (dist : Nat) (t : BitVec 2)
  /-- M1L: a copy of length 3 at distance 2049..3072, then `t` literals (R98, R187). -/
  | m1l (dist : Nat) (t : BitVec 2)
  /-- M2: a near copy, then `t` literals (R99, R188). -/
  | m2 (len dist : Nat) (t : BitVec 2)
  /-- M3: a medium copy, then `t` literals (R100, R189). -/
  | m3 (len dist : Nat) (t : BitVec 2)
  /-- M4: a far copy, then `t` literals (R101, R190). -/
  | m4 (len dist : Nat) (t : BitVec 2)
  /-- EOS: the end marker. `len` and `t` are what its ignored length field and T bits hold (R103, R191). -/
  | eos (len : Nat) (t : BitVec 2)
  /-- INIT, a CTRL write with bits 2:0 = 001 (R110, R213). -/
  | init (ie strict : Bool)
  /-- COMPRESS, a CTRL write with bits 2:0 = 011 (R110, R214). -/
  | compress (ie strict : Bool)
  /-- DECOMPRESS, a CTRL write with bits 2:0 = 101 (R110, R215). -/
  | decompress (ie strict : Bool)
  /-- The reserved command, a CTRL write with bits 2:0 = 111 (R110, R216). -/
  | reservedCmd3 (ie strict : Bool)
deriving DecidableEq, Repr

end Sys2Proof
end

