-- ==== Sys2Proof/WellFormed.lean ====
section
/-! DEFINITION. Which instructions an encoding exists for (the operand ranges of 30_encoding.md R94 to R106), and in which decoder
states a token can be read (R93). -/

namespace Sys2Proof

/-- The operands are in the ranges the token's fields can hold (R105, R106). -/
def Instr.wf : Instr → Bool
  | .litf n => decide (1 ≤ n) && decide (n ≤ Config.firstLitMax)
  | .litShort n => decide (4 ≤ n) && decide (n ≤ 18)
  | .litLong n => decide (19 ≤ n)
  | .m1s dist _ => decide (1 ≤ dist) && decide (dist ≤ Config.m1MaxOffset)
  | .m1l dist _ => decide (Config.mxMinOffset ≤ dist) && decide (dist ≤ Config.mxMaxOffset)
  | .m2 len dist _ =>
    decide (3 ≤ len) && decide (len ≤ Config.m2MaxLen) && decide (1 ≤ dist) && decide (dist ≤ Config.m2MaxOffset)
  | .m3 len dist _ => decide (3 ≤ len) && decide (1 ≤ dist) && decide (dist ≤ Config.m3MaxOffset)
  | .m4 len dist _ => decide (3 ≤ len) && decide (Config.m3MaxOffset < dist) && decide (dist ≤ Config.m4MaxOffset)
  | .eos len _ => decide (3 ≤ len)
  | .init _ _ => true
  | .compress _ _ => true
  | .decompress _ _ => true
  | .reservedCmd3 _ _ => true

/-- The token can be read in decoder state `st` (R93): the states its kind exists in, and at START only the M4 and EOS spellings whose
control byte is 0x10 or 0x11 (R101). A command is not a token: it is read from a CTRL write, in no decoder state. -/
def Instr.readIn (st : DecState) : Instr → Bool
  | .litf _ => decide (st = .start)
  | .litShort _ | .litLong _ => decide (st = .start) || decide (st = .trail 0)
  | .m1s _ _ => decide (st = .trail 1) || decide (st = .trail 2) || decide (st = .trail 3)
  | .m1l _ _ => decide (st = .run)
  | .m2 _ _ _ | .m3 _ _ _ => decide (st ≠ .start)
  | .m4 len dist _ =>
    decide (st ≠ .start) || ((decide (len = 3) || decide (10 ≤ len)) && decide (dist < 32768))
  | .eos len _ => decide (st ≠ .start) || decide (len = 3) || decide (10 ≤ len)
  | .init _ _ | .compress _ _ | .decompress _ _ | .reservedCmd3 _ _ => false

/-- The instruction is one of the four host commands (R110). -/
def Instr.isCommand : Instr → Bool
  | .init _ _ | .compress _ _ | .decompress _ _ | .reservedCmd3 _ _ => true
  | .litf _ | .litShort _ | .litLong _ | .m1s _ _ | .m1l _ _ | .m2 _ _ _ | .m3 _ _ _ | .m4 _ _ _ | .eos _ _ => false

end Sys2Proof
end

