-- ==== Sys2Proof/Decode.lean ====
section
/-! DEFINITION. The decoder of tokens and of CTRL writes, total and rejecting by name, and after it the encoder
(30_encoding.md R91 to R110). -/

namespace Sys2Proof

/-! ## Field access -/

/-- `v[hi:lo]`: bits `hi` down to `lo` of a byte as an unsigned number (00_scope.md R9). -/
def bits (b : Byte) (hi lo : Nat) : Nat := b.toNat / 2 ^ lo % 2 ^ (hi + 1 - lo)

/-- The 2-bit T field of a header byte, its bits 1:0 (R104). -/
def trailField (b : Byte) : BitVec 2 := BitVec.ofNat 2 (bits b 1 0)

/-- The 14-bit field `D` of a distance byte pair, low part first (R67, R100). -/
def distField (b0 b1 : Byte) : Nat := bits b0 7 2 + 64 * b1.toNat

/-! ## The decode map -/

/-- The token rules a control byte selects (R93, 42_decompressor.md R183). -/
inductive Kind where
  | litFirst
  | litRun
  | m1s
  | m1l
  | m2
  | m3
  | m4OrEos
deriving DecidableEq, Repr

/-- The kind of the token with control byte `c` in state `st` (R93). -/
def kindOf (st : DecState) (c : Byte) : Kind :=
  match st with
  | .start =>
    if c.toNat ≤ 0x0F then .litRun
    else if c.toNat ≤ 0x11 then .m4OrEos
    else .litFirst
  | .trail t =>
    if c.toNat ≤ 0x0F then (if t = 0 then .litRun else .m1s)
    else if c.toNat ≤ 0x1F then .m4OrEos
    else if c.toNat ≤ 0x3F then .m3
    else .m2
  | .run =>
    if c.toNat ≤ 0x0F then .m1l
    else if c.toNat ≤ 0x1F then .m4OrEos
    else if c.toNat ≤ 0x3F then .m3
    else .m2

/-! ## Tokens -/

/-- Why no token is read: the stream ends before the token's header does (40_primitives.md R140). No bit pattern is illegal (R108). -/
inductive TokenReject where
  | inputOverrun
deriving DecidableEq, Repr

/-- `DecodeExt(base)`: each zero byte adds 255 and the first non-zero byte ends the field (R102, 40_primitives.md R131). Answers the value
and how many bytes the field takes. -/
def decodeExt (base : Nat) : List Byte → Except TokenReject (Nat × Nat)
  | [] => .error .inputOverrun
  | b :: rest =>
    if b = 0 then
      match decodeExt (base + 255) rest with
      | .ok (v, k) => .ok (v, k + 1)
      | .error e => .error e
    else .ok (base + b.toNat, 1)

/-- The length of an M3, M4 or EOS header: `L + 2`, or the extension field on `base` when `L = 0` (R100, R101, R106). Answers the length and
how many extension bytes it takes. -/
def decodeLen (field base : Nat) (rest : List Byte) : Except TokenReject (Nat × Nat) :=
  if field = 0 then decodeExt base rest else .ok (field + 2, 0)

/-- A LIT_RUN header (R95, R96, 42_decompressor.md R185). -/
def decodeLit (c : Byte) (rest : List Byte) : Except TokenReject (Instr × Nat) :=
  if c = 0 then
    match decodeExt 18 rest with
    | .ok (n, k) => .ok (.litLong n, 1 + k)
    | .error e => .error e
  else .ok (.litShort (c.toNat + 3), 1)

/-- An M1S header (R97, R105). -/
def decodeM1s (c : Byte) : List Byte → Except TokenReject (Instr × Nat)
  | [] => .error .inputOverrun
  | b1 :: _ => .ok (.m1s (1 + bits c 3 2 + 4 * b1.toNat) (trailField c), 2)

/-- An M1L header (R98, R105). -/
def decodeM1l (c : Byte) : List Byte → Except TokenReject (Instr × Nat)
  | [] => .error .inputOverrun
  | b1 :: _ => .ok (.m1l (2049 + bits c 3 2 + 4 * b1.toNat) (trailField c), 2)

/-- An M2 header (R99, R105, R106). -/
def decodeM2 (c : Byte) : List Byte → Except TokenReject (Instr × Nat)
  | [] => .error .inputOverrun
  | b1 :: _ => .ok (.m2 (bits c 7 5 + 1) (1 + bits c 4 2 + 8 * b1.toNat) (trailField c), 2)

/-- An M3 header (R100, R105, R106). -/
def decodeM3 (c : Byte) (rest : List Byte) : Except TokenReject (Instr × Nat) :=
  match decodeLen (bits c 4 0) Config.m3MaxLen rest with
  | .error e => .error e
  | .ok (len, k) =>
    match rest.drop k with
    | b0 :: b1 :: _ => .ok (.m3 len (1 + distField b0 b1) (trailField b0), 3 + k)
    | _ => .error .inputOverrun

/-- An M4 header, or EOS when H = 0 and D = 0 (R101, R103, 42_decompressor.md R190). -/
def decodeM4 (c : Byte) (rest : List Byte) : Except TokenReject (Instr × Nat) :=
  match decodeLen (bits c 2 0) Config.m4MaxLen rest with
  | .error e => .error e
  | .ok (len, k) =>
    match rest.drop k with
    | b0 :: b1 :: _ =>
      if bits c 3 3 = 0 ∧ distField b0 b1 = 0 then .ok (.eos len (trailField b0), 3 + k)
      else .ok (.m4 len (16384 + 16384 * bits c 3 3 + distField b0 b1) (trailField b0), 3 + k)
    | _ => .error .inputOverrun

/-- The token at the head of a byte string in decoder state `st`, with the number of its header bytes (R92, R93). -/
def decodeToken (st : DecState) : List Byte → Except TokenReject (Instr × Nat)
  | [] => .error .inputOverrun
  | c :: rest =>
    match kindOf st c with
    | .litFirst => .ok (.litf (c.toNat - 17), 1)
    | .litRun => decodeLit c rest
    | .m1s => decodeM1s c rest
    | .m1l => decodeM1l c rest
    | .m2 => decodeM2 c rest
    | .m3 => decodeM3 c rest
    | .m4OrEos => decodeM4 c rest

/-! ## Commands -/

/-- Why a CTRL write is no command: its bit 0 (START) is 0 (R110, last row). -/
inductive CtrlReject where
  | noStart
deriving DecidableEq, Repr

/-- The command a value written to CTRL asks for: bit 0 starts, bits 2:1 select, bits 3 and 4 are IE and STRICT, bits 31:5 are ignored
(R110). -/
def decodeCtrl (w : Word) : Except CtrlReject Instr :=
  if w.getLsbD 0 then
    let ie := w.getLsbD 3
    let strict := w.getLsbD 4
    match w.getLsbD 2, w.getLsbD 1 with
    | false, false => .ok (.init ie strict)
    | false, true => .ok (.compress ie strict)
    | true, false => .ok (.decompress ie strict)
    | true, true => .ok (.reservedCmd3 ie strict)
  else .error .noStart

/-! ## The encoder -/

/-- The extension field of a value `v ≥ 1`: `floor((v - 1) / 255)` zero bytes and one non-zero byte (R102, R132). -/
def extBytes (v : Nat) : List Byte :=
  List.replicate ((v - 1) / 255) 0 ++ [BitVec.ofNat 8 (v - 255 * ((v - 1) / 255))]

/-- The low length field of an M3, M4 or EOS control byte: `len - 2` when it fits, else 0 (R106). -/
def lenField (len max : Nat) : Nat := if len ≤ max then len - 2 else 0

/-- The extension bytes of an M3, M4 or EOS length: none when the length fits its field (R106). -/
def lenExt (len max : Nat) : List Byte := if len ≤ max then [] else extBytes (len - max)

/-- The CTRL value of a command (R110). -/
def ctrlWord (cmd : Nat) (ie strict : Bool) : Word :=
  BitVec.ofNat 32 (1 + 2 * cmd + 8 * ie.toNat + 16 * strict.toNat)

/-- The four bytes of a word, bits 7:0 at the lowest address (20_memory.md R69). -/
def wordBytes (w : Word) : List Byte :=
  [w.extractLsb' 0 8, w.extractLsb' 8 8, w.extractLsb' 16 8, w.extractLsb' 24 8]

/-- The value of a CTRL write that asks for a command, and none for a token (R110). -/
def encodeCtrl : Instr → Option Word
  | .init ie strict => some (ctrlWord 0 ie strict)
  | .compress ie strict => some (ctrlWord 1 ie strict)
  | .decompress ie strict => some (ctrlWord 2 ie strict)
  | .reservedCmd3 ie strict => some (ctrlWord 3 ie strict)
  | .litf _ | .litShort _ | .litLong _ | .m1s _ _ | .m1l _ _ | .m2 _ _ _ | .m3 _ _ _ | .m4 _ _ _ | .eos _ _ => none

/-- The bytes of an instruction in address order: a token's header (R94 to R103), a command's CTRL word (R69, R110). -/
def encode : Instr → List Byte
  | .litf n => [BitVec.ofNat 8 (17 + n)]
  | .litShort n => [BitVec.ofNat 8 (n - 3)]
  | .litLong n => 0 :: extBytes (n - 18)
  | .m1s dist t =>
    [BitVec.ofNat 8 (4 * ((dist - 1) % 4) + t.toNat), BitVec.ofNat 8 ((dist - 1) / 4)]
  | .m1l dist t =>
    [BitVec.ofNat 8 (4 * ((dist - 2049) % 4) + t.toNat), BitVec.ofNat 8 ((dist - 2049) / 4)]
  | .m2 len dist t =>
    [BitVec.ofNat 8 (32 * (len - 1) + 4 * ((dist - 1) % 8) + t.toNat), BitVec.ofNat 8 ((dist - 1) / 8)]
  | .m3 len dist t =>
    BitVec.ofNat 8 (0x20 + lenField len Config.m3MaxLen) :: (lenExt len Config.m3MaxLen ++
      [BitVec.ofNat 8 (4 * ((dist - 1) % 64) + t.toNat), BitVec.ofNat 8 ((dist - 1) / 64)])
  | .m4 len dist t =>
    BitVec.ofNat 8 (0x10 + 8 * ((dist - 16384) / 16384) + lenField len Config.m4MaxLen) :: (lenExt len Config.m4MaxLen ++
      [BitVec.ofNat 8 (4 * ((dist - 16384) % 64) + t.toNat), BitVec.ofNat 8 ((dist - 16384) % 16384 / 64)])
  | .eos len t =>
    BitVec.ofNat 8 (0x10 + lenField len Config.m4MaxLen) :: (lenExt len Config.m4MaxLen ++ [BitVec.ofNat 8 t.toNat, 0])
  | .init ie strict => wordBytes (ctrlWord 0 ie strict)
  | .compress ie strict => wordBytes (ctrlWord 1 ie strict)
  | .decompress ie strict => wordBytes (ctrlWord 2 ie strict)
  | .reservedCmd3 ie strict => wordBytes (ctrlWord 3 ie strict)

/-! ## Lengths (R91) -/

/-- The number of bytes of an extension field of value `v`: `z + 1` (R102). -/
def extLength (v : Nat) : Nat := (v - 1) / 255 + 1

/-- The number of header bytes of a token, and 4 for a command's CTRL word (R91, R65). -/
def Instr.headerLength : Instr → Nat
  | .litf _ => 1
  | .litShort _ => 1
  | .litLong n => 1 + extLength (n - 18)
  | .m1s _ _ => 2
  | .m1l _ _ => 2
  | .m2 _ _ _ => 2
  | .m3 len _ _ => if len ≤ Config.m3MaxLen then 3 else 3 + extLength (len - Config.m3MaxLen)
  | .m4 len _ _ => if len ≤ Config.m4MaxLen then 3 else 3 + extLength (len - Config.m4MaxLen)
  | .eos len _ => if len ≤ Config.m4MaxLen then 3 else 3 + extLength (len - Config.m4MaxLen)
  | .init _ _ => 4
  | .compress _ _ => 4
  | .decompress _ _ => 4
  | .reservedCmd3 _ _ => 4

/-- The number of literal bytes that follow a token's header (R91, R104). -/
def Instr.literals : Instr → Nat
  | .litf n | .litShort n | .litLong n => n
  | .m1s _ t | .m1l _ t | .m2 _ _ t | .m3 _ _ t | .m4 _ _ t => t.toNat
  | .eos _ _ => 0
  | .init _ _ | .compress _ _ | .decompress _ _ | .reservedCmd3 _ _ => 0

/-! ## The opcode table's words

The table's rows give only a control byte (or the low bits of a CTRL value), and the same byte stands in rows of several decoder states
(R93). A word is therefore read in ONE place, chosen below (log 14). -/

/-- Where a word is read: as a CTRL write, or as a token in a decoder state. -/
inductive Place where
  | ctrl
  | token (st : DecState)
deriving DecidableEq, Repr

/-- The place a table word is read in. 32-bit words and the 3-bit CTRL patterns 1, 3, 5, 7 are CTRL writes. Among the control bytes,
0x00 and 0x04 are read at S = 1, 0x08 at S = 4, the other bytes up to 0x18 and 0x20 at START, and the rest at S = 0 (log 14). -/
def tablePlace (nbits w : Nat) : Place :=
  if 32 ≤ nbits then .ctrl
  else if w = 1 ∨ w = 3 ∨ w = 5 ∨ w = 7 then .ctrl
  else if w % 256 = 0x00 ∨ w % 256 = 0x04 then .token (.trail 1)
  else if w % 256 = 0x08 then .token .run
  else if w % 256 ≤ 0x18 ∨ w % 256 = 0x20 then .token .start
  else .token (.trail 0)

/-- The low `k` bytes of a number, lowest first. -/
def lowBytes : Nat → Nat → List Byte
  | 0, _ => []
  | k + 1, w => BitVec.ofNat 8 w :: lowBytes k (w / 256)

/-- A table word laid out as a stream: its `nbits` bits, then zeros, 256 bytes in all (the longest LITF token fits). -/
def tableBytes (nbits w : Nat) : List Byte := lowBytes 256 (w % 2 ^ nbits)

/-- The instruction the decoder reads from a table word, none where it refuses. -/
def decodeTableWord (nbits w : Nat) : Option Instr :=
  match tablePlace nbits (w % 2 ^ nbits) with
  | .ctrl =>
    match decodeCtrl (BitVec.ofNat 32 (w % 2 ^ nbits)) with
    | .ok i => some i
    | .error _ => none
  | .token st =>
    match decodeToken st (tableBytes nbits w) with
    | .ok (i, _) => some i
    | .error _ => none

end Sys2Proof
end

