-- ==== Sys2Proof/Machine/State.lean ====
section
/-! DEFINITION. The state of the block (10_state.md R21): the CSR file, the engine state FSM, the datapath registers, the hash table and
system memory, and beside them the model's own fields for the host's accesses still to come. Plain data throughout. -/

namespace Sys2Proof.Machine

/-! ## How a step can stop -/

/-- Why the machine stops with a fault. -/
inductive Fault where
  /-- Raised by an engine step whose SRC or DST region leaves the 2^32-byte address space (R61). The start check R74 keeps every run from
  reset away from it, so it is SAFE: it can only be met in states no run reaches (log 12). -/
  | outsideAddressSpace
deriving DecidableEq, Repr

/-- Why the machine refuses a step. -/
inductive Refusal where
  /-- Raised by an arm of exec whose instruction has no meaning yet. SAFE: the step is not taken. -/
  | notModelled (mnemonic : String)
  /-- Raised by a host CSR access that is not a 32-bit access at a word offset of the window; R71 says a model refuses it. SAFE: the step is
  not taken (log 10). -/
  | csrAccess (off : Nat)
deriving DecidableEq, Repr

/-- The ten values ERRCODE takes (60_exceptions.md R231). -/
inductive ErrorCode where
  | ok
  | initializationError
  | inputTooLarge
  | bufferOverflow
  | outputOverflow
  | inputOverrun
  | lookbehindOverrun
  | trailingInput
  | lengthMismatch
  | invalidArgument
deriving DecidableEq, Repr

/-! ## The pieces of the state -/

/-- A sparse table of `w`-bit entries by index, rising indices, no entry equal to the unlisted value (Machine/Memory.lean `Store.wf`). -/
abbrev Store (w : Nat) := List (Nat × BitVec w)

/-- System memory: 2^32 bytes by address (R61). -/
abbrev Memory := Store 8

/-- `H`, the hash table: 16384 entries of 16 bits (R50). -/
abbrev HashTable := Store Config.entryWidth

/-- The stages of a running COMPRESS between which a host access may fall (R220; the model's own, log 1). -/
inductive CompressPhase where
  /-- The command-start checks (R212). -/
  | check
  /-- The head of the outer loop (R152). -/
  | outer
  /-- `Next`, and `Probe` with `Literal` (R156 to R158). -/
  | next
  /-- `Match` (R159 to R162). -/
  | hit
  /-- `Flush` and the end (R165, R166). -/
  | flush
deriving DecidableEq, Repr

/-- The stages of a running DECOMPRESS (R220; the model's own, log 1). -/
inductive DecompressPhase where
  /-- The command-start checks (R212). -/
  | check
  /-- `Fetch`, the head of the token loop (R182). -/
  | fetch
deriving DecidableEq, Repr

/-- `FSM`, the engine state register (R42), with the stage of the running command. -/
inductive Fsm where
  /-- IDLE. -/
  | idle
  /-- RUN_INIT. -/
  | runInit
  /-- RUN_COMPRESS. -/
  | runCompress (phase : CompressPhase)
  /-- RUN_DECOMPRESS. -/
  | runDecompress (phase : DecompressPhase)
deriving DecidableEq, Repr

/-- The stored part of the CSR file (R22 to R40). ID, VERSION, the reserved words, CTRL.START, STATUS.BUSY and STATUS.ERR are computed views
(Machine/Flags.lean). -/
structure Csr where
  /-- CTRL.CMD (R25). -/
  cmd : BitVec 2
  /-- CTRL.IE (R25). -/
  ie : Bool
  /-- CTRL.STRICT (R25). -/
  strict : Bool
  /-- STATUS.DONE (R27). -/
  done : Bool
  /-- STATUS.INIT_OK (R27). -/
  initOk : Bool
  /-- ERRCODE bits 7:0 (R29). -/
  errcode : Byte
  /-- SRC_BASE (R30). -/
  srcBase : Word
  /-- SRC_LEN (R31). -/
  srcLen : Word
  /-- DST_BASE (R32). -/
  dstBase : Word
  /-- DST_CAP (R33). -/
  dstCap : Word
  /-- EXP_LEN (R35). -/
  expLen : Word
  /-- OUT_LEN (R36). -/
  outLen : Word
  /-- IN_USED (R37). -/
  inUsed : Word
  /-- HANDSHAKE (R38). -/
  handshake : Word
deriving DecidableEq, Repr

/-- The datapath registers (R43 to R48, R261). Cursors, lengths and counters are naturals (R10; log 18). -/
structure Datapath where
  /-- `ip`, the input cursor (R43). -/
  ip : Nat
  /-- `op`, the output cursor (R45). -/
  op : Nat
  /-- `S`, the decoder state (R44). -/
  sreg : DecState
  /-- `l`, the input not yet assigned to a block (R46). -/
  l : Nat
  /-- `t`, the pending-literal count (R46). -/
  t : Nat
  /-- `p`, the SRC offset of the next block (R151, R261). -/
  p : Nat
  /-- `blk`, the current block's offset (R46). -/
  blk : Nat
  /-- `ll`, the current block's length (R46). -/
  ll : Nat
  /-- `ip_end`, the first offset of the block not probed (R46). -/
  ipEnd : Nat
  /-- `ii`, where the pending-literal run starts (R46). -/
  ii : Nat
  /-- `ti`, the carried literal count inside a block (R46). -/
  ti : Nat
  /-- `dv`, the four bytes at the probe position (R47). -/
  dv : BitVec 32
  /-- `idx`, the hash of `dv` (R47). -/
  idx : BitVec 14
  /-- `m_pos`, the candidate's SRC offset (R47). -/
  mPos : Nat
  /-- `m_len`, the match length (R47). -/
  mLen : Nat
  /-- `m_off`, the match distance (R47). -/
  mOff : Nat
  /-- `k` of the match extension (R160, R261). -/
  k : Nat
  /-- `limit` of the match extension (R160, R261). -/
  limit : Nat
  /-- `c`, the control byte (R48). -/
  c : Byte
  /-- `n`, a literal count (R48). -/
  n : Nat
  /-- `len`, a copy length (R48). -/
  len : Nat
  /-- `dist`, a copy distance (R48). -/
  dist : Nat
  /-- `T`, the trailing literal count (R48). -/
  trail : BitVec 2
  /-- The length accumulator of the extension decoder (R48, R131). -/
  acc : Nat
  /-- `L`, the length field of a control byte (R189, R190, R261). -/
  lenBits : Nat
  /-- `Hb`, bit 3 of an M4 control byte (R190, R261). -/
  hb : BitVec 1
  /-- `D`, the 14-bit distance field (R190, R261). -/
  distBits : BitVec 14
  /-- `b0`, the first distance byte (R189, R190, R261). -/
  b0 : Byte
  /-- `b1`, the last distance byte (R186 to R190, R261). -/
  b1 : Byte
deriving DecidableEq, Repr

/-- The model's own: a command that has ended and whose DONE = 1 the host has not read yet, so that the host's memory accesses are still unordered
with the command's (20_memory.md R78; log 21). -/
structure Flight where
  /-- SRC_BASE of the command. -/
  srcBase : Word
  /-- SRC_LEN of the command. -/
  srcLen : Word
  /-- DST_BASE of the command. -/
  dstBase : Word
  /-- DST_CAP of the command. -/
  dstCap : Word
  /-- The command passed its start checks, and so may have accessed memory. -/
  ran : Bool
deriving DecidableEq, Repr

/-- One turn of the outside world (log 2): an access of the host's, the reset input, or a turn that is left to the engine. -/
inductive HostOp where
  /-- `csrw`: a 32-bit write at a window offset (R65, R113). -/
  | csrw (off : Nat) (val : Word)
  /-- `csrr`: a 32-bit read at a window offset (R65, R113). -/
  | csrr (off : Nat)
  /-- A CSR access of another width, in bytes (R71). -/
  | csrNarrow (off bytes : Nat)
  /-- `wait DONE`: poll STATUS until DONE = 1 (R113). -/
  | waitDone
  /-- Wait until the interrupt output is 1 (R79, R266 step 5). -/
  | waitIrq
  /-- The host writes one byte of system memory (R78, R85). -/
  | memw (addr : Word) (val : Byte)
  /-- The host reads one byte of system memory (R78, R85). -/
  | memr (addr : Word)
  /-- The engine takes its next step before the host goes on (R220). -/
  | engine
  /-- The reset input is asserted, possibly during an engine step (R261 to R263). -/
  | reset
deriving DecidableEq, Repr

/-- The state of the block and of what it is connected to. -/
structure State where
  /-- The CSR file (R22). -/
  csr : Csr
  /-- FSM (R42). -/
  fsm : Fsm
  /-- The datapath registers (R41). -/
  dp : Datapath
  /-- The hash table H (R50). -/
  tbl : HashTable
  /-- System memory (R21, R61). -/
  mem : Memory
  /-- The model's own: the host broke R85 during the running command, whose result is unspecified (log 5). -/
  raced : Bool
  /-- The model's own: the command that has ended unseen by the host, if any (R78; log 21). -/
  flight : Option Flight
  /-- The model's own: the turns of the outside world still to come, oldest first (log 2). -/
  host : List HostOp
  /-- The model's own: the value the host's last read returned (log 17). -/
  rdata : Word
  /-- The model's own: how many free values have been drawn (log 9). -/
  draws : Nat
deriving DecidableEq, Repr

/-! ## Reset -/

/-- The CSR file after reset: the values of R22 and R261. -/
def Csr.reset : Csr :=
  { cmd := 0, ie := false, strict := Config.strictReset, done := false, initOk := false, errcode := 0,
    srcBase := 0, srcLen := 0, dstBase := 0, dstCap := 0, expLen := 0, outLen := 0, inUsed := 0, handshake := 0 }

/-- The datapath after reset: S = START (R261). The spec leaves the others unspecified: all zero here, DESIGN CHOICE (log 4). -/
def Datapath.reset : Datapath :=
  { ip := 0, op := 0, sreg := .start, l := 0, t := 0, p := 0, blk := 0, ll := 0, ipEnd := 0, ii := 0, ti := 0,
    dv := 0, idx := 0, mPos := 0, mLen := 0, mOff := 0, k := 0, limit := 0, c := 0, n := 0, len := 0, dist := 0,
    trail := 0, acc := 0, lenBits := 0, hb := 0, distBits := 0, b0 := 0, b1 := 0 }

/-- The machine right after reset (R53, R261), with no byte of memory listed and no host access to come. H is unspecified at reset: all zero
here, DESIGN CHOICE (log 4). -/
def State.reset : State :=
  { csr := Csr.reset, fsm := .idle, dp := Datapath.reset, tbl := [], mem := [], raced := false, flight := none, host := [],
    rdata := 0, draws := 0 }

end Sys2Proof.Machine
end

