-- ==== Sys2Proof/Machine/Memory.lean ====
section
/-! DEFINITION. Reading and writing the sparse tables that hold system memory and the hash table, and their canonical form
(20_memory.md R64, R66). -/

namespace Sys2Proof.Machine

/-- What an unlisted index reads as: zero. For H it is the cleared entry (R154); for system memory, whose contents before the first write the
spec does not give, it is a DESIGN CHOICE (log 3). -/
def Store.unlisted (w : Nat) : BitVec w := 0

/-- The entry at an index. -/
def Store.read {w : Nat} : Store w → Nat → BitVec w
  | [], _ => Store.unlisted w
  | (b, x) :: m, a => if a = b then x else Store.read m a

/-- One entry put before a table, unless it holds the unlisted value. -/
def Store.cons {w : Nat} (a : Nat) (v : BitVec w) (m : Store w) : Store w :=
  if v = Store.unlisted w then m else (a, v) :: m

/-- The table with one entry written; writing the unlisted value removes the entry. -/
def Store.write {w : Nat} : Store w → Nat → BitVec w → Store w
  | [], a, v => Store.cons a v []
  | (b, x) :: m, a, v =>
    if a < b then Store.cons a v ((b, x) :: m)
    else if a = b then Store.cons a v m
    else (b, x) :: Store.write m a v

/-- Every listed index is at least `lo`, the indices rise strictly, and no entry holds the unlisted value. -/
def Store.above {w : Nat} (lo : Nat) : Store w → Bool
  | [] => true
  | (a, v) :: m => decide (lo ≤ a) && decide (v ≠ Store.unlisted w) && Store.above (a + 1) m

/-- The canonical form: equal contents are equal lists. -/
def Store.wf {w : Nat} (m : Store w) : Bool := Store.above 0 m

/-- Every listed index is below `hi`. -/
def Store.below {w : Nat} (hi : Nat) (m : Store w) : Bool := m.all fun e => decide (e.1 < hi)

/-- The canonical form of system memory. -/
abbrev Memory.wf (m : Memory) : Bool := Store.wf m

/-- `m` with the `n` bytes from `base` set to `f 0, f 1, …`. -/
def Memory.fill (m : Memory) (base : Nat) (f : Nat → Byte) : Nat → Memory
  | 0 => m
  | n + 1 => Store.write (Memory.fill m base f n) (base + n) (f n)

/-- The entries of `new` below `lim` and those of `old` from `lim` on (70_reset_and_hazards.md R263). -/
def Memory.splice (new old : Memory) (lim : Nat) : Memory :=
  (new.filter fun e => decide (e.1 < lim)) ++ (old.filter fun e => decide (lim ≤ e.1))

end Sys2Proof.Machine
end

