-- ==== Sys2Proof/Machine/Flags.lean ====
section
/-! DEFINITION. The status and control bits, the interrupt output, and the words the CSR port reads (10_state.md R22 to R40, R49). -/

namespace Sys2Proof.Machine

/-- The number of an error code (60_exceptions.md R231). -/
def ErrorCode.code : ErrorCode → Byte
  | .ok => 0
  | .initializationError => 1
  | .inputTooLarge => 2
  | .bufferOverflow => 3
  | .outputOverflow => 4
  | .inputOverrun => 5
  | .lookbehindOverrun => 6
  | .trailingInput => 7
  | .lengthMismatch => 8
  | .invalidArgument => 9

/-- STATUS.BUSY: 1 exactly when FSM ≠ IDLE (R42). -/
def State.busy (s : State) : Bool := decide (s.fsm ≠ .idle)

/-- STATUS.ERR: equals (ERRCODE ≠ 0) at all times (R27). -/
def State.err (s : State) : Bool := decide (s.csr.errcode ≠ 0)

/-- `irq` = STATUS.DONE & CTRL.IE (R49, 60_exceptions.md R246). -/
def State.irq (s : State) : Bool := s.csr.done && s.csr.ie

/-- A word from its bit values, bit 0 first. -/
def wordOfBits (b0 b1 b2 b3 b4 : Bool) : Word :=
  BitVec.ofNat 32 (b0.toNat + 2 * b1.toNat + 4 * b2.toNat + 8 * b3.toNat + 16 * b4.toNat)

/-- What CTRL reads: START reads 0, bits 31:5 read 0 (R25). -/
def State.ctrl (s : State) : Word :=
  wordOfBits false (s.csr.cmd.getLsbD 0) (s.csr.cmd.getLsbD 1) s.csr.ie s.csr.strict

/-- What STATUS reads: BUSY, DONE, ERR, INIT_OK, and 0 above (R27). -/
def State.status (s : State) : Word :=
  wordOfBits s.busy s.csr.done s.err s.csr.initOk false

/-- The 32-bit read of a CSR at a window offset, none where the window has no register there (R22 to R39, R71). -/
def State.csrRead (s : State) (off : Nat) : Option Word :=
  match off with
  | 0x00 => some Config.coreId
  | 0x04 => some Config.coreVersion
  | 0x08 => some s.ctrl
  | 0x0C => some s.status
  | 0x10 => some (s.csr.errcode.setWidth 32)
  | 0x14 => some s.csr.srcBase
  | 0x18 => some s.csr.srcLen
  | 0x1C => some s.csr.dstBase
  | 0x20 => some s.csr.dstCap
  | 0x24 => some s.csr.expLen
  | 0x28 => some s.csr.outLen
  | 0x2C => some s.csr.inUsed
  | 0x30 => some s.csr.handshake
  | 0x34 => some 0
  | 0x38 => some 0
  | 0x3C => some 0
  | _ => none

/-- The decoder state a literal run of `n` bytes leaves: `n` below 4, else 4 (R44, 42_decompressor.md R184). -/
def runState (n : Nat) : DecState := if n < 4 then .trail (BitVec.ofNat 2 n) else .run

end Sys2Proof.Machine
end

