-- ==== Sys2Proof/Machine/Operands.lean ====
section
/-! DEFINITION. How a step names its operands: the bytes of SRC and DST, the remaining stream, the probe word and its hash, and the two
regions (00_scope.md R11, 20_memory.md R61 to R75, 40_primitives.md R144, R145). -/

namespace Sys2Proof.Machine

/-- SRC_LEN as a natural. -/
def State.srcLen (s : State) : Nat := s.csr.srcLen.toNat

/-- DST_CAP as a natural. -/
def State.dstCap (s : State) : Nat := s.csr.dstCap.toNat

/-- The system address of SRC offset `i` (R62). -/
def State.srcAddr (s : State) (i : Nat) : Nat := s.csr.srcBase.toNat + i

/-- The system address of DST offset `i` (R63). -/
def State.dstAddr (s : State) (i : Nat) : Nat := s.csr.dstBase.toNat + i

/-- `src[i]` (R11). -/
def State.src (s : State) (i : Nat) : Byte := Store.read s.mem (s.srcAddr i)

/-- `dst[i]` (R11). -/
def State.dst (s : State) (i : Nat) : Byte := Store.read s.mem (s.dstAddr i)

/-- The `k` bytes of SRC from offset `i`. -/
def State.srcFrom (s : State) : Nat → Nat → List Byte
  | 0, _ => []
  | k + 1, i => s.src i :: s.srcFrom k (i + 1)

/-- The stream bytes not yet consumed: `src[ip .. SRC_LEN)` (R43, R182). -/
def State.stream (s : State) : List Byte := s.srcFrom (s.srcLen - s.dp.ip) s.dp.ip

/-- Both regions lie in the address space: SRC_BASE + SRC_LEN ≤ 2^32 and DST_BASE + DST_CAP ≤ 2^32, without wrap (R74). -/
def State.inSpace (s : State) : Bool :=
  decide (s.csr.srcBase.toNat + s.csr.srcLen.toNat ≤ Config.addrSpace) &&
    decide (s.csr.dstBase.toNat + s.csr.dstCap.toNat ≤ Config.addrSpace)

/-- SRC and DST share a byte (R75). -/
def State.overlap (s : State) : Bool :=
  decide (0 < s.srcLen) && decide (0 < s.dstCap) &&
    decide (s.srcAddr 0 < s.dstAddr s.dstCap) && decide (s.dstAddr 0 < s.srcAddr s.srcLen)

/-- The address is a byte of SRC (R62). -/
def State.inSrc (s : State) (a : Nat) : Bool := decide (s.srcAddr 0 ≤ a) && decide (a < s.srcAddr s.srcLen)

/-- The address is a byte of DST (R63). -/
def State.inDst (s : State) (a : Nat) : Bool := decide (s.dstAddr 0 ≤ a) && decide (a < s.dstAddr s.dstCap)

/-! ## Commands that ended unseen (R78; log 21) -/

/-- The address is a byte of the SRC of a command that ended unseen. -/
def Flight.inSrc (f : Flight) (a : Nat) : Bool :=
  decide (f.srcBase.toNat ≤ a) && decide (a < f.srcBase.toNat + f.srcLen.toNat)

/-- The address is a byte of the DST of a command that ended unseen. -/
def Flight.inDst (f : Flight) (a : Nat) : Bool :=
  decide (f.dstBase.toNat ≤ a) && decide (a < f.dstBase.toNat + f.dstCap.toNat)

/-- The command is past its start checks: only then does it access memory (R212). -/
def State.pastChecks (s : State) : Bool :=
  match s.fsm with
  | .idle | .runInit | .runCompress .check | .runDecompress .check => false
  | .runCompress .outer | .runCompress .next | .runCompress .hit | .runCompress .flush | .runDecompress .fetch => true

/-- The running command as it ends, unseen by the host; its regions are those held at its START (R268). -/
def State.endFlight (s : State) : Flight :=
  { srcBase := s.csr.srcBase, srcLen := s.csr.srcLen, dstBase := s.csr.dstBase, dstCap := s.csr.dstCap, ran := s.pastChecks }

/-- The host accesses a byte of DST while the command is in flight: while BUSY = 1, or before it has read DONE = 1 (R78, R85). -/
def State.dstInFlight (s : State) (a : Nat) : Bool :=
  s.busy && s.inDst a || s.flight.any fun f => f.inDst a

/-- The host accesses a byte of SRC or DST of a command that ran and has ended unseen (R78; log 21). -/
def State.endedRace (s : State) (a : Nat) : Bool := s.flight.any fun f => f.ran && (f.inSrc a || f.inDst a)

/-- `LE32(p)`: four bytes of SRC as one word, the lowest address in the low bits (R68, R144). -/
def State.le32 (s : State) (p : Nat) : BitVec 32 :=
  s.src (p + 3) ++ s.src (p + 2) ++ s.src (p + 1) ++ s.src p

/-- `Hash(dv)`: the top 14 bits of the 32-bit product (R145). -/
def hashIndex (dv : BitVec 32) : BitVec 14 :=
  (dv * BitVec.ofNat 32 Config.hashMul).extractLsb' 18 14

end Sys2Proof.Machine
end

