-- ==== Sys2Proof/Machine/Ops.lean ====
section
/-! DEFINITION. The operations the meanings share: the byte ports and copies of 40_primitives.md, the start of a command
(43_commands.md R211), and the end of one (60_exceptions.md R238), which is this block's exception entry. -/

namespace Sys2Proof.Machine

/-! ## Small updates -/

/-- The state with `ip` set (R43). -/
def State.setIp (s : State) (ip : Nat) : State := { s with dp := { s.dp with ip := ip } }

/-- The state with `S` set (R44). -/
def State.setS (s : State) (st : DecState) : State := { s with dp := { s.dp with sreg := st } }

/-- The state with FSM set (R42). -/
def State.setFsm (s : State) (f : Fsm) : State := { s with fsm := f }

/-- `dst[op] <- b; op <- op + 1` (R63). -/
def State.putDst (s : State) (b : Byte) : State :=
  { s with mem := Store.write s.mem (s.dstAddr s.dp.op) b, dp := { s.dp with op := s.dp.op + 1 } }

/-- The literal count of a token, in `n` (R48). -/
def State.latchCount (s : State) (n : Nat) : State := { s with dp := { s.dp with n := n } }

/-- The operands of a copy token, in `len`, `dist` and `T` (R48). -/
def State.latchCopy (s : State) (len dist : Nat) (t : BitVec 2) : State :=
  { s with dp := { s.dp with len := len, dist := dist, trail := t } }

/-! ## The end of a command: the block's exception entry (R238) -/

/-- The OUT_LEN and IN_USED a command ends with (43_commands.md R217). -/
def State.results (s : State) (e : ErrorCode) : Nat × Nat :=
  match s.fsm with
  | .idle | .runInit | .runCompress .check | .runDecompress .check => (0, 0)
  | .runCompress _ => (s.dp.op, if e = .ok then s.srcLen else 0)
  | .runDecompress .fetch => (s.dp.op, s.dp.ip)

/-- The termination procedure: ERRCODE, OUT_LEN and IN_USED, INIT_OK for INIT only, DONE, and FSM back to IDLE, all in one step (R238). `stop OK`
is the case of code `ok`. -/
def State.terminate (s : State) (e : ErrorCode) : State :=
  { s with
    csr := { s.csr with
      errcode := e.code
      outLen := BitVec.ofNat 32 (s.results e).1
      inUsed := BitVec.ofNat 32 (s.results e).2
      initOk := if s.fsm = .runInit then decide (e = .ok) else s.csr.initOk
      done := true }
    fsm := .idle
    raced := false
    flight := some s.endFlight }

/-- There is no return instruction: the host clears DONE, by writing 1 to STATUS bit 1, and goes on (R28, R244). -/
def State.clearDone (s : State) : State := { s with csr := { s.csr with done := false } }

/-! ## The start of a command (R211) -/

/-- A CTRL write while BUSY = 1 updates IE only (R26). -/
def State.setIe (s : State) (ie : Bool) : State := { s with csr := { s.csr with ie := ie } }

/-- The CMD, IE and STRICT fields a CTRL write stores while BUSY = 0 (R25). -/
def State.storeCtrl (s : State) (cmd : BitVec 2) (ie strict : Bool) : State :=
  { s with csr := { s.csr with cmd := cmd, ie := ie, strict := strict } }

/-- An accepted START, steps 1, 2 and 4: the fields are stored, DONE and ERRCODE cleared, and FSM moves (R211). It is an ordering point of
its own: no earlier command is in flight past it (R78; log 21). -/
def State.acceptStart (s : State) (cmd : BitVec 2) (ie strict : Bool) (f : Fsm) : State :=
  { s with
    csr := { s.csr with cmd := cmd, ie := ie, strict := strict, done := false, errcode := 0 }
    fsm := f
    raced := false
    flight := none }

/-- A CTRL write with START = 1: an accepted START while BUSY = 0, an update of IE otherwise (R26, R211). -/
def State.startCommand (s : State) (cmd : BitVec 2) (ie strict : Bool) (f : Fsm) : State :=
  if s.busy then s.setIe ie else s.acceptStart cmd ie strict f

/-! ## What a primitive can do -/

/-- A primitive goes on, or raises an error that ends the command (00_scope.md R12). -/
inductive Res where
  | ok (s : State)
  | raise (e : ErrorCode) (s : State)
deriving DecidableEq, Repr

/-- One primitive, then another if the first goes on. -/
def Res.andThen (r : Res) (f : State → Res) : Res :=
  match r with
  | .ok s => f s
  | .raise e s => .raise e s

/-- A raised error ends the command by R238; otherwise the engine goes on. -/
def Res.settle : Res → State
  | .ok s => s
  | .raise e s => s.terminate e

/-- The outcome of an engine step that accesses SRC or DST: a fault if a region leaves the address space, which the start check R74 rules
out for every command that gets this far (log 12). -/
def State.guarded (s : State) (r : Res) : Host.Outcome State Fault Refusal :=
  if s.inSpace then .next r.settle else .fault .outsideAddressSpace

/-! ## Decoder copies (40_primitives.md R141, R142) -/

/-- The loop of `CopyLiterals`: `n` times `dst[op] <- src[ip]`, both cursors advancing (R142). -/
def copyLits : Nat → State → State
  | 0, s => s
  | n + 1, s => copyLits n ((s.putDst (s.src s.dp.ip)).setIp (s.dp.ip + 1))

/-- `CopyLiterals(n)`: OutputOverflow, then InputOverrun, both before any byte moves (R142). -/
def copyLiterals (n : Nat) (s : State) : Res :=
  if s.dstCap - s.dp.op < n then .raise .outputOverflow s
  else if s.srcLen - s.dp.ip < n then .raise .inputOverrun s
  else .ok (copyLits n s)

/-- The loop of `CopyMatch`: `len` times `dst[op] <- dst[op - dist]`, byte by byte (R141). -/
def copyBack (dist : Nat) : Nat → State → State
  | 0, s => s
  | len + 1, s => copyBack dist len (s.putDst (s.dst (s.dp.op - dist)))

/-- `CopyMatch(dist, len)`: LookbehindOverrun, then OutputOverflow, both before any byte moves (R141). -/
def copyMatch (dist len : Nat) (s : State) : Res :=
  if s.dp.op < dist then .raise .lookbehindOverrun s
  else if s.dstCap - s.dp.op < len then .raise .outputOverflow s
  else .ok (copyBack dist len s)

/-- `Trail`: the T trailing literals of a copy token, then `S <- T` (42_decompressor.md R193). -/
def trail (t : BitVec 2) (s : State) : Res :=
  (if t = 0 then .ok s else copyLiterals t.toNat s).andThen fun s' => .ok (s'.setS (.trail t))

/-- `Copy` and `Trail`, the common tail of the copy tokens (R192, R193). -/
def copyToken (len dist : Nat) (t : BitVec 2) (s : State) : Res :=
  (copyMatch dist len (s.latchCopy len dist t)).andThen (trail t)

/-- A literal token of `n` bytes that leaves `S` at `st` (R184, R185). -/
def litToken (n : Nat) (st : DecState) (s : State) : Res :=
  (copyLiterals n (s.latchCount n)).andThen fun s' => .ok (s'.setS st)

/-! ## Compressor output (40_primitives.md R132 to R139, R143, R147) -/

/-- `Emit(b)`: BufferOverflow when op = DST_CAP, else one byte is written (R143). -/
def emit (b : Byte) (s : State) : Res :=
  if s.dp.op = s.dstCap then .raise .bufferOverflow s else .ok (s.putDst b)

/-- `Emit` of each byte in turn. -/
def emitAll : List Byte → State → Res
  | [], s => .ok s
  | b :: bs, s => (emit b s).andThen (emitAll bs)

/-- The header bytes of a literal run of `t ≥ 4` bytes: short form to 18, else long form (R133, R165). -/
def litHeader (t : Nat) : List Byte :=
  if t ≤ 18 then [BitVec.ofNat 8 (t - 3)] else 0 :: extBytes (t - 18)

/-- The bytes of `EmitM2(len, dist)` (R135). -/
def m2Bytes (len dist : Nat) : List Byte :=
  [BitVec.ofNat 8 (((len - 1) <<< 5) ||| (((dist - 1) &&& 7) <<< 2)), BitVec.ofNat 8 ((dist - 1) >>> 3)]

/-- The bytes of `EmitM3(len, dist)` (R136). -/
def m3Bytes (len dist : Nat) : List Byte :=
  (if len ≤ 33 then [BitVec.ofNat 8 (0x20 ||| (len - 2))] else 0x20 :: extBytes (len - 33)) ++
    [BitVec.ofNat 8 (((dist - 1) <<< 2) &&& 0xFF), BitVec.ofNat 8 ((dist - 1) >>> 6)]

/-- The bytes of `EmitM4(len, dist)` (R137). -/
def m4Bytes (len dist : Nat) : List Byte :=
  (if len ≤ 9 then [BitVec.ofNat 8 (0x10 ||| (((dist - 16384) >>> 11) &&& 8) ||| (len - 2))]
    else BitVec.ofNat 8 (0x10 ||| (((dist - 16384) >>> 11) &&& 8)) :: extBytes (len - 9)) ++
    [BitVec.ofNat 8 (((dist - 16384) <<< 2) &&& 0xFF), BitVec.ofNat 8 (((dist - 16384) >>> 6) &&& 0xFF)]

/-- The bytes of `EmitEOS()` (R138). -/
def eosBytes : List Byte := [0x11, 0x00, 0x00]

/-- The bytes of the token chosen for a match (41_compressor.md R162). -/
def matchBytes (len dist : Nat) : List Byte :=
  if len ≤ Config.m2MaxLen ∧ dist ≤ Config.m2MaxOffset then m2Bytes len dist
  else if dist ≤ Config.m3MaxOffset then m3Bytes len dist
  else m4Bytes len dist

/-- `Patch2(t)`: `dst[op - 2] <- dst[op - 2] | t`, with op unchanged and no check (R139). -/
def patch2 (t : Nat) (s : State) : State :=
  { s with mem := Store.write s.mem (s.dstAddr (s.dp.op - 2)) (s.dst (s.dp.op - 2) ||| BitVec.ofNat 8 t) }

/-- `CompLiterals(start, n)`: `Emit` of `n` bytes of SRC (R147). -/
def compLiterals : Nat → Nat → State → Res
  | _, 0, s => .ok s
  | start, n + 1, s => (emit (s.src start) s).andThen (compLiterals (start + 1) n)

/-- `EmitLitHeader(t)`, `t ≥ 1`: up to 3 literals ride in the last copy's T field (R133). -/
def emitLitHeader (t : Nat) (s : State) : Res :=
  if t ≤ 3 then .ok (patch2 t s) else emitAll (litHeader t) s

end Sys2Proof.Machine
end

