-- ==== Sys2Proof/Machine/Compressor.lean ====
section
/-! DEFINITION. The engine stages of a running COMPRESS (41_compressor.md R151 to R167): the outer loop, a probe, a match, and the flush. -/

namespace Sys2Proof.Machine

/-! ## The outer loop and the start of a block -/

/-- The outer loop forms another block: more than TAIL bytes are left, and the carried literals and the block span MIN_SPAN (R152, R153). -/
def State.anotherBlock (s : State) : Bool :=
  decide (Config.tail < s.dp.l) && decide ((s.dp.t + min s.dp.l Config.blockMax) / Config.minSpan ≠ 0)

/-- The literal step: `ip + 1 + ((ip - ii) >> 5)` (R155, R157). It is not clamped: near a block's end it can carry `ip` past SRC_LEN, where R43
bounds `ip` (DESIGN CHOICE, log 22). -/
def skipTo (ip ii : Nat) : Nat := ip + 1 + (ip - ii) / 32

/-- Where a block's first probe lies (R155). -/
def firstProbe (blk ti : Nat) : Nat := skipTo (if ti < 4 then blk + (4 - ti) else blk) blk

/-- A block starts: H is cleared and the block registers are set (R152, R154, R155). -/
def State.beginBlock (s : State) : State :=
  { s with
    dp := { s.dp with
      blk := s.dp.p
      ll := min s.dp.l Config.blockMax
      ipEnd := s.dp.p + min s.dp.l Config.blockMax - Config.tail
      ii := s.dp.p
      ti := s.dp.t
      ip := firstProbe s.dp.p s.dp.t }
    tbl := []
    fsm := .runCompress .next }

/-- The loop is over: the unblocked tail joins the pending literals. A pass that ends at the MIN_SPAN exit has already written `ll`; one that ends
at the loop's own test has not (R152). -/
def State.endBlocks (s : State) : State :=
  { s with
    dp := { s.dp with
      ll := if Config.tail < s.dp.l then min s.dp.l Config.blockMax else s.dp.ll
      t := s.dp.t + s.dp.l }
    fsm := .runCompress .flush }

/-- The head of the outer loop (R152). -/
def State.outerStep (s : State) : State :=
  if s.anotherBlock then s.beginBlock else s.endBlocks

/-! ## Probing -/

/-- A block ends: its pending literals are carried on (R152, R164). -/
def State.endBlock (s : State) : State :=
  { s with
    dp := { s.dp with
      t := s.dp.blk + s.dp.ll - (s.dp.ii - s.dp.ti)
      p := s.dp.p + s.dp.ll
      l := s.dp.l - s.dp.ll }
    fsm := .runCompress .outer }

/-- The probe itself: the slot is read, then overwritten with the probed offset (R156). -/
def State.probe (s : State) : State :=
  { s with
    dp := { s.dp with
      dv := s.le32 s.dp.ip
      idx := hashIndex (s.le32 s.dp.ip)
      mPos := s.dp.blk + (Store.read s.tbl (hashIndex (s.le32 s.dp.ip)).toNat).toNat }
    tbl := Store.write s.tbl (hashIndex (s.le32 s.dp.ip)).toNat (BitVec.ofNat 16 (s.dp.ip - s.dp.blk)) }

/-- After a probe: a literal steps on, four equal bytes make a match (R156, R157). The step may leave `ip` past SRC_LEN, and so past R43's bound
(DESIGN CHOICE, log 22). -/
def State.judge (s : State) : State :=
  if s.le32 s.dp.mPos = s.dp.dv then s.setFsm (.runCompress .hit)
  else s.setIp (skipTo s.dp.ip s.dp.ii)

/-- `Next`: the end test, then a probe (R156 to R158). -/
def State.nextStep (s : State) : State :=
  if s.dp.ipEnd ≤ s.dp.ip then s.endBlock else s.probe.judge

/-! ## A match -/

/-- The smallest `k ≥ 1` with `ip + 4 + 8k ≥ ip_end` (R160). -/
def capCount (ip ipEnd : Nat) : Nat := max 1 ((ipEnd - (ip + 4) + 7) / 8)

/-- How many of the next `fuel` SRC bytes at `i` and `j` are equal, up to the first unequal pair (R160). -/
def State.equalRun (s : State) : Nat → Nat → Nat → Nat
  | 0, _, _ => 0
  | fuel + 1, i, j => if s.src i = s.src j then s.equalRun fuel (i + 1) (j + 1) + 1 else 0

/-- Part 1: the carried literals join the run, and the run is emitted (R159). -/
def State.flushRun (s : State) : Res :=
  let start := s.dp.ii - s.dp.ti
  let t := s.dp.ip - start
  let s1 : State := { s with dp := { s.dp with ii := start, ti := 0, t := t } }
  if t = 0 then .ok s1
  else (emitLitHeader t s1).andThen (compLiterals start t)

/-- Part 2: the match is extended up to its cap (R160). -/
def State.extendMatch (s : State) : State :=
  let k := capCount s.dp.ip s.dp.ipEnd
  { s with dp := { s.dp with
      k := k
      limit := 4 + 8 * k
      mLen := 4 + s.equalRun (8 * k) (s.dp.ip + 4) (s.dp.mPos + 4) } }

/-- Part 3: the token is chosen and emitted, with ip and ii past the match and no skip (R161 to R163). -/
def State.emitMatch (s : State) : Res :=
  let s1 : State := { s with dp := { s.dp with
      mOff := s.dp.ip - s.dp.mPos
      ip := s.dp.ip + s.dp.mLen
      ii := s.dp.ip + s.dp.mLen } }
  (emitAll (matchBytes s1.dp.mLen s1.dp.mOff) s1).andThen fun s2 => .ok (s2.setFsm (.runCompress .next))

/-- `Match` (R159 to R162). -/
def State.hitStep (s : State) : Res :=
  s.flushRun.andThen fun s1 => s1.extendMatch.emitMatch

/-! ## The end of input -/

/-- The header of the final literal run of `t ≥ 1` bytes (R165). -/
def flushHeader (t : Nat) (s : State) : Res :=
  if s.dp.op = 0 ∧ t ≤ Config.firstLitMax then emitAll [BitVec.ofNat 8 (17 + t)] s
  else if t ≤ 3 then .ok (patch2 t s)
  else emitAll (litHeader t) s

/-- The final literal run: `src[n - t .. n)` (R165). -/
def State.flushTail (s : State) : Res :=
  if s.dp.t = 0 then .ok s
  else (flushHeader s.dp.t s).andThen (compLiterals (s.srcLen - s.dp.t) s.dp.t)

/-- `Flush`, EOS, and `stop OK` (R165, R166). -/
def State.flushStep (s : State) : Res :=
  (s.flushTail.andThen (emitAll eosBytes)).andThen fun s' => .ok (s'.terminate .ok)

end Sys2Proof.Machine
end

