-- ==== Sys2Proof/Machine/Commands.lean ====
section
/-! DEFINITION. The four commands of a CTRL write (43_commands.md R211, R213 to R216): what the START access itself does. The engine steps
that follow it are in Machine/Start.lean, Machine/Compressor.lean and Machine/Engine.lean. -/

namespace Sys2Proof.Machine

/-- INIT: an accepted START moves FSM to RUN_INIT (R211, R213). -/
def execInit (ie strict : Bool) (s : State) : Host.Outcome State Fault Refusal :=
  .next (s.startCommand 0 ie strict .runInit)

/-- COMPRESS: an accepted START moves FSM to RUN_COMPRESS, before the start checks (R211, R214). -/
def execCompress (ie strict : Bool) (s : State) : Host.Outcome State Fault Refusal :=
  .next (s.startCommand 1 ie strict (.runCompress .check))

/-- DECOMPRESS: an accepted START moves FSM to RUN_DECOMPRESS, before the start checks (R211, R215). -/
def execDecompress (ie strict : Bool) (s : State) : Host.Outcome State Fault Refusal :=
  .next (s.startCommand 2 ie strict (.runDecompress .check))

/-- The reserved command: an accepted START ends in the same access with InvalidArgument, FSM staying IDLE (R216). -/
def execReservedCmd3 (ie strict : Bool) (s : State) : Host.Outcome State Fault Refusal :=
  .next (if s.busy then s.setIe ie else (s.acceptStart 3 ie strict .idle).terminate .invalidArgument)

end Sys2Proof.Machine
end

