-- ==== Sys2Proof/Machine/Copies.lean ====
section
/-! DEFINITION. The copy tokens M1S, M1L, M2, M3 and M4 (42_decompressor.md R186 to R190, R192, R193). Their lengths and distances come
from the decoder (Decode.lean). -/

namespace Sys2Proof.Machine

/-- M1S: a copy of length 2 (R186). -/
def execM1s (dist : Nat) (t : BitVec 2) (s : State) : Host.Outcome State Fault Refusal :=
  s.guarded (copyToken 2 dist t s)

/-- M1L: a copy of length 3 (R187). -/
def execM1l (dist : Nat) (t : BitVec 2) (s : State) : Host.Outcome State Fault Refusal :=
  s.guarded (copyToken 3 dist t s)

/-- M2: a near copy (R188). -/
def execM2 (len dist : Nat) (t : BitVec 2) (s : State) : Host.Outcome State Fault Refusal :=
  s.guarded (copyToken len dist t s)

/-- M3: a medium copy (R189). -/
def execM3 (len dist : Nat) (t : BitVec 2) (s : State) : Host.Outcome State Fault Refusal :=
  s.guarded (copyToken len dist t s)

/-- M4: a far copy (R190). -/
def execM4 (len dist : Nat) (t : BitVec 2) (s : State) : Host.Outcome State Fault Refusal :=
  s.guarded (copyToken len dist t s)

end Sys2Proof.Machine
end

