-- ==== Sys2Proof/Machine/EndOfStream.lean ====
section
/-! DEFINITION. The end marker EOS (42_decompressor.md R191). -/

namespace Sys2Proof.Machine

/-- The code EOS ends the command with: TrailingInput, then LengthMismatch, then OK (R191). -/
def State.eosCode (s : State) : ErrorCode :=
  if s.dp.ip < s.srcLen then .trailingInput
  else if s.csr.strict = true ∧ s.dp.op ≠ s.csr.expLen.toNat then .lengthMismatch
  else .ok

/-- EOS: the command ends. `len` was assembled by R190 before the marker was recognised; it and `t` are ignored (R191). -/
def execEos (len : Nat) (_t : BitVec 2) (s : State) : Host.Outcome State Fault Refusal :=
  .next (({ s with dp := { s.dp with len := len } } : State).terminate s.eosCode)

end Sys2Proof.Machine
end

