-- ==== Sys2Proof/Machine/Literals.lean ====
section
/-! DEFINITION. The literal tokens LITF and LIT (42_decompressor.md R184, R185). -/

namespace Sys2Proof.Machine

/-- LITF: `CopyLiterals(n)`, then S is n below 4, else 4 (R184). -/
def execLitf (n : Nat) (s : State) : Host.Outcome State Fault Refusal :=
  s.guarded (litToken n (runState n) s)

/-- LIT, short form: `CopyLiterals(n)`, then S = 4 (R185). -/
def execLitShort (n : Nat) (s : State) : Host.Outcome State Fault Refusal :=
  s.guarded (litToken n .run s)

/-- LIT, long form: `CopyLiterals(n)`, then S = 4 (R185). -/
def execLitLong (n : Nat) (s : State) : Host.Outcome State Fault Refusal :=
  s.guarded (litToken n .run s)

end Sys2Proof.Machine
end

