-- ==== Sys2Proof/Machine/Dispatch.lean ====
section
/-! DEFINITION. The meaning of every instruction, one arm per constructor of Instr. -/

namespace Sys2Proof.Machine

def exec (i : Instr) (s : State) : Host.Outcome State Fault Refusal :=
  match i with
  | .litf n => Sys2Proof.Machine.execLitf n s
  | .litShort n => Sys2Proof.Machine.execLitShort n s
  | .litLong n => Sys2Proof.Machine.execLitLong n s
  | .m1s dist t => Sys2Proof.Machine.execM1s dist t s
  | .m1l dist t => Sys2Proof.Machine.execM1l dist t s
  | .m2 len dist t => Sys2Proof.Machine.execM2 len dist t s
  | .m3 len dist t => Sys2Proof.Machine.execM3 len dist t s
  | .m4 len dist t => Sys2Proof.Machine.execM4 len dist t s
  | .eos len t => Sys2Proof.Machine.execEos len t s
  | .init ie strict => Sys2Proof.Machine.execInit ie strict s
  | .compress ie strict => Sys2Proof.Machine.execCompress ie strict s
  | .decompress ie strict => Sys2Proof.Machine.execDecompress ie strict s
  | .reservedCmd3 ie strict => Sys2Proof.Machine.execReservedCmd3 ie strict s

end Sys2Proof.Machine
end

