-- ==== Sys2Proof/Machine/Fetch.lean ====
section
/-! DEFINITION. Fetching a token's header from SRC (42_decompressor.md R182), and laying a stream out where the fetch reads it. -/

namespace Sys2Proof.Machine

/-- The raw registers a header leaves: the control byte, the accumulator, and the fields and distance bytes that R186 to R190 name. A command
has no header in SRC. -/
def Datapath.latchHeader (dp : Datapath) (i : Instr) (hdr : List Byte) : Datapath :=
  let c := hdr.headD 0
  let b0 := hdr.dropLast.getLastD 0
  let b1 := hdr.getLastD 0
  match i with
  | .litf _ | .litShort _ => { dp with c := c }
  | .litLong _ => { dp with c := c, acc := 255 * (hdr.length - 2) }
  | .m1s _ _ | .m1l _ _ | .m2 _ _ _ => { dp with c := c, b1 := b1 }
  | .m3 _ _ _ =>
    { dp with
      c := c, lenBits := bits c 4 0, b0 := b0, b1 := b1
      acc := if bits c 4 0 = 0 then 255 * (hdr.length - 4) else dp.acc }
  | .m4 _ _ _ | .eos _ _ =>
    { dp with
      c := c, lenBits := bits c 2 0, hb := BitVec.ofNat 1 (bits c 3 3), b0 := b0, b1 := b1
      distBits := BitVec.ofNat 14 (distField b0 b1)
      acc := if bits c 2 0 = 0 then 255 * (hdr.length - 4) else dp.acc }
  | .init _ _ | .compress _ _ | .decompress _ _ | .reservedCmd3 _ _ => dp

/-- The state in which a fetched token runs: its `k` header bytes are consumed and latched (R43, R182). -/
def State.consumed (s : State) (i : Instr) (k : Nat) : State :=
  { s with dp := { s.dp.latchHeader i (s.stream.take k) with ip := s.dp.ip + k } }

/-- SRC ended inside a header: every byte up to SRC_LEN was read, and the command ends with InputOverrun (40_primitives.md R140, R182). -/
def State.overrun (s : State) : State := (s.setIp s.srcLen).terminate .inputOverrun

/-- The stream laid out in SRC at address 0, with the decoder at its first byte in state `st`, and the next turn left to the engine (log 14). -/
def State.placeStream (s : State) (st : DecState) (bytes : List Byte) : State :=
  { s with
    csr := { s.csr with srcBase := 0, srcLen := BitVec.ofNat 32 bytes.length }
    fsm := .runDecompress .fetch
    dp := { s.dp with ip := 0, sreg := st }
    mem := Memory.fill s.mem 0 (fun j => bytes.getD j 0) bytes.length
    raced := false
    flight := none
    host := .engine :: s.host }

/-- A command's CTRL write put before the host's other turns (log 14). -/
def State.placeCtrl (s : State) (w : Word) : State := { s with host := .csrw 0x08 w :: s.host }

end Sys2Proof.Machine
end

