-- ==== Sys2Proof/Machine/Start.lean ====
section
/-! DEFINITION. The first engine step of a command: the handshake of INIT, and the start checks of COMPRESS and DECOMPRESS
(43_commands.md R212, R213). -/

namespace Sys2Proof.Machine

/-- INIT: HANDSHAKE is compared with CORE_VERSION, and the command ends (R213). -/
def State.initStep (s : State) : State :=
  s.terminate (if s.csr.handshake = Config.coreVersion then .ok else .initializationError)

/-- The start checks, in the order of R212: INIT_OK, then the regions (R74, R75), then for COMPRESS the input limit. None means that every
check passes. -/
def State.startError (s : State) (compressing : Bool) : Option ErrorCode :=
  if s.csr.initOk = false then some .initializationError
  else if s.inSpace = false then some .invalidArgument
  else if s.overlap then some .invalidArgument
  else if compressing = true ∧ Config.maxInputLen < s.srcLen then some .inputTooLarge
  else none

/-- COMPRESS begins: `op <- 0, l <- n, t <- 0, p <- 0` (41_compressor.md R151). -/
def State.beginCompress (s : State) : State :=
  { s with dp := { s.dp with op := 0, l := s.srcLen, t := 0, p := 0 }, fsm := .runCompress .outer }

/-- DECOMPRESS begins: `ip <- 0, op <- 0, S <- START` (42_decompressor.md R181). -/
def State.beginDecompress (s : State) : State :=
  { s with dp := { s.dp with ip := 0, op := 0, sreg := .start }, fsm := .runDecompress .fetch }

/-- The check step of COMPRESS (R212, R214). -/
def State.checkCompress (s : State) : State :=
  match s.startError true with
  | some e => s.terminate e
  | none => s.beginCompress

/-- The check step of DECOMPRESS (R212, R215). -/
def State.checkDecompress (s : State) : State :=
  match s.startError false with
  | some e => s.terminate e
  | none => s.beginDecompress

end Sys2Proof.Machine
end

