-- ==== Sys2Proof/Machine/Engine.lean ====
section
/-! DEFINITION. One step of the engine (42_decompressor.md R182, 43_commands.md R220), and how a raced command ends (20_memory.md R85). -/

namespace Sys2Proof.Machine

/-- The results of a command that the host raced with are free values: any DST bytes, any code of R231, any OUT_LEN ≤ DST_CAP and any
IN_USED ≤ SRC_LEN (R85, I3; log 5). -/
def State.drawResults (s : State) (f : Flight) : State :=
  { s with
    csr := { s.csr with
      errcode := BitVec.ofNat 8 (Config.raceCode s.draws % 10)
      outLen := BitVec.ofNat 32 (Config.raceOutLen s.draws % (f.dstCap.toNat + 1))
      inUsed := BitVec.ofNat 32 (Config.raceInUsed s.draws % (f.srcLen.toNat + 1)) }
    mem := Memory.fill s.mem f.dstBase.toNat (Config.raceByte s.draws) f.dstCap.toNat
    draws := s.draws + 1 }

/-- A raced command ends with free results (R85; log 5). -/
def State.raceEnd (s : State) : State :=
  { s.drawResults s.endFlight with
    csr := { (s.drawResults s.endFlight).csr with done := true }
    fsm := .idle
    raced := false
    flight := some s.endFlight }

/-- `Fetch` and the token it reads (R182, R183). -/
def State.fetchStep (s : State) : Host.Outcome State Fault Refusal :=
  match decodeToken s.dp.sreg s.stream with
  | .ok (i, k) => exec i (s.consumed i k)
  | .error .inputOverrun => .next s.overrun

/-- An engine step past the start checks: the regions lie in the address space, and a raced command ends at once. -/
def State.running (s : State) (k : Host.Outcome State Fault Refusal) : Host.Outcome State Fault Refusal :=
  if s.inSpace then (if s.raced then .next s.raceEnd else k) else .fault .outsideAddressSpace

/-- One step of the engine; an IDLE engine waits (R42, R220, R264). -/
def State.engineStep (s : State) : Host.Outcome State Fault Refusal :=
  match s.fsm with
  | .idle => .next s
  | .runInit => .next s.initStep
  | .runCompress .check => .next s.checkCompress
  | .runCompress .outer => s.running (.next s.outerStep)
  | .runCompress .next => s.running (.next s.nextStep)
  | .runCompress .hit => s.running (.next s.hitStep.settle)
  | .runCompress .flush => s.running (.next s.flushStep.settle)
  | .runDecompress .check => .next s.checkDecompress
  | .runDecompress .fetch => s.running s.fetchStep

end Sys2Proof.Machine
end

