-- ==== Sys2Proof/Machine/HostPort.lean ====
section
/-! DEFINITION. What the outside world can do to the block: CSR accesses, memory accesses of the host, and the reset input
(10_state.md R22 to R40, 20_memory.md R65, R78, R85, 70_reset_and_hazards.md R261 to R263), and whose turn a step is. -/

namespace Sys2Proof.Machine

/-! ## CSR writes -/

/-- A write to a configuration register: ignored while BUSY = 1 (R40). -/
def State.setConfig (s : State) (csr : Csr) : State := if s.busy then s else { s with csr := csr }

/-- A write to STATUS: bit 1 clears DONE, the other bits are ignored (R28). -/
def State.writeStatus (s : State) (v : Word) : State := if v.getLsbD 1 then s.clearDone else s

/-- A CTRL write with START = 0: IE only while BUSY = 1, else CMD, IE and STRICT (R25, R26). -/
def State.writeCtrl (s : State) (v : Word) : State :=
  if s.busy then s.setIe (v.getLsbD 3) else s.storeCtrl (v.extractLsb' 1 2) (v.getLsbD 3) (v.getLsbD 4)

/-- A write to CTRL: a command if bit 0 is 1, else a store of the fields (R25, R110). -/
def State.ctrlWrite (s : State) (v : Word) : Host.Outcome State Fault Refusal :=
  match decodeCtrl v with
  | .ok i => exec i s
  | .error .noStart => .next (s.writeCtrl v)

/-- A 32-bit write at a window offset: read-only and reserved words ignore it, and an offset that is no register of the window is refused
(R22 to R40, R71). -/
def State.csrWrite (s : State) (off : Nat) (v : Word) : Host.Outcome State Fault Refusal :=
  match off with
  | 0x00 => .next s
  | 0x04 => .next s
  | 0x08 => s.ctrlWrite v
  | 0x0C => .next (s.writeStatus v)
  | 0x10 => .next s
  | 0x14 => .next (s.setConfig { s.csr with srcBase := v })
  | 0x18 => .next (s.setConfig { s.csr with srcLen := v })
  | 0x1C => .next (s.setConfig { s.csr with dstBase := v })
  | 0x20 => .next (s.setConfig { s.csr with dstCap := v })
  | 0x24 => .next (s.setConfig { s.csr with expLen := v })
  | 0x28 => .next s
  | 0x2C => .next s
  | 0x30 => .next (s.setConfig { s.csr with handshake := v })
  | 0x34 => .next s
  | 0x38 => .next s
  | 0x3C => .next s
  | _ => .refused (.csrAccess off)

/-- The host has observed DONE: if DONE = 1, every memory access of the command has happened, and none is in flight any more (R78). -/
def State.seeDone (s : State) : State := if s.csr.done then { s with flight := none } else s

/-- What the host learns from a read: STATUS, at 0x0C, shows it DONE. -/
def State.observe (s : State) (off : Nat) : State := if off = 0x0C then s.seeDone else s

/-- A 32-bit read at a window offset: no side effect on the block (R65). -/
def State.csrFetch (s : State) (off : Nat) : Host.Outcome State Fault Refusal :=
  match s.csrRead off with
  | some w => .next { s.observe off with rdata := w }
  | none => .refused (.csrAccess off)

/-! ## The host's own memory accesses -/

/-- A byte written to memory by the host. While BUSY = 1 a write to SRC or DST is a race: the command's result is then unspecified (R85, R269,
R270; log 5). -/
def State.storeByte (s : State) (a : Word) (v : Byte) : State :=
  { s with
    mem := Store.write s.mem a.toNat v
    raced := s.raced || (s.busy && (s.inSrc a.toNat || s.inDst a.toNat)) }

/-- The host writes a byte. After a command's end and before the host has read DONE = 1, a write to its SRC or DST is a race too, and makes its
results free at once (R78, R85; log 21). -/
def State.hostStore (s : State) (a : Word) (v : Byte) : State :=
  match s.flight with
  | none => s.storeByte a v
  | some f => if s.endedRace a.toNat then (s.storeByte a v).drawResults f else s.storeByte a v

/-- The host reads a byte. While a command is in flight a read of its DST returns any value (R78, R85, R270; log 5, log 21). -/
def State.hostLoad (s : State) (a : Word) : State :=
  if s.dstInFlight a.toNat then
    { s with rdata := (Config.raceRead s.draws).setWidth 32, draws := s.draws + 1 }
  else { s with rdata := (Store.read s.mem a.toNat).setWidth 32 }

/-! ## The reset input -/

/-- Memory after a reset: untouched while IDLE. While a command runs, the writes of the interrupted engine step up to a free point have
happened: none at 0, else those at DST offsets below `op + (k - 1)` (R263, I8; log 6). -/
def State.tornMem (s : State) : Memory :=
  if s.busy then
    match s.engineStep, Config.tearPoint s.draws with
    | .next s', k + 1 => Memory.splice s'.mem s.mem (s.dstAddr (s.dp.op + k))
    | _, _ => s.mem
  else s.mem

/-- The reset input is asserted: every register takes its reset value, no completion is recorded, and the host goes on with its turns
(R261, R263). -/
def State.resetInput (s : State) : State :=
  { State.reset with mem := s.tornMem, host := s.host, rdata := s.rdata, draws := s.draws + 1 }

/-! ## Whose turn it is -/

/-- One turn: the engine's when the host has none, else what the oldest turn of the host says. `wait DONE`, and a wait for the interrupt, let the
engine step until DONE = 1, or irq = 1, and then the host has observed DONE (R78, R79, R113, R220; log 2). -/
def State.turn (s : State) : Host.Outcome State Fault Refusal :=
  match s.host with
  | [] => s.engineStep
  | .waitDone :: rest => if s.csr.done then .next ({ s with host := rest } : State).seeDone else s.engineStep
  | .waitIrq :: rest => if s.irq then .next ({ s with host := rest } : State).seeDone else s.engineStep
  | .engine :: rest => ({ s with host := rest } : State).engineStep
  | .csrw off v :: rest => ({ s with host := rest } : State).csrWrite off v
  | .csrr off :: rest => ({ s with host := rest } : State).csrFetch off
  | .csrNarrow off _ :: _ => .refused (.csrAccess off)
  | .memw a v :: rest => .next (({ s with host := rest } : State).hostStore a v)
  | .memr a :: rest => .next (({ s with host := rest } : State).hostLoad a)
  | .reset :: rest => .next ({ s with host := rest } : State).resetInput

end Sys2Proof.Machine
end

