-- ==== Sys2Proof/Machine/Step.lean ====
section
/-! DEFINITION. The step of the machine, and how one instruction is put where the next step runs it. -/

namespace Sys2Proof.Machine

/-- One step: one turn of the host or of the engine (43_commands.md R220). -/
def step (s : State) : Host.Outcome State Fault Refusal := s.turn

/-- `s` with one opcode-table word where the next step runs it: a command as the host's next CTRL write, a token as the stream of a
DECOMPRESS that is at its `Fetch` (log 14). -/
def State.withFetchWord (s : State) (nbits w : Nat) : State :=
  match tablePlace nbits (w % 2 ^ nbits) with
  | .ctrl => s.placeCtrl (BitVec.ofNat 32 (w % 2 ^ nbits))
  | .token st => s.placeStream st (tableBytes nbits w)

end Sys2Proof.Machine
end

