-- ==== Sys2Proof/Safety.lean ====
section
/-! DEFINITION. What the statements say of the machine: the invariant that every step keeps, safe outcomes, and the conditions under which a
token completes. -/

namespace Sys2Proof.Machine

/-! ## The invariant -/

/-- Memory and the hash table are in canonical form, memory lists only addresses of the 2^32-byte space (R61), and H only indices below 16384
with offsets below BLOCK_MAX (R50). -/
def State.storesOk (s : State) : Bool :=
  Memory.wf s.mem && Store.below Config.addrSpace s.mem &&
    (Store.wf s.tbl && Store.below Config.hashEntries s.tbl && s.tbl.all fun e => decide (e.2.toNat < Config.blockMax))

/-- ERRCODE holds one of the codes 0 to 9 (R231). -/
def State.codeOk (s : State) : Bool := decide (s.csr.errcode.toNat ≤ 9)

/-- While BUSY = 1: DONE and ERRCODE are 0 (R219), and FSM is the RUN_ state of CMD (R42). While BUSY = 0 no race is open. -/
def State.busyOk (s : State) : Bool :=
  match s.fsm with
  | .idle => !s.raced
  | .runInit => !s.csr.done && decide (s.csr.errcode = 0) && decide (s.csr.cmd = 0)
  | .runCompress _ => !s.csr.done && decide (s.csr.errcode = 0) && decide (s.csr.cmd = 1)
  | .runDecompress _ => !s.csr.done && decide (s.csr.errcode = 0) && decide (s.csr.cmd = 2)

/-- What the start checks of R212 established for the running command, and `op ≤ DST_CAP` (R45). -/
def State.startedOk (s : State) : Bool :=
  s.csr.initOk && s.inSpace && !s.overlap && decide (s.dp.op ≤ s.dstCap)

/-- A running block: it lies in SRC, `ip_end` is its probe limit, the pending run starts in it, and no slot of H names a position at or past
`bound` (R155, R156). -/
def State.blockOk (s : State) (bound : Nat) : Bool :=
  decide (s.dp.p = s.dp.blk) && decide (s.dp.p + s.dp.l = s.srcLen) && decide (s.dp.ll ≤ s.dp.l) &&
    decide (s.dp.ll ≤ Config.blockMax) && decide (Config.tail < s.dp.ll) &&
    decide (s.dp.ipEnd = s.dp.blk + s.dp.ll - Config.tail) && decide (s.dp.ti ≤ s.dp.ii) &&
    decide (s.dp.blk ≤ s.dp.ii) && decide (s.dp.ii ≤ s.dp.ip) && decide (s.dp.ii ≤ s.dp.blk + s.dp.ll) &&
    decide (s.dp.blk < s.dp.ip) && s.tbl.all fun e => decide (s.dp.blk + e.2.toNat < bound)

/-- Before `Patch2` can run there is a copy token to patch: `op` is 0 or at least 2 (R139). -/
def State.patchOk (s : State) : Bool := decide (s.dp.op = 0) || decide (2 ≤ s.dp.op)

/-- Before the first token, the pending run is too long for `Patch2`: it has at least 4 bytes (R133, R155). -/
def State.firstRunOk (s : State) : Bool := decide (0 < s.dp.op) || decide (s.dp.ii + 4 ≤ s.dp.ip + s.dp.ti)

/-- What every stage of a COMPRESS past its checks keeps: the checks' facts, the input limit, and a token to patch. -/
def State.compressOk (s : State) : Bool := s.startedOk && decide (s.srcLen ≤ Config.maxInputLen) && s.patchOk

/-- What holds at each stage of a running command past its checks. -/
def State.stageOk (s : State) : Bool :=
  match s.fsm with
  | .idle | .runInit | .runCompress .check | .runDecompress .check => true
  | .runCompress .outer =>
    s.compressOk && decide (s.dp.p + s.dp.l = s.srcLen) && decide (s.dp.t ≤ s.dp.p)
  | .runCompress .next => s.compressOk && s.blockOk s.dp.ip && s.firstRunOk
  | .runCompress .hit =>
    s.compressOk && s.blockOk (s.dp.ip + 1) && s.firstRunOk && decide (s.dp.ip < s.dp.ipEnd) &&
      decide (s.dp.blk ≤ s.dp.mPos) && decide (s.dp.mPos < s.dp.ip)
  | .runCompress .flush => s.compressOk && decide (s.dp.t ≤ s.srcLen)
  | .runDecompress .fetch => s.startedOk && decide (s.dp.ip ≤ s.srcLen)

/-- A command that ended unseen is the last one: the block is IDLE. If it ran, its DST lies in the address space (R74, R78). -/
def State.flightOk (s : State) : Bool :=
  match s.flight with
  | none => true
  | some f => decide (s.fsm = .idle) && (!f.ran || decide (f.dstBase.toNat + f.dstCap.toNat ≤ Config.addrSpace))

/-- The invariant of the machine. -/
abbrev State.Inv (s : State) : Prop :=
  s.storesOk = true ∧ s.codeOk = true ∧ s.busyOk = true ∧ s.stageOk = true ∧ s.flightOk = true

/-! ## Outcomes -/

/-- The step does not fault. A refused CSR access (R71) is safe. -/
def Safe (o : Host.Outcome State Fault Refusal) : Prop := ∀ r, o ≠ .fault r

/-- `k` steps lead from `s` to `t`. -/
def Reaches (k : Nat) (s t : State) : Prop := Sys2Proof.core.run k s = .next t

/-! ## Conditions of the statements -/

/-- The decoder is at a token of an undisturbed DECOMPRESS. -/
abbrev State.Decoding (s : State) : Prop :=
  s.Inv ∧ s.fsm = .runDecompress .fetch ∧ s.raced = false

/-- An undisturbed COMPRESS is at the given stage, and the engine takes the next step. -/
abbrev State.Compressing (s : State) (ph : CompressPhase) : Prop :=
  s.Inv ∧ s.fsm = .runCompress ph ∧ s.raced = false ∧ s.host = []

/-- The block is IDLE and passes the start checks of R212 but for the input limit, and the host has no turn left. -/
abbrev State.Ready (s : State) : Prop :=
  s.Inv ∧ s.fsm = .idle ∧ s.host = [] ∧ s.csr.initOk = true ∧ s.inSpace = true ∧ s.overlap = false

/-! ## What the statements say of a next state -/

/-- The CSR file with the fields an accepted START writes (R211). -/
def Csr.started (c : Csr) (cmd : BitVec 2) (ie strict : Bool) : Csr :=
  { c with cmd := cmd, ie := ie, strict := strict, done := false, errcode := 0 }

/-- The CSR file with the fields the end of a command writes, INIT_OK apart (R238). -/
def Csr.ended (c : Csr) (code : Byte) (outLen inUsed : Nat) : Csr :=
  { c with errcode := code, outLen := BitVec.ofNat 32 outLen, inUsed := BitVec.ofNat 32 inUsed, done := true }

/-- The state in which a command has ended with a code and two counts, INIT_OK unchanged, unseen by the host (R78, R217, R238). -/
def State.endedWith (s : State) (code : Byte) (outLen inUsed : Nat) : State :=
  { s with csr := s.csr.ended code outLen inUsed, fsm := .idle, raced := false, flight := some s.endFlight }

/-- Memory `m` reads as `s`'s at every address but DST offsets `lo ≤ j < hi`. -/
def State.OnlyDst (s : State) (m : Memory) (lo hi : Nat) : Prop :=
  ∀ a, (∀ j, lo ≤ j → j < hi → a ≠ s.dstAddr j) → Store.read m a = Store.read s.mem a

/-- `m` is memory after a copy of `len` bytes at distance `dist` from `op` on: each byte equals the one `dist` before it, and no other address
changes but DST offsets below `hi` (R141). -/
def State.Copied (s : State) (m : Memory) (len dist hi : Nat) : Prop :=
  Memory.wf m = true ∧
    (∀ j, j < len → Store.read m (s.dstAddr (s.dp.op + j)) = Store.read m (s.dstAddr (s.dp.op + j - dist))) ∧
    s.OnlyDst m s.dp.op hi

/-- What a literal token of `n` bytes does in every case, `st` being the decoder state it leaves (R142, R184, R185). -/
def LiteralOutcome (i : Instr) (n : Nat) (st : DecState) : Prop :=
  ∀ s : State, s.Decoding →
    (s.dstCap < s.dp.op + n → exec i s = .next ((s.latchCount n).endedWith 4 s.dp.op s.dp.ip)) ∧
    (s.dp.op + n ≤ s.dstCap → s.srcLen < s.dp.ip + n →
      exec i s = .next ((s.latchCount n).endedWith 5 s.dp.op s.dp.ip)) ∧
    (s.dp.op + n ≤ s.dstCap → s.dp.ip + n ≤ s.srcLen →
      ∃ m, exec i s = .next { s with
          mem := m, dp := { s.dp with ip := s.dp.ip + n, op := s.dp.op + n, n := n, sreg := st } } ∧
        Memory.wf m = true ∧
        (∀ j, j < n → Store.read m (s.dstAddr (s.dp.op + j)) = s.src (s.dp.ip + j)) ∧
        s.OnlyDst m s.dp.op (s.dp.op + n))

/-- What a copy token does in every case: the two checks of the copy, the two of its trailing literals, and the whole token
(R141, R142, R192, R193). -/
def CopyOutcome (i : Instr) (len dist : Nat) (t : BitVec 2) : Prop :=
  ∀ s : State, s.Decoding → 1 ≤ dist →
    (s.dp.op < dist → exec i s = .next ((s.latchCopy len dist t).endedWith 6 s.dp.op s.dp.ip)) ∧
    (dist ≤ s.dp.op → s.dstCap < s.dp.op + len →
      exec i s = .next ((s.latchCopy len dist t).endedWith 4 s.dp.op s.dp.ip)) ∧
    (dist ≤ s.dp.op → s.dp.op + len ≤ s.dstCap → s.dstCap < s.dp.op + len + t.toNat →
      ∃ m, exec i s = .next (({ s with
          mem := m, dp := { s.dp with op := s.dp.op + len, len := len, dist := dist, trail := t } } : State).endedWith
            4 (s.dp.op + len) s.dp.ip) ∧ s.Copied m len dist (s.dp.op + len)) ∧
    (dist ≤ s.dp.op → s.dp.op + len + t.toNat ≤ s.dstCap → s.srcLen < s.dp.ip + t.toNat →
      ∃ m, exec i s = .next (({ s with
          mem := m, dp := { s.dp with op := s.dp.op + len, len := len, dist := dist, trail := t } } : State).endedWith
            5 (s.dp.op + len) s.dp.ip) ∧ s.Copied m len dist (s.dp.op + len)) ∧
    (dist ≤ s.dp.op → s.dp.op + len + t.toNat ≤ s.dstCap → s.dp.ip + t.toNat ≤ s.srcLen →
      ∃ m, exec i s = .next { s with
          mem := m
          dp := { s.dp with
            ip := s.dp.ip + t.toNat, op := s.dp.op + len + t.toNat
            len := len, dist := dist, trail := t, sreg := .trail t } } ∧
        s.Copied m len dist (s.dp.op + len + t.toNat) ∧
        ∀ j, j < t.toNat → Store.read m (s.dstAddr (s.dp.op + len + j)) = s.src (s.dp.ip + j))

/-- DST holds the bytes `bs` from offset `i` on. -/
def State.Holds (s : State) (i : Nat) (bs : List Byte) : Prop := ∀ j, (h : j < bs.length) → s.dst (i + j) = bs[j]

/-- The header bytes before a run of `n` literals inside a block: none up to 3 (`Patch2` stores the count), `n - 3` up to 18, else the long form
(R133, R165). -/
def runHeader (n : Nat) : List Byte :=
  if n ≤ 3 then [] else if n ≤ 18 then [BitVec.ofNat 8 (n - 3)] else 0 :: extBytes (n - 18)

/-- The header bytes before the final run of `n` literals, with `op` bytes written before it: `17 + n` for a first run of 1 to 238 (R165). -/
def finalHeader (op n : Nat) : List Byte :=
  if op = 0 ∧ 1 ≤ n ∧ n ≤ 238 then [BitVec.ofNat 8 (17 + n)] else runHeader n

/-- The host breaks R85 with a write to a command that ran and has ended unseen (R78; log 21). -/
abbrev State.RacesEnded (s : State) : Prop :=
  ∃ a v rest f, s.host = .memw a v :: rest ∧ s.flight = some f ∧ f.ran = true ∧ (f.inSrc a.toNat = true ∨ f.inDst a.toNat = true)

/-- A token's bytes with T = 0 after `Patch2(t)`: `t` is set in the second-to-last one (R139). -/
def patchBytes (bs : List Byte) (t : BitVec 2) : List Byte :=
  bs.set (bs.length - 2) (bs.getD (bs.length - 2) 0 ||| t.setWidth 8)

end Sys2Proof.Machine
end

