-- ==== Sys2Proof/Certificates/Slice0/Obligations.lean ====
section
/-! DEFINITION. The statements for the provers, file by file of the spec. A next state written out in full is its own frame: every field it does
not name is unchanged. -/

open Sys2Proof Sys2Proof.Machine

/-! ## The encoding of tokens and commands (30_encoding.md) -/

/-- R94 to R106: every well-formed token decodes from its encoding, in every decoder state it can be read in. -/
def Obligations.TokenDecodeOfEncode : Prop :=
  ∀ (i : Instr) (st : DecState) (rest : List Byte), i.wf = true → i.readIn st = true →
    decodeToken st (encode i ++ rest) = .ok (i, (encode i).length)

/-- R94 to R106: what the decoder reads is well formed, may be read in that state, and was spelled as the encoder spells it. -/
def Obligations.TokenHasOneSpelling : Prop :=
  ∀ (st : DecState) (bs : List Byte) (i : Instr) (k : Nat), decodeToken st bs = .ok (i, k) →
    i.wf = true ∧ i.readIn st = true ∧ k = (encode i).length ∧ bs.take k = encode i

/-- R110: each command has a CTRL value that asks for it, whatever bits 31:5 hold, laid out in little-endian lanes. -/
def Obligations.CommandDecodeOfEncode : Prop :=
  ∀ (i : Instr), i.isCommand = true →
    ∃ w : Word, encodeCtrl i = some w ∧ encode i = wordBytes w ∧ ∀ v : Word, decodeCtrl (w ||| (v <<< 5)) = .ok i

/-- R92, R140: a stream that ends inside a token's header overruns. -/
def Obligations.HeaderPrefixOverruns : Prop :=
  ∀ (i : Instr) (st : DecState) (j : Nat), i.wf = true → i.readIn st = true → j < (encode i).length →
    decodeToken st ((encode i).take j) = .error .inputOverrun

/-- R93, R183: the decode map, row by row. -/
def Obligations.DecodeMapTable : Prop :=
  ∀ c : Byte,
    (c.toNat ≤ 0x0F → kindOf .start c = .litRun ∧ kindOf (.trail 0) c = .litRun ∧
      (∀ t, t ≠ 0 → kindOf (.trail t) c = .m1s) ∧ kindOf .run c = .m1l) ∧
    (0x10 ≤ c.toNat → c.toNat ≤ 0x11 → ∀ st, kindOf st c = .m4OrEos) ∧
    (0x12 ≤ c.toNat → kindOf .start c = .litFirst) ∧
    (0x12 ≤ c.toNat → c.toNat ≤ 0x1F → ∀ st, st ≠ .start → kindOf st c = .m4OrEos) ∧
    (0x20 ≤ c.toNat → c.toNat ≤ 0x3F → ∀ st, st ≠ .start → kindOf st c = .m3) ∧
    (0x40 ≤ c.toNat → ∀ st, st ≠ .start → kindOf st c = .m2)

/-- R108: no control byte is illegal in any state: each begins some token. -/
def Obligations.EveryControlByteDecodes : Prop :=
  ∀ (st : DecState) (c : Byte), ∃ (more : List Byte) (i : Instr),
    ∀ rest, decodeToken st (c :: (more ++ rest)) = .ok (i, 1 + more.length)

/-- R94 to R103, R110, bit by bit: words written out from the spec's examples. -/
def Obligations.SpecWordsDecode : Prop :=
  decodeToken .start [0x1B] = .ok (.litf 10, 1) ∧
  decodeToken (.trail 3) [0x08, 0x00] = .ok (.m1s 3 0, 2) ∧
  decodeToken .run [0x0C, 0xFF] = .ok (.m1l 3072 0, 2) ∧
  decodeToken (.trail 0) [0x62, 0x00] = .ok (.m2 4 1 2, 2) ∧
  decodeToken (.trail 0) [0x20, 0x2B, 0x10, 0x00] = .ok (.m3 76 5 0, 4) ∧
  decodeToken (.trail 0) [0x1A, 0xFC, 0xFF] = .ok (.m4 4 49151 0, 3) ∧
  decodeToken (.trail 0) [0x00, 0x00, 0x05] = .ok (.litLong 278, 3) ∧
  decodeToken (.trail 0) [0x02] = .ok (.litShort 5, 1) ∧
  decodeToken .start [0x11, 0x00, 0x00] = .ok (.eos 3 0, 3) ∧
  decodeCtrl 0x11 = .ok (.init false true) ∧ decodeCtrl 0x1B = .ok (.compress true true) ∧
  decodeCtrl 0x05 = .ok (.decompress false false) ∧ decodeCtrl 0x17 = .ok (.reservedCmd3 false true)

/-! ## Primitives (40_primitives.md) -/

/-- R146: what the compressor emits, the decoder reads back: extension fields, M2, M3 and M4 before and after `Patch2`, and the literal
headers. -/
def Obligations.EmittedTokensDecode : Prop :=
  (∀ (base v : Nat) (rest : List Byte), 1 ≤ v →
    decodeExt base (extBytes v ++ rest) = .ok (base + v, (extBytes v).length)) ∧
  (∀ (st : DecState) (len dist : Nat) (t : BitVec 2) (rest : List Byte), st ≠ .start →
    (3 ≤ len → len ≤ 8 → 1 ≤ dist → dist ≤ 2048 →
      decodeToken st (patchBytes (m2Bytes len dist) t ++ rest) = .ok (.m2 len dist t, (m2Bytes len dist).length)) ∧
    (3 ≤ len → 1 ≤ dist → dist ≤ 16384 →
      decodeToken st (patchBytes (m3Bytes len dist) t ++ rest) = .ok (.m3 len dist t, (m3Bytes len dist).length)) ∧
    (3 ≤ len → 16385 ≤ dist → dist ≤ 49151 →
      decodeToken st (patchBytes (m4Bytes len dist) t ++ rest) = .ok (.m4 len dist t, (m4Bytes len dist).length))) ∧
  (∀ (n : Nat) (rest : List Byte), 4 ≤ n →
    decodeToken (.trail 0) (litHeader n ++ rest) =
      .ok (if n ≤ 18 then .litShort n else .litLong n, (litHeader n).length)) ∧
  (∀ (n : Nat) (rest : List Byte), 1 ≤ n → n ≤ 238 →
    decodeToken .start (BitVec.ofNat 8 (17 + n) :: rest) = .ok (.litf n, 1))

/-- R162 with R135 to R137: the bytes emitted for a match are the encoding of the token the choice rule picks, with T = 0. -/
def Obligations.TokenChoiceEncodes : Prop :=
  ∀ len dist : Nat, 4 ≤ len → 1 ≤ dist → dist ≤ 49151 →
    matchBytes len dist =
      encode (if len ≤ 8 ∧ dist ≤ 2048 then .m2 len dist 0 else if dist ≤ 16384 then .m3 len dist 0 else .m4 len dist 0)

/-- R142, and with it R184 and R185: in every case, what a literal token does. The marks `raced` and `flight`
that the end of a command sets are the model's own (log 5, log 21, DESIGN CHOICE). -/
def Obligations.LiteralTokens : Prop :=
  ∀ n : Nat,
    LiteralOutcome (.litf n) n (if n < 4 then .trail (BitVec.ofNat 2 n) else .run) ∧
    LiteralOutcome (.litShort n) n .run ∧ LiteralOutcome (.litLong n) n .run

/-- R192 and R193: in every case, what a copy token does. The marks `raced` and `flight`
that the end of a command sets are the model's own (log 5, log 21, DESIGN CHOICE). -/
def Obligations.CopyTokens : Prop :=
  ∀ (len dist : Nat) (t : BitVec 2),
    CopyOutcome (.m1s dist t) 2 dist t ∧ CopyOutcome (.m1l dist t) 3 dist t ∧ CopyOutcome (.m2 len dist t) len dist t ∧
    CopyOutcome (.m3 len dist t) len dist t ∧ CopyOutcome (.m4 len dist t) len dist t

/-- R141: a copy that overlaps its source repeats the last `dist` bytes over and over. -/
def Obligations.OverlappingCopyRepeats : Prop :=
  ∀ (s : State) (len dist : Nat), s.Decoding → 1 ≤ dist → dist ≤ s.dp.op → s.dp.op + len ≤ s.dstCap →
    ∃ s', exec (.m3 len dist 0) s = .next s' ∧
      ∀ j, j < len → s'.dst (s.dp.op + j) = s.dst (s.dp.op - dist + j % dist)

/-- R148: where DST holds a prefix of `x` and `x` repeats itself `dist` back for `len` bytes, the copy extends the prefix. -/
def Obligations.CopyReproducesMatch : Prop :=
  ∀ (s : State) (x : Nat → Byte) (len dist : Nat), s.Decoding → 1 ≤ dist → dist ≤ s.dp.op → s.dp.op + len ≤ s.dstCap →
    (∀ j, j < s.dp.op → s.dst j = x j) → (∀ k, k < len → x (s.dp.op - dist + k) = x (s.dp.op + k)) →
    ∃ s', exec (.m4 len dist 0) s = .next s' ∧ s'.dp.op = s.dp.op + len ∧ ∀ j, j < s.dp.op + len → s'.dst j = x j

/-- R145: the hash of the five words of the spec's table. -/
def Obligations.HashTableValues : Prop :=
  (hashIndex 0x61616161).toNat = 10077 ∧ (hashIndex 0x64636261).toNat = 1917 ∧ (hashIndex 0x6C6C6548).toNat = 7085 ∧
  (hashIndex 0x00000000).toNat = 0 ∧ (hashIndex 0xFFFFFFFF).toNat = 14838 ∧
  ∀ dv : BitVec 32, (hashIndex dv).toNat = dv.toNat * 0x1824429D % 2 ^ 32 / 2 ^ 18

/-! ## The token loop (42_decompressor.md) -/

/-- R182: at a token the step consumes the header and runs the decoded instruction; nothing else changes before it runs but the token registers. -/
def Obligations.StepRunsDecodedToken : Prop :=
  ∀ (s : State) (i : Instr) (k : Nat), s.Decoding → decodeToken s.dp.sreg s.stream = .ok (i, k) →
    (s.host = [] → step s = exec i (s.consumed i k)) ∧
    (∀ rest, s.host = .engine :: rest → step s = exec i (({ s with host := rest } : State).consumed i k)) ∧
    s.consumed i k = { s with dp := { s.dp.latchHeader i (s.stream.take k) with ip := s.dp.ip + k } } ∧
    (s.consumed i k).dp.op = s.dp.op ∧ (s.consumed i k).dp.sreg = s.dp.sreg

/-- R92, R182: where the stream begins with the encoding of a token that may be read there, the step runs exactly it. -/
def Obligations.StepRunsEncodedToken : Prop :=
  ∀ (s : State) (i : Instr) (rest : List Byte), s.Decoding → s.host = [] → i.wf = true → i.readIn s.dp.sreg = true →
    s.stream = encode i ++ rest → step s = exec i (s.consumed i (encode i).length)

/-- R140, R182: where SRC ends inside a header or at a token boundary, the command ends with InputOverrun, with every SRC byte consumed. That the
token registers (`c`, the accumulator, `L`, `b0` and the others) keep their old values is the model's choice (log 15, DESIGN CHOICE), which no
CSR and no byte of memory depends on. The marks `raced` and `flight`
that the end of a command sets are the model's own (log 5, log 21, DESIGN CHOICE). -/
def Obligations.TruncatedHeaderEndsCommand : Prop :=
  ∀ s : State, s.Decoding → s.host = [] → decodeToken s.dp.sreg s.stream = .error .inputOverrun →
    step s = .next ((s.setIp s.srcLen).endedWith 5 s.dp.op s.srcLen)

/-- R191: the end marker ends the command, with TrailingInput, LengthMismatch or OK in that order of checks. The marks `raced` and `flight`
that the end of a command sets are the model's own (log 5, log 21, DESIGN CHOICE). -/
def Obligations.EndMarker : Prop :=
  ∀ (s : State) (len : Nat) (t : BitVec 2), s.Decoding →
    exec (.eos len t) s = .next (({ s with dp := { s.dp with len := len } } : State).endedWith
      (if s.dp.ip < s.srcLen then 7
        else if s.csr.strict = true ∧ s.dp.op ≠ s.csr.expLen.toNat then 8 else 0) s.dp.op s.dp.ip)

/-- R194: every DECOMPRESS ends. The bound counts the model's steps, one token a step, which is the model's choice (log 1, DESIGN CHOICE): at
most one for each byte of SRC left, and one more. That a raced command ends at its next step is the model's choice too (log 5). -/
def Obligations.DecompressEnds : Prop :=
  ∀ s : State, s.Inv → s.fsm = .runDecompress .fetch → s.host = [] →
    ∃ k t, k ≤ s.srcLen - s.dp.ip + 1 ∧ Reaches k s t ∧ t.fsm = .idle ∧ t.csr.done = true

/-- R198: where a DECOMPRESS of a stream ends OK, a DECOMPRESS of any proper prefix of it, with the same DST, ends with InputOverrun. -/
def Obligations.TruncationIsInputOverrun : Prop :=
  ∀ (s s1 t : State) (j : Nat) (ie strict : Bool), s.Ready → exec (.decompress ie strict) s = .next s1 → Reaches j s1 t →
    t.fsm = .idle → t.csr.errcode = 0 → ∀ n : Nat, n < s.srcLen →
      ∃ u1 j' t', exec (.decompress ie strict) { s with csr := { s.csr with srcLen := BitVec.ofNat 32 n } } = .next u1 ∧
        Reaches j' u1 t' ∧ t'.fsm = .idle ∧ t'.csr.done = true ∧ t'.csr.errcode = 5

/-- R94, R103, R215: a whole DECOMPRESS of a stream `17+n, b1 … bn, 11 00 00` writes the n bytes and ends OK. That it takes three engine steps
(the checks and two tokens) is the model's choice of steps (log 1, DESIGN CHOICE). -/
def Obligations.FirstLiteralStreamDecompresses : Prop :=
  ∀ (s : State) (n : Nat) (ie : Bool), s.Ready → 1 ≤ n → n ≤ 238 → s.srcLen = n + 4 → n ≤ s.dstCap → s.csr.expLen.toNat = n →
    s.src 0 = BitVec.ofNat 8 (17 + n) → s.src (n + 1) = 0x11 → s.src (n + 2) = 0x00 → s.src (n + 3) = 0x00 →
    ∃ s1 t, exec (.decompress ie true) s = .next s1 ∧ Reaches 3 s1 t ∧ t.fsm = .idle ∧
      t.csr = (s.csr.started 2 ie true).ended 0 n (n + 4) ∧
      (∀ j, j < n → t.dst j = s.src (1 + j)) ∧ s.OnlyDst t.mem 0 n

/-! ## The compressor (41_compressor.md) -/

/-- R153, R165, R166: a whole COMPRESS of 1 to 31 bytes writes LIT_FIRST, the bytes, and the end marker. That it takes three engine steps (the
checks, the outer loop and the flush) is the model's choice of steps (log 1, DESIGN CHOICE). -/
def Obligations.ShortInputCompresses : Prop :=
  ∀ (s : State) (n : Nat) (ie strict : Bool), s.Ready → s.srcLen = n → 1 ≤ n → n ≤ 31 → n + 4 ≤ s.dstCap →
    ∃ s1 t, exec (.compress ie strict) s = .next s1 ∧ Reaches 3 s1 t ∧ t.fsm = .idle ∧
      t.csr = (s.csr.started 1 ie strict).ended 0 (n + 4) n ∧
      t.dst 0 = BitVec.ofNat 8 (17 + n) ∧ (∀ j, j < n → t.dst (1 + j) = s.src j) ∧
      t.dst (n + 1) = 0x11 ∧ t.dst (n + 2) = 0x00 ∧ t.dst (n + 3) = 0x00 ∧ s.OnlyDst t.mem 0 (n + 4)

/-- R152, R154, R155: the head of the outer loop starts a block with every slot of H zero and the first probe in place, or goes on to the
flush; `ll` is written by every pass that has more than 20 bytes left. -/
def Obligations.BlockStart : Prop :=
  ∀ s : State, s.Compressing .outer →
    (20 < s.dp.l → 32 ≤ s.dp.t + min s.dp.l 49152 →
      ∃ t, step s = .next t ∧ t.fsm = .runCompress .next ∧ t.mem = s.mem ∧ t.csr = s.csr ∧ (∀ k, Store.read t.tbl k = 0) ∧
        t.dp = { s.dp with
          blk := s.dp.p, ll := min s.dp.l 49152, ipEnd := s.dp.p + min s.dp.l 49152 - 20, ii := s.dp.p, ti := s.dp.t
          ip := if s.dp.t < 4 then s.dp.p + 5 - s.dp.t else s.dp.p + 1 }) ∧
    (s.dp.l ≤ 20 ∨ s.dp.t + min s.dp.l 49152 < 32 →
      step s = .next { s with
        dp := { s.dp with t := s.dp.t + s.dp.l, ll := if 20 < s.dp.l then min s.dp.l 49152 else s.dp.ll }
        fsm := .runCompress .flush })

/-- R156, R157: a probe reads the one slot of its hash, then overwrites it; four unequal bytes step on by the literal step, four equal ones make a
match. R68, R144: the probed word has the byte at the lowest offset in its low bits. That the literal step is not clamped, so
that it can carry `ip` past SRC_LEN against R43's bound, is the model's choice (log 22, DESIGN CHOICE). -/
def Obligations.ProbeStep : Prop :=
  (∀ (s : State) (p : Nat), (s.le32 p).toNat =
    (s.src p).toNat + 2 ^ 8 * (s.src (p + 1)).toNat + 2 ^ 16 * (s.src (p + 2)).toNat + 2 ^ 24 * (s.src (p + 3)).toNat) ∧
  ∀ s : State, s.Compressing .next → s.dp.ip < s.dp.ipEnd →
    ∃ t, step s = .next t ∧ t.mem = s.mem ∧ t.csr = s.csr ∧
      (∀ k, Store.read t.tbl k =
        if k = (hashIndex (s.le32 s.dp.ip)).toNat then BitVec.ofNat 16 (s.dp.ip - s.dp.blk) else Store.read s.tbl k) ∧
      (∀ c, c = s.dp.blk + (Store.read s.tbl (hashIndex (s.le32 s.dp.ip)).toNat).toNat → c < s.dp.ip ∧
        (s.le32 c ≠ s.le32 s.dp.ip → t.fsm = .runCompress .next ∧ t.dp = { s.dp with
          ip := s.dp.ip + 1 + (s.dp.ip - s.dp.ii) / 32
          dv := s.le32 s.dp.ip, idx := hashIndex (s.le32 s.dp.ip), mPos := c }) ∧
        (s.le32 c = s.le32 s.dp.ip → t.fsm = .runCompress .hit ∧ t.dp = { s.dp with
          dv := s.le32 s.dp.ip, idx := hashIndex (s.le32 s.dp.ip), mPos := c }))

/-- R158, R164: past the probe limit the block ends, and its pending literals are carried on. -/
def Obligations.BlockEnd : Prop :=
  ∀ s : State, s.Compressing .next → s.dp.ipEnd ≤ s.dp.ip →
    step s = .next { s with
      dp := { s.dp with
        t := s.dp.blk + s.dp.ll - (s.dp.ii - s.dp.ti), p := s.dp.p + s.dp.ll, l := s.dp.l - s.dp.ll }
      fsm := .runCompress .outer }

/-- R160: the extension finds the longest match up to the cap, and the cap is the first one at or past the probe limit. -/
def Obligations.MatchExtension : Prop :=
  ∀ s : State, s.Compressing .hit → s.le32 s.dp.mPos = s.le32 s.dp.ip →
    ∀ e, e = s.extendMatch →
      e.dp.limit = 4 + 8 * e.dp.k ∧ 1 ≤ e.dp.k ∧ s.dp.ipEnd ≤ s.dp.ip + e.dp.limit ∧
      (∀ k, 1 ≤ k → s.dp.ipEnd ≤ s.dp.ip + 4 + 8 * k → e.dp.k ≤ k) ∧
      4 ≤ e.dp.mLen ∧ e.dp.mLen ≤ e.dp.limit ∧
      (∀ k, k < e.dp.mLen → s.src (s.dp.ip + k) = s.src (s.dp.mPos + k)) ∧
      (e.dp.mLen = e.dp.limit ∨ s.src (s.dp.ip + e.dp.mLen) ≠ s.src (s.dp.mPos + e.dp.mLen)) ∧
      s.dp.ip + e.dp.mLen ≤ s.dp.blk + s.dp.ll

/-- R159, R162, R163, R167: a match emits its pending literals, the run's header or `Patch2` before them, and its token. Where these fit DST, they
stand there in that order, op has moved past them, ip and ii past the match, and H and the CSRs are untouched; where they do not, the command
ends with BufferOverflow. `n` is the length of the pending run, which starts at `ii - ti`. -/
def Obligations.MatchStep : Prop :=
  ∀ (s : State) (n len dist : Nat), s.Compressing .hit →
    n = s.dp.ip - (s.dp.ii - s.dp.ti) → len = s.extendMatch.dp.mLen → dist = s.dp.ip - s.dp.mPos →
    (s.dp.op + (runHeader n).length + n + (matchBytes len dist).length ≤ s.dstCap →
      ∃ m t, step s = .next t ∧
        t = { s with
          mem := m
          fsm := .runCompress .next
          dp := { s.extendMatch.dp with
            op := s.dp.op + (runHeader n).length + n + (matchBytes len dist).length
            t := n, ti := 0, ip := s.dp.ip + len, ii := s.dp.ip + len, mOff := dist } } ∧
        t.Holds s.dp.op (runHeader n) ∧
        (∀ j, j < n → t.dst (s.dp.op + (runHeader n).length + j) = s.src (s.dp.ii - s.dp.ti + j)) ∧
        t.Holds (s.dp.op + (runHeader n).length + n) (matchBytes len dist) ∧
        (1 ≤ n → n ≤ 3 → 2 ≤ s.dp.op ∧ t.dst (s.dp.op - 2) = s.dst (s.dp.op - 2) ||| BitVec.ofNat 8 n) ∧
        (∀ j, j < s.dp.op → n = 0 ∨ 3 < n ∨ j ≠ s.dp.op - 2 → t.dst j = s.dst j)) ∧
    (s.dstCap < s.dp.op + (runHeader n).length + n + (matchBytes len dist).length →
      ∃ t, step s = .next t ∧ t.fsm = .idle ∧ t.tbl = s.tbl ∧ t.csr = s.csr.ended 3 s.dstCap 0)

/-- R161: the distance of every match is one that a token can encode. -/
def Obligations.MatchDistanceBound : Prop :=
  ∀ s : State, s.Inv → s.fsm = .runCompress .hit →
    1 ≤ s.dp.ip - s.dp.mPos ∧ s.dp.ip - s.dp.mPos ≤ s.dp.ll - 20 - 1 ∧ s.dp.ll - 20 - 1 ≤ 49131 ∧ 49131 < 49151

/-- R165, R166, R167: the flush ends the command. Where the pending run, its header or `Patch2`, and the end marker fit DST, they stand there in that
order and the code is OK; where they do not, it is BufferOverflow. The marks `raced` and `flight`
that the end of a command sets are the model's own (log 5, log 21, DESIGN CHOICE). -/
def Obligations.FlushStep : Prop :=
  ∀ (s : State) (n : Nat) (hdr : List Byte), s.Compressing .flush → n = s.dp.t → hdr = finalHeader s.dp.op n →
    (s.dp.op + hdr.length + n + 3 ≤ s.dstCap →
      ∃ m t, step s = .next t ∧
        t = ({ s with mem := m, dp := { s.dp with op := s.dp.op + hdr.length + n + 3 } } : State).endedWith
          0 (s.dp.op + hdr.length + n + 3) s.srcLen ∧
        t.Holds s.dp.op hdr ∧
        (∀ j, j < n → t.dst (s.dp.op + hdr.length + j) = s.src (s.srcLen - n + j)) ∧
        t.Holds (s.dp.op + hdr.length + n) [0x11, 0x00, 0x00] ∧
        (1 ≤ n → n ≤ 3 → s.dp.op ≠ 0 → t.dst (s.dp.op - 2) = s.dst (s.dp.op - 2) ||| BitVec.ofNat 8 n) ∧
        (∀ j, j < s.dp.op → n = 0 ∨ 3 < n ∨ j ≠ s.dp.op - 2 → t.dst j = s.dst j)) ∧
    (s.dstCap < s.dp.op + hdr.length + n + 3 →
      ∃ t, step s = .next t ∧ t.fsm = .idle ∧ t.csr = s.csr.ended 3 s.dstCap 0)

/-- R277, R214: every COMPRESS ends, and past its start checks with OK or BufferOverflow. -/
def Obligations.CompressEnds : Prop :=
  ∀ (s : State) (ph : CompressPhase), s.Compressing ph →
    ∃ k t, Reaches k s t ∧ t.fsm = .idle ∧ t.csr.done = true ∧
      (ph ≠ .check → t.csr.errcode = 0 ∨ t.csr.errcode = 3)

/-- R52, R171: what the datapath and the hash table hold when a command starts changes neither its CSRs nor memory at any step. -/
def Obligations.StaleDatapathUnobservable : Prop :=
  ∀ (s : State) (dp : Datapath) (tbl : HashTable), s.fsm = .runCompress .check ∨ s.fsm = .runDecompress .check → s.host = [] →
    ∀ (k : Nat) (t : State), Reaches k s t →
      ∃ t', Reaches k { s with dp := dp, tbl := tbl } t' ∧ t'.csr = t.csr ∧ t'.mem = t.mem ∧ t'.fsm = t.fsm

/-- R169: with DST_CAP at the worst-case bound or above, every COMPRESS within the input limit ends OK, with OUT_LEN within the bound. -/
def Obligations.WorstCaseBound : Prop :=
  ∀ (s : State) (ie strict : Bool), s.Ready → s.srcLen ≤ Config.maxInputLen → Config.worstCase s.srcLen ≤ s.dstCap →
    ∃ s1 k t, exec (.compress ie strict) s = .next s1 ∧ Reaches k s1 t ∧ t.fsm = .idle ∧ t.csr.done = true ∧
      t.csr.errcode = 0 ∧ t.csr.outLen.toNat ≤ Config.worstCase s.srcLen

/-- R170: the output of a COMPRESS that ended OK, given to DECOMPRESS with room for the input, gives the input back. -/
def Obligations.RoundTrip : Prop :=
  ∀ (s s1 t u : State) (k : Nat) (ie strict ie' strict' : Bool), s.Ready → exec (.compress ie strict) s = .next s1 →
    Reaches k s1 t → t.fsm = .idle → t.csr.errcode = 0 →
    u.Ready → u.csr.srcLen = t.csr.outLen → (∀ j, j < u.srcLen → u.src j = t.dst j) → s.srcLen ≤ u.dstCap →
    (strict' = true → u.csr.expLen = s.csr.srcLen) →
    ∃ u1 k' v, exec (.decompress ie' strict') u = .next u1 ∧ Reaches k' u1 v ∧ v.fsm = .idle ∧
      v.csr = (u.csr.started 2 ie' strict').ended 0 s.srcLen u.srcLen ∧
      (∀ j, j < s.srcLen → v.dst j = s.src j) ∧ u.OnlyDst v.mem 0 s.srcLen

/-! ## Commands (43_commands.md) -/

/-- R25, R110: a CTRL write with START = 1 runs the command it asks for; with START = 0 it stores CMD, IE and STRICT, or while BUSY = 1 IE only. -/
def Obligations.StepRunsDecodedCommand : Prop :=
  ∀ (s : State) (w : Word) (rest : List HostOp), s.host = .csrw 0x08 w :: rest →
    (∀ i, decodeCtrl w = .ok i → step s = exec i { s with host := rest }) ∧
    (w.getLsbD 0 = false → step s = .next { s with
      host := rest
      csr := if s.fsm = .idle then { s.csr with cmd := w.extractLsb' 1 2, ie := w.getLsbD 3, strict := w.getLsbD 4 }
        else { s.csr with ie := w.getLsbD 3 } })

/-- R211: an accepted START stores the fields, clears DONE and ERRCODE, and moves FSM. `raced` and `flight` are the model's own marks, which a START
clears (log 5, log 21). -/
def Obligations.AcceptedStart : Prop :=
  ∀ (s : State) (ie strict : Bool), s.fsm = .idle →
    exec (.init ie strict) s =
      .next { s with csr := s.csr.started 0 ie strict, fsm := .runInit, raced := false, flight := none } ∧
    exec (.compress ie strict) s =
      .next { s with csr := s.csr.started 1 ie strict, fsm := .runCompress .check, raced := false, flight := none } ∧
    exec (.decompress ie strict) s =
      .next { s with csr := s.csr.started 2 ie strict, fsm := .runDecompress .check, raced := false, flight := none }

/-- R26: while BUSY = 1 a CTRL write stores bit 3 in IE and does nothing else: a START neither starts nor queues a command. -/
def Obligations.StartWhileBusy : Prop :=
  ∀ s : State, s.fsm ≠ .idle →
    (∀ (w : Word) (rest : List HostOp), s.host = .csrw 0x08 w :: rest →
      step s = .next { s with host := rest, csr := { s.csr with ie := w.getLsbD 3 } }) ∧
    ∀ (ie strict : Bool) (i : Instr), i ∈ [.init ie strict, .compress ie strict, .decompress ie strict, .reservedCmd3 ie strict] →
      exec i s = .next { s with csr := { s.csr with ie := ie } }

/-- R216: the reserved command ends in its START access with InvalidArgument. The marks `raced` and
`flight` are the model's own (log 5, log 21, DESIGN CHOICE). -/
def Obligations.ReservedCommand : Prop :=
  ∀ (s : State) (ie strict : Bool), s.fsm = .idle →
    exec (.reservedCmd3 ie strict) s =
      .next { s with
        csr := (s.csr.started 3 ie strict).ended 9 0 0, fsm := .idle, raced := false, flight := some s.endFlight }

/-- R213: the START of INIT and its one engine step: INIT_OK and the code are set from the comparison of HANDSHAKE with CORE_VERSION. That it
counts as ended unseen is the model's own mark (log 21). -/
def Obligations.InitCommand : Prop :=
  ∀ (s : State) (ie strict : Bool), s.fsm = .idle → s.host = [] →
    ∃ s1, exec (.init ie strict) s = .next s1 ∧
      step s1 = .next { s with
        csr := { (s.csr.started 0 ie strict).ended (if s.csr.handshake = 7 then 0 else 1) 0 0 with
          initOk := decide (s.csr.handshake = 7) }
        fsm := .idle, raced := false, flight := some s.endFlight }

/-- R212: the start checks, in their order, and the first step of a command that passes them; INIT has the handshake only. The marks `raced` and `flight`
that the end of a command sets are the model's own (log 5, log 21, DESIGN CHOICE). -/
def Obligations.StartChecks : Prop :=
  ∀ s : State, s.host = [] →
    (s.fsm = .runInit → step s = .next { s with
      csr := { s.csr.ended (if s.csr.handshake = 7 then 0 else 1) 0 0 with initOk := decide (s.csr.handshake = 7) }
      fsm := .idle, raced := false, flight := some s.endFlight }) ∧
    (s.fsm = .runCompress .check → step s = .next
      (if s.csr.initOk = false then s.endedWith 1 0 0
      else if 2 ^ 32 < s.csr.srcBase.toNat + s.srcLen ∨ 2 ^ 32 < s.csr.dstBase.toNat + s.dstCap then s.endedWith 9 0 0
      else if 0 < s.srcLen ∧ 0 < s.dstCap ∧ s.csr.srcBase.toNat < s.csr.dstBase.toNat + s.dstCap ∧
          s.csr.dstBase.toNat < s.csr.srcBase.toNat + s.srcLen then s.endedWith 9 0 0
      else if 2 ^ 30 < s.srcLen then s.endedWith 2 0 0
      else { s with dp := { s.dp with op := 0, l := s.srcLen, t := 0, p := 0 }, fsm := .runCompress .outer })) ∧
    (s.fsm = .runDecompress .check → step s = .next
      (if s.csr.initOk = false then s.endedWith 1 0 0
      else if 2 ^ 32 < s.csr.srcBase.toNat + s.srcLen ∨ 2 ^ 32 < s.csr.dstBase.toNat + s.dstCap then s.endedWith 9 0 0
      else if 0 < s.srcLen ∧ 0 < s.dstCap ∧ s.csr.srcBase.toNat < s.csr.dstBase.toNat + s.dstCap ∧
          s.csr.dstBase.toNat < s.csr.srcBase.toNat + s.srcLen then s.endedWith 9 0 0
      else { s with dp := { s.dp with ip := 0, op := 0, sreg := .start }, fsm := .runDecompress .fetch }))

/-- R75: the overlap test of the start checks holds exactly when some address is a byte of both buffers. -/
def Obligations.OverlapMeansSharedByte : Prop :=
  ∀ s : State, s.overlap = true ↔ ∃ a, s.inSrc a = true ∧ s.inDst a = true

/-! ## Errors and completion (60_exceptions.md) -/

/-- R217, R238: the termination procedure, for every command and outcome. -/
def Obligations.TerminationTable : Prop :=
  ∀ (s : State) (e : ErrorCode),
    (s.terminate e).csr.errcode = e.code ∧ (s.terminate e).err = decide (e ≠ .ok) ∧ (s.terminate e).csr.done = true ∧
    (s.terminate e).fsm = .idle ∧ (s.terminate e).busy = false ∧ (s.terminate e).irq = s.csr.ie ∧
    (s.terminate e).csr.ie = s.csr.ie ∧ (s.terminate e).csr.strict = s.csr.strict ∧ (s.terminate e).csr.cmd = s.csr.cmd ∧
    (s.terminate e).mem = s.mem ∧ (s.terminate e).dp = s.dp ∧ (s.terminate e).tbl = s.tbl ∧
    (s.fsm = .runInit → (s.terminate e).csr.initOk = decide (e = .ok)) ∧
    (s.fsm ≠ .runInit → (s.terminate e).csr.initOk = s.csr.initOk) ∧
    (s.fsm = .idle ∨ s.fsm = .runInit ∨ s.fsm = .runCompress .check ∨ s.fsm = .runDecompress .check →
      (s.terminate e).csr.outLen = 0 ∧ (s.terminate e).csr.inUsed = 0) ∧
    (∀ ph, s.fsm = .runCompress ph → ph ≠ .check → (s.terminate e).csr.outLen = BitVec.ofNat 32 s.dp.op ∧
      (s.terminate e).csr.inUsed = if e = .ok then s.csr.srcLen else 0) ∧
    (s.fsm = .runDecompress .fetch →
      (s.terminate e).csr.outLen = BitVec.ofNat 32 s.dp.op ∧ (s.terminate e).csr.inUsed = BitVec.ofNat 32 s.dp.ip)

/-- R246: the interrupt output is DONE & IE, and setting IE while DONE is pending asserts it at once. -/
def Obligations.InterruptOutput : Prop :=
  (∀ s : State, s.irq = (s.csr.done && s.csr.ie)) ∧
  (∀ (s : State) (w : Word) (rest : List HostOp), s.host = .csrw 0x08 w :: rest → w.getLsbD 0 = false → w.getLsbD 3 = true →
    s.csr.done = true → ∃ t, step s = .next t ∧ t.irq = true) ∧
  State.reset.irq = false

/-! ## The CSR port (10_state.md) -/

/-- R22 to R39: what a read of each register of the window returns; the block itself does not change. A read of STATUS that shows DONE = 1 closes the
model's own mark of a command that ended unseen (R78; log 21). -/
def Obligations.CsrReadMap : Prop :=
  ∀ (s : State) (off : Nat) (v : Word) (rest : List HostOp), s.host = .csrr off :: rest →
    (off, v) ∈ [(0x00, 0x4C5A4F31), (0x04, 7), (0x08, s.ctrl), (0x0C, s.status), (0x10, s.csr.errcode.setWidth 32),
      (0x14, s.csr.srcBase), (0x18, s.csr.srcLen), (0x1C, s.csr.dstBase), (0x20, s.csr.dstCap), (0x24, s.csr.expLen),
      (0x28, s.csr.outLen), (0x2C, s.csr.inUsed), (0x30, s.csr.handshake), (0x34, 0), (0x38, 0), (0x3C, 0)] →
    step s = .next { s with
      host := rest, rdata := v, flight := if off = 0x0C ∧ s.csr.done = true then none else s.flight }

/-- R25, R27: the bits of CTRL and STATUS as they read. -/
def Obligations.StatusAndControlBits : Prop :=
  ∀ s : State,
    (s.ctrl.getLsbD 0 = false ∧ s.ctrl.extractLsb' 1 2 = s.csr.cmd ∧ s.ctrl.getLsbD 3 = s.csr.ie ∧
      s.ctrl.getLsbD 4 = s.csr.strict ∧ s.ctrl.extractLsb' 5 27 = 0) ∧
    (s.status.getLsbD 0 = decide (s.fsm ≠ .idle) ∧ s.status.getLsbD 1 = s.csr.done ∧
      s.status.getLsbD 2 = decide (s.csr.errcode ≠ 0) ∧ s.status.getLsbD 3 = s.csr.initOk ∧ s.status.extractLsb' 4 28 = 0)

/-- R22, R40: a write to each register but CTRL: configuration registers take it while BUSY = 0 and ignore it while BUSY = 1, the read-only and
reserved words ignore it. -/
def Obligations.ConfigWrites : Prop :=
  ∀ (s : State) (off : Nat) (v : Word) (rest : List HostOp), s.host = .csrw off v :: rest →
    (∀ c, (off, c) ∈ [(0x14, { s.csr with srcBase := v }), (0x18, { s.csr with srcLen := v }),
        (0x1C, { s.csr with dstBase := v }), (0x20, { s.csr with dstCap := v }), (0x24, { s.csr with expLen := v }),
        (0x30, { s.csr with handshake := v })] →
      step s = .next { s with host := rest, csr := if s.fsm = .idle then c else s.csr }) ∧
    (off ∈ [0x00, 0x04, 0x10, 0x28, 0x2C, 0x34, 0x38, 0x3C] → step s = .next { s with host := rest })

/-- R28: a write to STATUS clears DONE when bit 1 is 1, and does nothing else. -/
def Obligations.StatusWrite : Prop :=
  ∀ (s : State) (v : Word) (rest : List HostOp), s.host = .csrw 0x0C v :: rest →
    ∃ t, step s = .next t ∧
      t = { s with host := rest, csr := { s.csr with done := if v.getLsbD 1 then false else s.csr.done } } ∧
      (v.getLsbD 1 = true → t.irq = false)

/-- R71: a CSR access that is not a 32-bit access at an offset that is a multiple of 4 is refused. -/
def Obligations.OddCsrAccessRefused : Prop :=
  ∀ (s : State) (off bytes : Nat) (v : Word) (rest : List HostOp),
    (off % 4 ≠ 0 → s.host = .csrw off v :: rest ∨ s.host = .csrr off :: rest → step s = .refused (.csrAccess off)) ∧
    (bytes ≠ 4 → s.host = .csrNarrow off bytes :: rest → step s = .refused (.csrAccess off))

/-- R219: while BUSY = 1 a CSR write changes nothing but IE and DONE. -/
def Obligations.CsrWriteDuringCommand : Prop :=
  ∀ (s t : State) (off : Nat) (v : Word) (rest : List HostOp), s.fsm ≠ .idle → s.host = .csrw off v :: rest → step s = .next t →
    t = { s with host := rest, csr := { s.csr with ie := t.csr.ie, done := t.csr.done } } ∧
    (off ≠ 0x08 → t.csr.ie = s.csr.ie) ∧ (off ≠ 0x0C → t.csr.done = s.csr.done) ∧ (s.Inv → t.csr.done = false)

/-! ## Rules of the whole machine -/

/-- R53, R100 vector: the reset state meets the invariant. -/
def Obligations.ResetMeetsInvariant : Prop := State.reset.Inv

/-- R34, R43, R45, R50, R61, R219, R231: every step keeps the invariant. -/
def Obligations.StepKeepsInvariant : Prop := ∀ s t : State, s.Inv → step s = .next t → t.Inv

/-- R61, R74, R197: from a state that meets the invariant no step faults, and only a CSR access is ever refused. -/
def Obligations.StepNeverFaults : Prop :=
  ∀ s : State, s.Inv → Safe (step s) ∧ ∀ r, step s = .refused r → ∃ off, r = .csrAccess off

/-- R62, R63, R139, R197: an engine step of an undisturbed command writes no byte outside DST and none from the new `op` on. Below the old `op`,
DECOMPRESS writes none, and COMPRESS none but the byte at `op - 2`, into which `Patch2` may OR a count of 1 to 3. -/
def Obligations.EngineWritesOnlyAtOp : Prop :=
  ∀ s t : State, s.Inv → s.raced = false → s.host = [] → step s = .next t →
    (∀ a, s.inDst a = false → Store.read t.mem a = Store.read s.mem a) ∧
    (∀ j, t.dp.op ≤ j → Store.read t.mem (s.dstAddr j) = Store.read s.mem (s.dstAddr j)) ∧
    (s.fsm = .runDecompress .fetch → ∀ j, j < s.dp.op →
      Store.read t.mem (s.dstAddr j) = Store.read s.mem (s.dstAddr j)) ∧
    (∀ ph, s.fsm = .runCompress ph → ph ≠ .check →
      (∀ j, j < s.dp.op → j ≠ s.dp.op - 2 → Store.read t.mem (s.dstAddr j) = Store.read s.mem (s.dstAddr j)) ∧
      (2 ≤ s.dp.op → ∃ n : BitVec 2, t.dst (s.dp.op - 2) = s.dst (s.dp.op - 2) ||| n.setWidth 8))

/-- R275: INIT_OK changes only at the end of an INIT, where it says whether HANDSHAKE matched, and at a reset. -/
def Obligations.InitOkLifetime : Prop :=
  ∀ s t : State, step s = .next t → t.csr.initOk ≠ s.csr.initOk →
    (s.fsm = .runInit ∧ t.fsm = .idle ∧ t.csr.initOk = decide (s.csr.handshake = 7)) ∨
    (∃ rest, s.host = .reset :: rest ∧ t.csr.initOk = false)

/-- R50: only a running COMPRESS, or a reset, changes the hash table. -/
def Obligations.HashTableOnlyByCompress : Prop :=
  ∀ s t : State, step s = .next t → t.tbl ≠ s.tbl → (∃ ph, s.fsm = .runCompress ph) ∨ ∃ rest, s.host = .reset :: rest

/-- R29, R36, R37, R274: OUT_LEN and IN_USED change only where a running command ends, which sets DONE and leaves the block IDLE, at the START of
the reserved command on an IDLE block, and at a reset; ERRCODE only there and at an accepted START. The one other case is the model's: a host
write that breaks R85 before the host has read DONE = 1 makes the ended command's results free (R78; log 21). -/
def Obligations.ResultsOnlyAtEnd : Prop :=
  ∀ s t : State, step s = .next t →
    (t.csr.outLen ≠ s.csr.outLen ∨ t.csr.inUsed ≠ s.csr.inUsed →
      (s.fsm ≠ .idle ∧ t.fsm = .idle ∧ t.csr.done = true) ∨
      (∃ w rest ie strict, s.host = .csrw 0x08 w :: rest ∧ decodeCtrl w = .ok (.reservedCmd3 ie strict) ∧ s.fsm = .idle ∧
        t.fsm = .idle ∧ t.csr.done = true) ∨
      (∃ rest, s.host = .reset :: rest) ∨ s.RacesEnded) ∧
    (t.csr.errcode ≠ s.csr.errcode →
      (s.fsm ≠ .idle ∧ t.fsm = .idle ∧ t.csr.done = true) ∨
      (∃ w rest, s.host = .csrw 0x08 w :: rest ∧ w.getLsbD 0 = true ∧ s.fsm = .idle) ∨
      (∃ rest, s.host = .reset :: rest) ∨ s.RacesEnded)

/-- R268: while BUSY = 1 no step but a reset changes the configuration of the running command. -/
def Obligations.ConfigurationFrozen : Prop :=
  ∀ s t : State, s.fsm ≠ .idle → step s = .next t → (∀ rest, s.host ≠ .reset :: rest) →
    t.csr.srcBase = s.csr.srcBase ∧ t.csr.srcLen = s.csr.srcLen ∧ t.csr.dstBase = s.csr.dstBase ∧
    t.csr.dstCap = s.csr.dstCap ∧ t.csr.expLen = s.csr.expLen ∧ t.csr.handshake = s.csr.handshake ∧
    t.csr.cmd = s.csr.cmd ∧ t.csr.strict = s.csr.strict

/-! ## Reset and the host's memory accesses (70_reset_and_hazards.md, 20_memory.md) -/

/-- R22, R53, R261, R263: the reset values, written out, and the reset input, which gives every CSR, FSM and S its reset value and records no
completion; no byte outside DST changes, and none at all while IDLE. The reset values of the other datapath registers and of H are the model's
choice (log 4) and are not part of this statement. -/
def Obligations.ResetInput : Prop :=
  ∀ c : Csr,
    c = {
      cmd := 0, ie := false, strict := true, done := false, initOk := false, errcode := 0
      srcBase := 0, srcLen := 0, dstBase := 0, dstCap := 0, expLen := 0, outLen := 0, inUsed := 0, handshake := 0 } →
    (State.reset.csr = c ∧ State.reset.fsm = .idle ∧ State.reset.dp.sreg = .start ∧ State.reset.irq = false ∧
      State.reset.ctrl = 0x10 ∧ State.reset.status = 0) ∧
    ∀ (s : State) (rest : List HostOp), s.Inv → s.host = .reset :: rest →
      ∃ t, step s = .next t ∧ t.csr = c ∧ t.fsm = .idle ∧ t.dp.sreg = .start ∧ t.irq = false ∧ t.host = rest ∧
        (s.fsm = .idle → t.mem = s.mem) ∧
        (∀ a, s.inDst a = false → Store.read t.mem a = Store.read s.mem a)

/-- R85: whatever the free values, a raced command ends with a code of R231, OUT_LEN ≤ DST_CAP and IN_USED ≤ SRC_LEN, and writes nothing outside
DST. That it ends at the next engine step is the model's choice (log 5). -/
def Obligations.RacedCommandEnds : Prop :=
  ∀ s : State, s.Inv → s.raced = true → s.host = [] →
    (∀ ph, s.fsm = .runCompress ph → ph ≠ .check) → s.fsm ≠ .runDecompress .check → s.fsm ≠ .runInit →
    ∃ t, step s = .next t ∧ t.fsm = .idle ∧ t.csr.done = true ∧ t.csr.errcode.toNat ≤ 9 ∧ t.csr.outLen.toNat ≤ s.dstCap ∧
      t.csr.inUsed.toNat ≤ s.srcLen ∧ t.csr.initOk = s.csr.initOk ∧
      ∀ a, s.inDst a = false → Store.read t.mem a = Store.read s.mem a

/-- R78, R85: a host access to memory. A write lands, and is a race exactly when it hits SRC or DST while BUSY = 1; a write to a command that ran and
ended unseen makes its results free. A read changes neither memory nor the block, and returns the byte unless it is in DST of a command in
flight. That a racing write lands and sets a mark is the model's choice (log 5, DESIGN CHOICE); that the mark counts before the start checks and
by unwrapped intervals is inferred (log 7 and log 8, DEDUCED); that a write after the end takes effect at once is log 21 (DESIGN CHOICE). -/
def Obligations.HostMemoryAccess : Prop :=
  ∀ (s : State) (a : Word) (v : Byte) (rest : List HostOp), s.Inv →
    (s.host = .memw a v :: rest → ∃ t, step s = .next t ∧
      (t.raced = true ↔ s.raced = true ∨ (s.fsm ≠ .idle ∧ (s.inSrc a.toNat = true ∨ s.inDst a.toNat = true))) ∧
      t.fsm = s.fsm ∧ t.dp = s.dp ∧ t.tbl = s.tbl ∧ t.flight = s.flight ∧
      (¬ s.RacesEnded → t.csr = s.csr ∧
        ∀ b, Store.read t.mem b = if b = a.toNat then v else Store.read s.mem b) ∧
      (s.RacesEnded → ∀ f, s.flight = some f →
        t.csr = { s.csr with errcode := t.csr.errcode, outLen := t.csr.outLen, inUsed := t.csr.inUsed } ∧
        t.csr.errcode.toNat ≤ 9 ∧ t.csr.outLen.toNat ≤ f.dstCap.toNat ∧ t.csr.inUsed.toNat ≤ f.srcLen.toNat ∧
        ∀ b, f.inDst b = false → Store.read t.mem b = if b = a.toNat then v else Store.read s.mem b)) ∧
    (s.host = .memr a :: rest → ∃ t, step s = .next t ∧
      t.csr = s.csr ∧ t.fsm = s.fsm ∧ t.dp = s.dp ∧ t.tbl = s.tbl ∧ t.mem = s.mem ∧ t.raced = s.raced ∧ t.flight = s.flight ∧
      (s.fsm = .idle ∨ s.inDst a.toNat = false → (∀ f, s.flight = some f → f.inDst a.toNat = false) →
        t.rdata = (Store.read s.mem a.toNat).setWidth 32))

/-- R78, R79: a command is in flight until the host has observed DONE = 1. Its end leaves it unseen, with the regions it was started with, whatever
is written to them later; only a read of STATUS that shows DONE = 1, a wait for DONE or for the interrupt that is over, an accepted START or a
reset changes that. The mark is the model's form of the rule (log 21, DESIGN CHOICE). -/
def Obligations.CommandInFlight : Prop :=
  (∀ (s : State) (e : ErrorCode), ∃ ran : Bool, (s.terminate e).flight = some
    { srcBase := s.csr.srcBase, srcLen := s.csr.srcLen, dstBase := s.csr.dstBase, dstCap := s.csr.dstCap, ran := ran } ∧
    (ran = true ↔ (∃ ph, s.fsm = .runCompress ph ∧ ph ≠ .check) ∨ s.fsm = .runDecompress .fetch)) ∧
  (∀ (s : State) (rest : List HostOp), s.csr.done = true →
    (s.host = .csrr 0x0C :: rest → step s = .next { s with host := rest, rdata := s.status, flight := none }) ∧
    (s.host = .waitDone :: rest → step s = .next { s with host := rest, flight := none }) ∧
    (s.host = .waitIrq :: rest → s.csr.ie = true → step s = .next { s with host := rest, flight := none })) ∧
  (∀ s t : State, step s = .next t → t.flight ≠ s.flight →
    (s.fsm ≠ .idle ∧ t.fsm = .idle) ∨ (∃ w rest, s.host = .csrw 0x08 w :: rest ∧ w.getLsbD 0 = true ∧ s.fsm = .idle) ∨
    (t.flight = none ∧ ((∃ rest, s.host = .reset :: rest) ∨
      (s.csr.done = true ∧ ∃ rest, s.host = .csrr 0x0C :: rest ∨ s.host = .waitDone :: rest ∨ s.host = .waitIrq :: rest))))
end

