-- ==== Sys2Proof/Laws/Decode.lean ====
section
/-! SUPPORT. What the decoder can answer: how many bytes it takes, and that a stream holds tokens only. -/

namespace Sys2Proof

@[simp] theorem bits_lt (b : Byte) (hi lo : Nat) : bits b hi lo < 2 ^ (hi + 1 - lo) := Nat.mod_lt _ (Nat.two_pow_pos _)

/-- An extension field takes at least one byte and no more than there are, and adds at least 1 to its base (R102). -/
theorem decodeExt_ok {base v k : Nat} {bs : List Byte} (h : decodeExt base bs = .ok (v, k)) :
    1 ≤ k ∧ k ≤ bs.length ∧ base + 1 ≤ v := by
  induction bs generalizing base v k with
  | nil => simp [decodeExt] at h
  | cons b bs ih =>
    unfold decodeExt at h
    split at h
    · split at h
      · next v' k' he =>
        obtain ⟨rfl, rfl⟩ : v' = v ∧ k' + 1 = k := by simpa using h
        have := ih he
        simp
        omega
      · cases h
    · next hb =>
      obtain ⟨rfl, rfl⟩ : base + b.toNat = v ∧ 1 = k := by simpa using h
      have : b.toNat ≠ 0 := fun h0 => hb (BitVec.eq_of_toNat_eq (by simpa using h0))
      simp
      omega

theorem decodeLen_ok {field base v k : Nat} {bs : List Byte} (h : decodeLen field base bs = .ok (v, k)) : k ≤ bs.length := by
  unfold decodeLen at h
  split at h
  · exact (decodeExt_ok h).2.1
  · have := congrArg (Except.map Prod.snd) h
    simp [Except.map] at this
    omega

theorem length_of_drop {α : Type} {bs rest : List α} {k : Nat} {a b : α} (h : bs.drop k = a :: b :: rest) : k + 2 ≤ bs.length := by
  have := congrArg List.length h
  simp at this
  omega

/-- A decoded header takes at least its control byte and no more than there is of the stream (R92). -/
theorem decodeToken_length {st : DecState} {bs : List Byte} {i : Instr} {k : Nat} (h : decodeToken st bs = .ok (i, k)) :
    1 ≤ k ∧ k ≤ bs.length := by
  cases bs with
  | nil => simp [decodeToken] at h
  | cons c rest =>
    simp only [decodeToken] at h
    split at h
    · simp at h; simp; omega
    · unfold decodeLit at h
      split at h
      · split at h
        · next he => have := (decodeExt_ok he).2.1; simp at h; simp; omega
        · cases h
      · simp at h; simp; omega
    · cases rest <;> simp [decodeM1s] at h; simp; omega
    · cases rest <;> simp [decodeM1l] at h; simp; omega
    · cases rest <;> simp [decodeM2] at h; simp; omega
    · unfold decodeM3 at h
      split at h
      · cases h
      · split at h
        · next hd => have := length_of_drop hd; simp at h; simp; omega
        · cases h
    · unfold decodeM4 at h
      split at h
      · cases h
      · split at h
        · next hd =>
          have := length_of_drop hd
          split at h <;> (simp at h; simp; omega)
        · cases h

/-- A stream holds tokens, never commands (R91). -/
theorem decodeToken_isToken {st : DecState} {bs : List Byte} {i : Instr} {k : Nat} (h : decodeToken st bs = .ok (i, k)) :
    i.isCommand = false := by
  cases bs with
  | nil => simp [decodeToken] at h
  | cons c rest =>
    simp only [decodeToken] at h
    split at h
    · simp at h; rw [← h.1]; rfl
    · unfold decodeLit at h
      split at h
      · split at h
        · simp at h; rw [← h.1]; rfl
        · cases h
      · simp at h; rw [← h.1]; rfl
    · cases rest <;> simp [decodeM1s] at h; rw [← h.1]; rfl
    · cases rest <;> simp [decodeM1l] at h; rw [← h.1]; rfl
    · cases rest <;> simp [decodeM2] at h; rw [← h.1]; rfl
    · unfold decodeM3 at h
      split at h
      · cases h
      · split at h
        · simp at h; rw [← h.1]; rfl
        · cases h
    · unfold decodeM4 at h
      split at h
      · cases h
      · split at h
        · split at h <;> (simp at h; rw [← h.1]; rfl)
        · cases h

/-- A CTRL write asks for commands, never tokens (R110). -/
theorem decodeCtrl_isCommand {w : Word} {i : Instr} (h : decodeCtrl w = .ok i) : i.isCommand = true := by
  unfold decodeCtrl at h
  split at h
  · simp only at h
    split at h <;> (simp at h; rw [← h]; rfl)
  · cases h

theorem extBytes_length (v : Nat) : (extBytes v).length = extLength v := by simp [extBytes, extLength]

/-- The encoder's loop of R132: a zero byte for each 255 above 255. -/
theorem extBytes_step (v : Nat) (h : 255 < v) : extBytes v = 0 :: extBytes (v - 255) := by
  have e : (v - 1) / 255 = (v - 255 - 1) / 255 + 1 := by omega
  unfold extBytes
  rw [e, List.replicate_succ, List.cons_append, show v - 255 * ((v - 255 - 1) / 255 + 1) = v - 255 - 255 * ((v - 255 - 1) / 255) by omega]

theorem extBytes_small (v : Nat) (h : v ≤ 255) : extBytes v = [BitVec.ofNat 8 v] := by
  have e : (v - 1) / 255 = 0 := by omega
  simp [extBytes, e]

end Sys2Proof
end

