-- ==== Sys2Proof/Laws/Memory.lean ====
section
/-! SUPPORT. The laws of the sparse tables: read after write, the canonical form that every operation keeps, and equality of contents. -/

namespace Sys2Proof.Machine

variable {w : Nat}

@[simp] theorem Store.read_nil (a : Nat) : Store.read ([] : Store w) a = Store.unlisted w := rfl

theorem Store.read_cons_pair (b : Nat) (x : BitVec w) (m : Store w) (a : Nat) :
    Store.read ((b, x) :: m) a = if a = b then x else Store.read m a := rfl

theorem Store.above_cons_iff {lo b : Nat} {x : BitVec w} {m : Store w} :
    Store.above lo ((b, x) :: m) = true ↔ lo ≤ b ∧ x ≠ Store.unlisted w ∧ Store.above (b + 1) m = true := by
  simp [Store.above, and_assoc]

theorem Store.above_mono {lo hi : Nat} {m : Store w} (h : Store.above hi m = true) (hl : lo ≤ hi) :
    Store.above lo m = true := by
  cases m with
  | nil => rfl
  | cons e m =>
    obtain ⟨b, x⟩ := e
    rw [Store.above_cons_iff] at h ⊢
    exact ⟨hl.trans h.1, h.2⟩

/-- An index below every listed one reads the unlisted value. -/
theorem Store.read_of_above {lo : Nat} {m : Store w} (h : Store.above lo m = true) {a : Nat} (ha : a < lo) :
    Store.read m a = Store.unlisted w := by
  induction m generalizing lo with
  | nil => rfl
  | cons e m ih =>
    obtain ⟨b, x⟩ := e
    rw [Store.above_cons_iff] at h
    rw [Store.read_cons_pair, if_neg (by omega)]
    exact ih h.2.2 (by omega)

theorem Store.above_put {lo a : Nat} {v : BitVec w} {m : Store w} (hlo : lo ≤ a)
    (h : Store.above (a + 1) m = true) : Store.above lo (Store.cons a v m) = true := by
  unfold Store.cons
  split
  · exact Store.above_mono h (by omega)
  · exact Store.above_cons_iff.mpr ⟨hlo, by assumption, h⟩

/-- A write keeps the canonical form. -/
theorem Store.above_write {lo a : Nat} {v : BitVec w} {m : Store w} (h : Store.above lo m = true) (hlo : lo ≤ a) :
    Store.above lo (Store.write m a v) = true := by
  induction m generalizing lo with
  | nil => exact Store.above_put hlo rfl
  | cons e m ih =>
    obtain ⟨b, x⟩ := e
    have hc := Store.above_cons_iff.mp h
    unfold Store.write
    split
    · exact Store.above_put hlo (Store.above_cons_iff.mpr ⟨by omega, hc.2⟩)
    · split
      · next hab => subst hab; exact Store.above_put hlo hc.2.2
      · exact Store.above_cons_iff.mpr ⟨hc.1, hc.2.1, ih hc.2.2 (by omega)⟩

theorem Store.wf_nil : Store.wf ([] : Store w) = true := rfl

theorem Store.wf_write {m : Store w} (h : Store.wf m = true) (a : Nat) (v : BitVec w) :
    Store.wf (Store.write m a v) = true := Store.above_write h (Nat.zero_le a)

theorem Store.read_put {a : Nat} {v : BitVec w} {m : Store w} (b : Nat) (h : Store.read m a = Store.unlisted w) :
    Store.read (Store.cons a v m) b = if b = a then v else Store.read m b := by
  unfold Store.cons
  split
  · next hv => split
               · next hb => rw [hb, h, hv]
               · rfl
  · rfl

/-- A write changes the entry written, and no other. -/
theorem Store.read_write {lo : Nat} {m : Store w} (h : Store.above lo m = true) (a b : Nat) (v : BitVec w) :
    Store.read (Store.write m a v) b = if b = a then v else Store.read m b := by
  induction m generalizing lo with
  | nil => exact Store.read_put b rfl
  | cons e m ih =>
    obtain ⟨c, x⟩ := e
    have hc := Store.above_cons_iff.mp h
    unfold Store.write
    split
    · next hac =>
      exact Store.read_put b (Store.read_of_above (Store.above_cons_iff.mpr ⟨Nat.le_refl c, hc.2⟩) hac)
    · split
      · next hac =>
        subst hac
        rw [Store.read_put b (Store.read_of_above hc.2.2 (Nat.lt_succ_self a)), Store.read_cons_pair]
        split <;> rfl
      · rw [Store.read_cons_pair, Store.read_cons_pair, ih hc.2.2]
        split
        · next hbc => rw [if_neg (by omega)]
        · rfl

theorem Store.read_write_same {m : Store w} (h : Store.wf m = true) (a : Nat) (v : BitVec w) :
    Store.read (Store.write m a v) a = v := by rw [Store.read_write h, if_pos rfl]

theorem Store.read_write_other {m : Store w} (h : Store.wf m = true) {a b : Nat} (v : BitVec w) (hab : b ≠ a) :
    Store.read (Store.write m a v) b = Store.read m b := by rw [Store.read_write h, if_neg hab]

/-- A write keeps every listed index below a bound. -/
theorem Store.below_write {hi : Nat} {m : Store w} (h : Store.below hi m = true) {a : Nat} (ha : a < hi) (v : BitVec w) :
    Store.below hi (Store.write m a v) = true := by
  have put : ∀ m : Store w, Store.below hi m = true → Store.below hi (Store.cons a v m) = true := by
    intro m hm
    unfold Store.cons
    split
    · exact hm
    · simpa [Store.below, ha] using hm
  induction m with
  | nil => exact put [] rfl
  | cons e m ih =>
    obtain ⟨b, x⟩ := e
    have hb : b < hi ∧ Store.below hi m = true := by simpa [Store.below] using h
    unfold Store.write
    split
    · exact put _ h
    · split
      · exact put _ hb.2
      · simpa [Store.below, hb.1] using ih hb.2

/-- Tables in canonical form with equal contents are equal. -/
theorem Store.ext_of_above {lo : Nat} {m m' : Store w} (h : Store.above lo m = true) (h' : Store.above lo m' = true)
    (heq : ∀ a, Store.read m a = Store.read m' a) : m = m' := by
  induction m generalizing lo m' with
  | nil =>
    cases m' with
    | nil => rfl
    | cons e m' =>
      obtain ⟨b, x⟩ := e
      have := heq b
      simp [Store.read_cons_pair] at this
      exact absurd this.symm (Store.above_cons_iff.mp h').2.1
  | cons e m ih =>
    obtain ⟨b, x⟩ := e
    have hb := Store.above_cons_iff.mp h
    cases m' with
    | nil =>
      have := heq b
      simp [Store.read_cons_pair] at this
      exact absurd this hb.2.1
    | cons e' m' =>
      obtain ⟨c, y⟩ := e'
      have hc := Store.above_cons_iff.mp h'
      have hbc : b = c := by
        rcases Nat.lt_trichotomy b c with hlt | he | hgt
        · have := heq b
          rw [Store.read_cons_pair, if_pos rfl,
            Store.read_of_above (Store.above_cons_iff.mpr ⟨Nat.le_refl c, hc.2⟩) hlt] at this
          exact absurd this hb.2.1
        · exact he
        · have := heq c
          rw [Store.read_cons_pair (b := c), if_pos rfl,
            Store.read_of_above (Store.above_cons_iff.mpr ⟨Nat.le_refl b, hb.2⟩) hgt] at this
          exact absurd this.symm hc.2.1
      subst hbc
      have hxy : x = y := by simpa [Store.read_cons_pair] using heq b
      subst hxy
      rw [ih hb.2.2 hc.2.2]
      intro a
      by_cases hab : a = b
      · rw [hab, Store.read_of_above hb.2.2 (Nat.lt_succ_self b), Store.read_of_above hc.2.2 (Nat.lt_succ_self b)]
      · simpa [Store.read_cons_pair, hab] using heq a

theorem Store.ext {m m' : Store w} (h : Store.wf m = true) (h' : Store.wf m' = true)
    (heq : ∀ a, Store.read m a = Store.read m' a) : m = m' := Store.ext_of_above h h' heq

/-! ## Filling and splicing memory -/

theorem Memory.wf_fill {m : Memory} (h : Store.wf m = true) (base : Nat) (f : Nat → Byte) (n : Nat) :
    Store.wf (Memory.fill m base f n) = true := by
  induction n with
  | zero => exact h
  | succ n ih => exact Store.wf_write ih _ _

theorem Memory.below_fill {m : Memory} {hi : Nat} (h : Store.below hi m = true) (base : Nat) (f : Nat → Byte) (n : Nat)
    (hn : base + n ≤ hi) : Store.below hi (Memory.fill m base f n) = true := by
  induction n with
  | zero => exact h
  | succ n ih => exact Store.below_write (ih (by omega)) (by omega) _

/-- Filling sets the `n` bytes from `base`, and no other. -/
theorem Memory.read_fill {m : Memory} (h : Store.wf m = true) (base : Nat) (f : Nat → Byte) (n a : Nat) :
    Store.read (Memory.fill m base f n) a = if base ≤ a ∧ a < base + n then f (a - base) else Store.read m a := by
  induction n with
  | zero => simp only [Memory.fill]; rw [if_neg (by omega)]
  | succ n ih =>
    rw [Memory.fill, Store.read_write (Memory.wf_fill h base f n)]
    split
    · next ha => subst ha; rw [if_pos (by omega)]; simp
    · rw [ih]
      split
      · rw [if_pos (by omega)]
      · rw [if_neg (by omega)]

theorem Store.above_filter {lo : Nat} {m : Store w} (h : Store.above lo m = true) (p : Nat × BitVec w → Bool) :
    Store.above lo (m.filter p) = true := by
  induction m generalizing lo with
  | nil => rfl
  | cons e m ih =>
    obtain ⟨b, x⟩ := e
    have hb := Store.above_cons_iff.mp h
    rw [List.filter_cons]
    split
    · exact Store.above_cons_iff.mpr ⟨hb.1, hb.2.1, ih hb.2.2⟩
    · exact Store.above_mono (ih hb.2.2) (by omega)

theorem Store.above_append {lo mid : Nat} {m m' : Store w} (h : Store.above lo m = true) (hm : Store.below mid m = true)
    (h' : Store.above mid m' = true) (hl : lo ≤ mid) : Store.above lo (m ++ m') = true := by
  induction m generalizing lo with
  | nil => exact Store.above_mono h' hl
  | cons e m ih =>
    obtain ⟨b, x⟩ := e
    have hb := Store.above_cons_iff.mp h
    have hlt : b < mid ∧ Store.below mid m = true := by simpa [Store.below] using hm
    exact Store.above_cons_iff.mpr ⟨hb.1, hb.2.1, ih hb.2.2 hlt.2 (by omega)⟩

theorem Store.above_upper {lo lim : Nat} {m : Store w} (h : Store.above lo m = true) :
    Store.above lim (m.filter fun e => decide (lim ≤ e.1)) = true := by
  induction m generalizing lo with
  | nil => rfl
  | cons e m ih =>
    obtain ⟨b, x⟩ := e
    have hb := Store.above_cons_iff.mp h
    rw [List.filter_cons]
    split
    · next hl =>
      exact Store.above_cons_iff.mpr ⟨by simpa using hl, hb.2.1, Store.above_filter hb.2.2 _⟩
    · exact ih hb.2.2

theorem Memory.wf_splice {new old : Memory} (hn : Store.wf new = true) (ho : Store.wf old = true) (lim : Nat) :
    Store.wf (Memory.splice new old lim) = true :=
  Store.above_append (Store.above_filter hn _) (by simp [Store.below]) (Store.above_upper ho) (Nat.zero_le lim)

theorem Memory.below_splice {new old : Memory} {hi : Nat} (hn : Store.below hi new = true) (ho : Store.below hi old = true)
    (lim : Nat) : Store.below hi (Memory.splice new old lim) = true := by
  simp only [Store.below, List.all_eq_true, Memory.splice, List.mem_append, List.mem_filter] at *
  rintro e (h | h)
  · exact hn e h.1
  · exact ho e h.1

theorem Store.read_filter {m : Store w} {lo : Nat} (h : Store.above lo m = true) (p : Nat → Bool) (a : Nat) :
    Store.read (m.filter fun e => p e.1) a = if p a then Store.read m a else Store.unlisted w := by
  induction m generalizing lo with
  | nil => simp
  | cons e m ih =>
    obtain ⟨b, x⟩ := e
    have hb := Store.above_cons_iff.mp h
    rw [List.filter_cons]
    by_cases hp : p b = true
    · simp only [hp, if_true, Store.read_cons_pair]
      by_cases hab : a = b
      · subst hab; simp [hp]
      · simp only [hab, if_false]; exact ih hb.2.2
    · simp only [hp, Bool.false_eq_true, if_false, Store.read_cons_pair]
      rw [ih hb.2.2]
      by_cases hab : a = b
      · subst hab; simp [hp]
      · simp [hab]

theorem Store.read_append {mid : Nat} {m m' : Store w} (hm : Store.below mid m = true) (h' : Store.above mid m' = true)
    (a : Nat) : Store.read (m ++ m') a = if a < mid then Store.read m a else Store.read m' a := by
  induction m with
  | nil =>
    split
    · next ha => exact Store.read_of_above h' ha
    · rfl
  | cons e m ih =>
    obtain ⟨b, x⟩ := e
    have hlt : b < mid ∧ Store.below mid m = true := by simpa [Store.below] using hm
    rw [List.cons_append, Store.read_cons_pair, Store.read_cons_pair, ih hlt.2]
    by_cases hab : a = b
    · subst hab; simp [hlt.1]
    · simp [hab]

/-- Splicing takes the bytes below the limit from the new memory and the others from the old. -/
theorem Memory.read_splice {new old : Memory} (hn : Store.wf new = true) (ho : Store.wf old = true) (lim a : Nat) :
    Store.read (Memory.splice new old lim) a = if a < lim then Store.read new a else Store.read old a := by
  rw [Memory.splice, Store.read_append (mid := lim) (by simp [Store.below]) (Store.above_upper ho),
    Store.read_filter hn (fun b => decide (b < lim)), Store.read_filter ho (fun b => decide (lim ≤ b))]
  by_cases ha : a < lim
  · simp [ha]
  · simp [ha]

end Sys2Proof.Machine
end

