-- ==== Sys2Proof/Laws/State.lean ====
section
/-! SUPPORT. What each named update does to each field of the state, and the views that no update of a command's registers changes. -/

namespace Sys2Proof.Machine

/-! ### `setIp` -/

@[simp] theorem State.setIp_csr (s : State) (ip : Nat) : (s.setIp ip).csr = s.csr := rfl
@[simp] theorem State.setIp_fsm (s : State) (ip : Nat) : (s.setIp ip).fsm = s.fsm := rfl
@[simp] theorem State.setIp_dp (s : State) (ip : Nat) : (s.setIp ip).dp = { s.dp with ip := ip } := rfl
@[simp] theorem State.setIp_tbl (s : State) (ip : Nat) : (s.setIp ip).tbl = s.tbl := rfl
@[simp] theorem State.setIp_mem (s : State) (ip : Nat) : (s.setIp ip).mem = s.mem := rfl
@[simp] theorem State.setIp_raced (s : State) (ip : Nat) : (s.setIp ip).raced = s.raced := rfl
@[simp] theorem State.setIp_flight (s : State) (ip : Nat) : (s.setIp ip).flight = s.flight := rfl
@[simp] theorem State.setIp_host (s : State) (ip : Nat) : (s.setIp ip).host = s.host := rfl
@[simp] theorem State.setIp_rdata (s : State) (ip : Nat) : (s.setIp ip).rdata = s.rdata := rfl
@[simp] theorem State.setIp_draws (s : State) (ip : Nat) : (s.setIp ip).draws = s.draws := rfl
@[simp] theorem State.setIp_srcLen (s : State) (ip : Nat) : (s.setIp ip).srcLen = s.srcLen := rfl
@[simp] theorem State.setIp_dstCap (s : State) (ip : Nat) : (s.setIp ip).dstCap = s.dstCap := rfl
@[simp] theorem State.setIp_srcAddr (s : State) (ip : Nat) (i : Nat) : (s.setIp ip).srcAddr i = s.srcAddr i := rfl
@[simp] theorem State.setIp_dstAddr (s : State) (ip : Nat) (i : Nat) : (s.setIp ip).dstAddr i = s.dstAddr i := rfl
@[simp] theorem State.setIp_inSpace (s : State) (ip : Nat) : (s.setIp ip).inSpace = s.inSpace := rfl
@[simp] theorem State.setIp_overlap (s : State) (ip : Nat) : (s.setIp ip).overlap = s.overlap := rfl
@[simp] theorem State.setIp_src (s : State) (ip : Nat) (i : Nat) : (s.setIp ip).src i = s.src i := rfl
@[simp] theorem State.setIp_dst (s : State) (ip : Nat) (i : Nat) : (s.setIp ip).dst i = s.dst i := rfl

/-! ### `setS` -/

@[simp] theorem State.setS_csr (s : State) (st : DecState) : (s.setS st).csr = s.csr := rfl
@[simp] theorem State.setS_fsm (s : State) (st : DecState) : (s.setS st).fsm = s.fsm := rfl
@[simp] theorem State.setS_dp (s : State) (st : DecState) : (s.setS st).dp = { s.dp with sreg := st } := rfl
@[simp] theorem State.setS_tbl (s : State) (st : DecState) : (s.setS st).tbl = s.tbl := rfl
@[simp] theorem State.setS_mem (s : State) (st : DecState) : (s.setS st).mem = s.mem := rfl
@[simp] theorem State.setS_raced (s : State) (st : DecState) : (s.setS st).raced = s.raced := rfl
@[simp] theorem State.setS_flight (s : State) (st : DecState) : (s.setS st).flight = s.flight := rfl
@[simp] theorem State.setS_host (s : State) (st : DecState) : (s.setS st).host = s.host := rfl
@[simp] theorem State.setS_rdata (s : State) (st : DecState) : (s.setS st).rdata = s.rdata := rfl
@[simp] theorem State.setS_draws (s : State) (st : DecState) : (s.setS st).draws = s.draws := rfl
@[simp] theorem State.setS_srcLen (s : State) (st : DecState) : (s.setS st).srcLen = s.srcLen := rfl
@[simp] theorem State.setS_dstCap (s : State) (st : DecState) : (s.setS st).dstCap = s.dstCap := rfl
@[simp] theorem State.setS_srcAddr (s : State) (st : DecState) (i : Nat) : (s.setS st).srcAddr i = s.srcAddr i := rfl
@[simp] theorem State.setS_dstAddr (s : State) (st : DecState) (i : Nat) : (s.setS st).dstAddr i = s.dstAddr i := rfl
@[simp] theorem State.setS_inSpace (s : State) (st : DecState) : (s.setS st).inSpace = s.inSpace := rfl
@[simp] theorem State.setS_overlap (s : State) (st : DecState) : (s.setS st).overlap = s.overlap := rfl
@[simp] theorem State.setS_src (s : State) (st : DecState) (i : Nat) : (s.setS st).src i = s.src i := rfl
@[simp] theorem State.setS_dst (s : State) (st : DecState) (i : Nat) : (s.setS st).dst i = s.dst i := rfl

/-! ### `setFsm` -/

@[simp] theorem State.setFsm_csr (s : State) (f : Fsm) : (s.setFsm f).csr = s.csr := rfl
@[simp] theorem State.setFsm_fsm (s : State) (f : Fsm) : (s.setFsm f).fsm = f := rfl
@[simp] theorem State.setFsm_dp (s : State) (f : Fsm) : (s.setFsm f).dp = s.dp := rfl
@[simp] theorem State.setFsm_tbl (s : State) (f : Fsm) : (s.setFsm f).tbl = s.tbl := rfl
@[simp] theorem State.setFsm_mem (s : State) (f : Fsm) : (s.setFsm f).mem = s.mem := rfl
@[simp] theorem State.setFsm_raced (s : State) (f : Fsm) : (s.setFsm f).raced = s.raced := rfl
@[simp] theorem State.setFsm_flight (s : State) (f : Fsm) : (s.setFsm f).flight = s.flight := rfl
@[simp] theorem State.setFsm_host (s : State) (f : Fsm) : (s.setFsm f).host = s.host := rfl
@[simp] theorem State.setFsm_rdata (s : State) (f : Fsm) : (s.setFsm f).rdata = s.rdata := rfl
@[simp] theorem State.setFsm_draws (s : State) (f : Fsm) : (s.setFsm f).draws = s.draws := rfl
@[simp] theorem State.setFsm_srcLen (s : State) (f : Fsm) : (s.setFsm f).srcLen = s.srcLen := rfl
@[simp] theorem State.setFsm_dstCap (s : State) (f : Fsm) : (s.setFsm f).dstCap = s.dstCap := rfl
@[simp] theorem State.setFsm_srcAddr (s : State) (f : Fsm) (i : Nat) : (s.setFsm f).srcAddr i = s.srcAddr i := rfl
@[simp] theorem State.setFsm_dstAddr (s : State) (f : Fsm) (i : Nat) : (s.setFsm f).dstAddr i = s.dstAddr i := rfl
@[simp] theorem State.setFsm_inSpace (s : State) (f : Fsm) : (s.setFsm f).inSpace = s.inSpace := rfl
@[simp] theorem State.setFsm_overlap (s : State) (f : Fsm) : (s.setFsm f).overlap = s.overlap := rfl
@[simp] theorem State.setFsm_src (s : State) (f : Fsm) (i : Nat) : (s.setFsm f).src i = s.src i := rfl
@[simp] theorem State.setFsm_dst (s : State) (f : Fsm) (i : Nat) : (s.setFsm f).dst i = s.dst i := rfl

/-! ### `putDst` -/

@[simp] theorem State.putDst_csr (s : State) (b : Byte) : (s.putDst b).csr = s.csr := rfl
@[simp] theorem State.putDst_fsm (s : State) (b : Byte) : (s.putDst b).fsm = s.fsm := rfl
@[simp] theorem State.putDst_dp (s : State) (b : Byte) : (s.putDst b).dp = { s.dp with op := s.dp.op + 1 } := rfl
@[simp] theorem State.putDst_tbl (s : State) (b : Byte) : (s.putDst b).tbl = s.tbl := rfl
@[simp] theorem State.putDst_mem (s : State) (b : Byte) : (s.putDst b).mem = Store.write s.mem (s.dstAddr s.dp.op) b := rfl
@[simp] theorem State.putDst_raced (s : State) (b : Byte) : (s.putDst b).raced = s.raced := rfl
@[simp] theorem State.putDst_flight (s : State) (b : Byte) : (s.putDst b).flight = s.flight := rfl
@[simp] theorem State.putDst_host (s : State) (b : Byte) : (s.putDst b).host = s.host := rfl
@[simp] theorem State.putDst_rdata (s : State) (b : Byte) : (s.putDst b).rdata = s.rdata := rfl
@[simp] theorem State.putDst_draws (s : State) (b : Byte) : (s.putDst b).draws = s.draws := rfl
@[simp] theorem State.putDst_srcLen (s : State) (b : Byte) : (s.putDst b).srcLen = s.srcLen := rfl
@[simp] theorem State.putDst_dstCap (s : State) (b : Byte) : (s.putDst b).dstCap = s.dstCap := rfl
@[simp] theorem State.putDst_srcAddr (s : State) (b : Byte) (i : Nat) : (s.putDst b).srcAddr i = s.srcAddr i := rfl
@[simp] theorem State.putDst_dstAddr (s : State) (b : Byte) (i : Nat) : (s.putDst b).dstAddr i = s.dstAddr i := rfl
@[simp] theorem State.putDst_inSpace (s : State) (b : Byte) : (s.putDst b).inSpace = s.inSpace := rfl
@[simp] theorem State.putDst_overlap (s : State) (b : Byte) : (s.putDst b).overlap = s.overlap := rfl

/-! ### `latchCount` -/

@[simp] theorem State.latchCount_csr (s : State) (n : Nat) : (s.latchCount n).csr = s.csr := rfl
@[simp] theorem State.latchCount_fsm (s : State) (n : Nat) : (s.latchCount n).fsm = s.fsm := rfl
@[simp] theorem State.latchCount_dp (s : State) (n : Nat) : (s.latchCount n).dp = { s.dp with n := n } := rfl
@[simp] theorem State.latchCount_tbl (s : State) (n : Nat) : (s.latchCount n).tbl = s.tbl := rfl
@[simp] theorem State.latchCount_mem (s : State) (n : Nat) : (s.latchCount n).mem = s.mem := rfl
@[simp] theorem State.latchCount_raced (s : State) (n : Nat) : (s.latchCount n).raced = s.raced := rfl
@[simp] theorem State.latchCount_flight (s : State) (n : Nat) : (s.latchCount n).flight = s.flight := rfl
@[simp] theorem State.latchCount_host (s : State) (n : Nat) : (s.latchCount n).host = s.host := rfl
@[simp] theorem State.latchCount_rdata (s : State) (n : Nat) : (s.latchCount n).rdata = s.rdata := rfl
@[simp] theorem State.latchCount_draws (s : State) (n : Nat) : (s.latchCount n).draws = s.draws := rfl
@[simp] theorem State.latchCount_srcLen (s : State) (n : Nat) : (s.latchCount n).srcLen = s.srcLen := rfl
@[simp] theorem State.latchCount_dstCap (s : State) (n : Nat) : (s.latchCount n).dstCap = s.dstCap := rfl
@[simp] theorem State.latchCount_srcAddr (s : State) (n : Nat) (i : Nat) : (s.latchCount n).srcAddr i = s.srcAddr i := rfl
@[simp] theorem State.latchCount_dstAddr (s : State) (n : Nat) (i : Nat) : (s.latchCount n).dstAddr i = s.dstAddr i := rfl
@[simp] theorem State.latchCount_inSpace (s : State) (n : Nat) : (s.latchCount n).inSpace = s.inSpace := rfl
@[simp] theorem State.latchCount_overlap (s : State) (n : Nat) : (s.latchCount n).overlap = s.overlap := rfl
@[simp] theorem State.latchCount_src (s : State) (n : Nat) (i : Nat) : (s.latchCount n).src i = s.src i := rfl
@[simp] theorem State.latchCount_dst (s : State) (n : Nat) (i : Nat) : (s.latchCount n).dst i = s.dst i := rfl

/-! ### `latchCopy` -/

@[simp] theorem State.latchCopy_csr (s : State) (len dist : Nat) (t : BitVec 2) : (s.latchCopy len dist t).csr = s.csr := rfl
@[simp] theorem State.latchCopy_fsm (s : State) (len dist : Nat) (t : BitVec 2) : (s.latchCopy len dist t).fsm = s.fsm := rfl
@[simp] theorem State.latchCopy_dp (s : State) (len dist : Nat) (t : BitVec 2) : (s.latchCopy len dist t).dp = { s.dp with len := len, dist := dist, trail := t } := rfl
@[simp] theorem State.latchCopy_tbl (s : State) (len dist : Nat) (t : BitVec 2) : (s.latchCopy len dist t).tbl = s.tbl := rfl
@[simp] theorem State.latchCopy_mem (s : State) (len dist : Nat) (t : BitVec 2) : (s.latchCopy len dist t).mem = s.mem := rfl
@[simp] theorem State.latchCopy_raced (s : State) (len dist : Nat) (t : BitVec 2) : (s.latchCopy len dist t).raced = s.raced := rfl
@[simp] theorem State.latchCopy_flight (s : State) (len dist : Nat) (t : BitVec 2) : (s.latchCopy len dist t).flight = s.flight := rfl
@[simp] theorem State.latchCopy_host (s : State) (len dist : Nat) (t : BitVec 2) : (s.latchCopy len dist t).host = s.host := rfl
@[simp] theorem State.latchCopy_rdata (s : State) (len dist : Nat) (t : BitVec 2) : (s.latchCopy len dist t).rdata = s.rdata := rfl
@[simp] theorem State.latchCopy_draws (s : State) (len dist : Nat) (t : BitVec 2) : (s.latchCopy len dist t).draws = s.draws := rfl
@[simp] theorem State.latchCopy_srcLen (s : State) (len dist : Nat) (t : BitVec 2) : (s.latchCopy len dist t).srcLen = s.srcLen := rfl
@[simp] theorem State.latchCopy_dstCap (s : State) (len dist : Nat) (t : BitVec 2) : (s.latchCopy len dist t).dstCap = s.dstCap := rfl
@[simp] theorem State.latchCopy_srcAddr (s : State) (len dist : Nat) (t : BitVec 2) (i : Nat) : (s.latchCopy len dist t).srcAddr i = s.srcAddr i := rfl
@[simp] theorem State.latchCopy_dstAddr (s : State) (len dist : Nat) (t : BitVec 2) (i : Nat) : (s.latchCopy len dist t).dstAddr i = s.dstAddr i := rfl
@[simp] theorem State.latchCopy_inSpace (s : State) (len dist : Nat) (t : BitVec 2) : (s.latchCopy len dist t).inSpace = s.inSpace := rfl
@[simp] theorem State.latchCopy_overlap (s : State) (len dist : Nat) (t : BitVec 2) : (s.latchCopy len dist t).overlap = s.overlap := rfl
@[simp] theorem State.latchCopy_src (s : State) (len dist : Nat) (t : BitVec 2) (i : Nat) : (s.latchCopy len dist t).src i = s.src i := rfl
@[simp] theorem State.latchCopy_dst (s : State) (len dist : Nat) (t : BitVec 2) (i : Nat) : (s.latchCopy len dist t).dst i = s.dst i := rfl

/-! ### `terminate` -/

@[simp] theorem State.terminate_fsm (s : State) (e : ErrorCode) : (s.terminate e).fsm = .idle := rfl
@[simp] theorem State.terminate_dp (s : State) (e : ErrorCode) : (s.terminate e).dp = s.dp := rfl
@[simp] theorem State.terminate_tbl (s : State) (e : ErrorCode) : (s.terminate e).tbl = s.tbl := rfl
@[simp] theorem State.terminate_mem (s : State) (e : ErrorCode) : (s.terminate e).mem = s.mem := rfl
@[simp] theorem State.terminate_raced (s : State) (e : ErrorCode) : (s.terminate e).raced = false := rfl
@[simp] theorem State.terminate_flight (s : State) (e : ErrorCode) : (s.terminate e).flight = some s.endFlight := rfl
@[simp] theorem State.terminate_host (s : State) (e : ErrorCode) : (s.terminate e).host = s.host := rfl
@[simp] theorem State.terminate_rdata (s : State) (e : ErrorCode) : (s.terminate e).rdata = s.rdata := rfl
@[simp] theorem State.terminate_draws (s : State) (e : ErrorCode) : (s.terminate e).draws = s.draws := rfl
@[simp] theorem State.terminate_srcLen (s : State) (e : ErrorCode) : (s.terminate e).srcLen = s.srcLen := rfl
@[simp] theorem State.terminate_dstCap (s : State) (e : ErrorCode) : (s.terminate e).dstCap = s.dstCap := rfl
@[simp] theorem State.terminate_srcAddr (s : State) (e : ErrorCode) (i : Nat) : (s.terminate e).srcAddr i = s.srcAddr i := rfl
@[simp] theorem State.terminate_dstAddr (s : State) (e : ErrorCode) (i : Nat) : (s.terminate e).dstAddr i = s.dstAddr i := rfl
@[simp] theorem State.terminate_inSpace (s : State) (e : ErrorCode) : (s.terminate e).inSpace = s.inSpace := rfl
@[simp] theorem State.terminate_overlap (s : State) (e : ErrorCode) : (s.terminate e).overlap = s.overlap := rfl
@[simp] theorem State.terminate_src (s : State) (e : ErrorCode) (i : Nat) : (s.terminate e).src i = s.src i := rfl
@[simp] theorem State.terminate_dst (s : State) (e : ErrorCode) (i : Nat) : (s.terminate e).dst i = s.dst i := rfl

/-! ### `clearDone` -/

@[simp] theorem State.clearDone_csr (s : State) : (s.clearDone).csr = { s.csr with done := false } := rfl
@[simp] theorem State.clearDone_fsm (s : State) : (s.clearDone).fsm = s.fsm := rfl
@[simp] theorem State.clearDone_dp (s : State) : (s.clearDone).dp = s.dp := rfl
@[simp] theorem State.clearDone_tbl (s : State) : (s.clearDone).tbl = s.tbl := rfl
@[simp] theorem State.clearDone_mem (s : State) : (s.clearDone).mem = s.mem := rfl
@[simp] theorem State.clearDone_raced (s : State) : (s.clearDone).raced = s.raced := rfl
@[simp] theorem State.clearDone_flight (s : State) : (s.clearDone).flight = s.flight := rfl
@[simp] theorem State.clearDone_host (s : State) : (s.clearDone).host = s.host := rfl
@[simp] theorem State.clearDone_rdata (s : State) : (s.clearDone).rdata = s.rdata := rfl
@[simp] theorem State.clearDone_draws (s : State) : (s.clearDone).draws = s.draws := rfl
@[simp] theorem State.clearDone_srcLen (s : State) : (s.clearDone).srcLen = s.srcLen := rfl
@[simp] theorem State.clearDone_dstCap (s : State) : (s.clearDone).dstCap = s.dstCap := rfl
@[simp] theorem State.clearDone_srcAddr (s : State) (i : Nat) : (s.clearDone).srcAddr i = s.srcAddr i := rfl
@[simp] theorem State.clearDone_dstAddr (s : State) (i : Nat) : (s.clearDone).dstAddr i = s.dstAddr i := rfl
@[simp] theorem State.clearDone_inSpace (s : State) : (s.clearDone).inSpace = s.inSpace := rfl
@[simp] theorem State.clearDone_overlap (s : State) : (s.clearDone).overlap = s.overlap := rfl
@[simp] theorem State.clearDone_src (s : State) (i : Nat) : (s.clearDone).src i = s.src i := rfl
@[simp] theorem State.clearDone_dst (s : State) (i : Nat) : (s.clearDone).dst i = s.dst i := rfl

/-! ### `setIe` -/

@[simp] theorem State.setIe_csr (s : State) (ie : Bool) : (s.setIe ie).csr = { s.csr with ie := ie } := rfl
@[simp] theorem State.setIe_fsm (s : State) (ie : Bool) : (s.setIe ie).fsm = s.fsm := rfl
@[simp] theorem State.setIe_dp (s : State) (ie : Bool) : (s.setIe ie).dp = s.dp := rfl
@[simp] theorem State.setIe_tbl (s : State) (ie : Bool) : (s.setIe ie).tbl = s.tbl := rfl
@[simp] theorem State.setIe_mem (s : State) (ie : Bool) : (s.setIe ie).mem = s.mem := rfl
@[simp] theorem State.setIe_raced (s : State) (ie : Bool) : (s.setIe ie).raced = s.raced := rfl
@[simp] theorem State.setIe_flight (s : State) (ie : Bool) : (s.setIe ie).flight = s.flight := rfl
@[simp] theorem State.setIe_host (s : State) (ie : Bool) : (s.setIe ie).host = s.host := rfl
@[simp] theorem State.setIe_rdata (s : State) (ie : Bool) : (s.setIe ie).rdata = s.rdata := rfl
@[simp] theorem State.setIe_draws (s : State) (ie : Bool) : (s.setIe ie).draws = s.draws := rfl
@[simp] theorem State.setIe_srcLen (s : State) (ie : Bool) : (s.setIe ie).srcLen = s.srcLen := rfl
@[simp] theorem State.setIe_dstCap (s : State) (ie : Bool) : (s.setIe ie).dstCap = s.dstCap := rfl
@[simp] theorem State.setIe_srcAddr (s : State) (ie : Bool) (i : Nat) : (s.setIe ie).srcAddr i = s.srcAddr i := rfl
@[simp] theorem State.setIe_dstAddr (s : State) (ie : Bool) (i : Nat) : (s.setIe ie).dstAddr i = s.dstAddr i := rfl
@[simp] theorem State.setIe_inSpace (s : State) (ie : Bool) : (s.setIe ie).inSpace = s.inSpace := rfl
@[simp] theorem State.setIe_overlap (s : State) (ie : Bool) : (s.setIe ie).overlap = s.overlap := rfl
@[simp] theorem State.setIe_src (s : State) (ie : Bool) (i : Nat) : (s.setIe ie).src i = s.src i := rfl
@[simp] theorem State.setIe_dst (s : State) (ie : Bool) (i : Nat) : (s.setIe ie).dst i = s.dst i := rfl

/-! ### `storeCtrl` -/

@[simp] theorem State.storeCtrl_csr (s : State) (cmd : BitVec 2) (ie strict : Bool) : (s.storeCtrl cmd ie strict).csr = { s.csr with cmd := cmd, ie := ie, strict := strict } := rfl
@[simp] theorem State.storeCtrl_fsm (s : State) (cmd : BitVec 2) (ie strict : Bool) : (s.storeCtrl cmd ie strict).fsm = s.fsm := rfl
@[simp] theorem State.storeCtrl_dp (s : State) (cmd : BitVec 2) (ie strict : Bool) : (s.storeCtrl cmd ie strict).dp = s.dp := rfl
@[simp] theorem State.storeCtrl_tbl (s : State) (cmd : BitVec 2) (ie strict : Bool) : (s.storeCtrl cmd ie strict).tbl = s.tbl := rfl
@[simp] theorem State.storeCtrl_mem (s : State) (cmd : BitVec 2) (ie strict : Bool) : (s.storeCtrl cmd ie strict).mem = s.mem := rfl
@[simp] theorem State.storeCtrl_raced (s : State) (cmd : BitVec 2) (ie strict : Bool) : (s.storeCtrl cmd ie strict).raced = s.raced := rfl
@[simp] theorem State.storeCtrl_flight (s : State) (cmd : BitVec 2) (ie strict : Bool) : (s.storeCtrl cmd ie strict).flight = s.flight := rfl
@[simp] theorem State.storeCtrl_host (s : State) (cmd : BitVec 2) (ie strict : Bool) : (s.storeCtrl cmd ie strict).host = s.host := rfl
@[simp] theorem State.storeCtrl_rdata (s : State) (cmd : BitVec 2) (ie strict : Bool) : (s.storeCtrl cmd ie strict).rdata = s.rdata := rfl
@[simp] theorem State.storeCtrl_draws (s : State) (cmd : BitVec 2) (ie strict : Bool) : (s.storeCtrl cmd ie strict).draws = s.draws := rfl
@[simp] theorem State.storeCtrl_srcLen (s : State) (cmd : BitVec 2) (ie strict : Bool) : (s.storeCtrl cmd ie strict).srcLen = s.srcLen := rfl
@[simp] theorem State.storeCtrl_dstCap (s : State) (cmd : BitVec 2) (ie strict : Bool) : (s.storeCtrl cmd ie strict).dstCap = s.dstCap := rfl
@[simp] theorem State.storeCtrl_srcAddr (s : State) (cmd : BitVec 2) (ie strict : Bool) (i : Nat) : (s.storeCtrl cmd ie strict).srcAddr i = s.srcAddr i := rfl
@[simp] theorem State.storeCtrl_dstAddr (s : State) (cmd : BitVec 2) (ie strict : Bool) (i : Nat) : (s.storeCtrl cmd ie strict).dstAddr i = s.dstAddr i := rfl
@[simp] theorem State.storeCtrl_inSpace (s : State) (cmd : BitVec 2) (ie strict : Bool) : (s.storeCtrl cmd ie strict).inSpace = s.inSpace := rfl
@[simp] theorem State.storeCtrl_overlap (s : State) (cmd : BitVec 2) (ie strict : Bool) : (s.storeCtrl cmd ie strict).overlap = s.overlap := rfl
@[simp] theorem State.storeCtrl_src (s : State) (cmd : BitVec 2) (ie strict : Bool) (i : Nat) : (s.storeCtrl cmd ie strict).src i = s.src i := rfl
@[simp] theorem State.storeCtrl_dst (s : State) (cmd : BitVec 2) (ie strict : Bool) (i : Nat) : (s.storeCtrl cmd ie strict).dst i = s.dst i := rfl

/-! ### `acceptStart` -/

@[simp] theorem State.acceptStart_csr (s : State) (cmd : BitVec 2) (ie strict : Bool) (f : Fsm) : (s.acceptStart cmd ie strict f).csr = { s.csr with cmd := cmd, ie := ie, strict := strict, done := false, errcode := 0 } := rfl
@[simp] theorem State.acceptStart_fsm (s : State) (cmd : BitVec 2) (ie strict : Bool) (f : Fsm) : (s.acceptStart cmd ie strict f).fsm = f := rfl
@[simp] theorem State.acceptStart_dp (s : State) (cmd : BitVec 2) (ie strict : Bool) (f : Fsm) : (s.acceptStart cmd ie strict f).dp = s.dp := rfl
@[simp] theorem State.acceptStart_tbl (s : State) (cmd : BitVec 2) (ie strict : Bool) (f : Fsm) : (s.acceptStart cmd ie strict f).tbl = s.tbl := rfl
@[simp] theorem State.acceptStart_mem (s : State) (cmd : BitVec 2) (ie strict : Bool) (f : Fsm) : (s.acceptStart cmd ie strict f).mem = s.mem := rfl
@[simp] theorem State.acceptStart_raced (s : State) (cmd : BitVec 2) (ie strict : Bool) (f : Fsm) : (s.acceptStart cmd ie strict f).raced = false := rfl
@[simp] theorem State.acceptStart_flight (s : State) (cmd : BitVec 2) (ie strict : Bool) (f : Fsm) : (s.acceptStart cmd ie strict f).flight = none := rfl
@[simp] theorem State.acceptStart_host (s : State) (cmd : BitVec 2) (ie strict : Bool) (f : Fsm) : (s.acceptStart cmd ie strict f).host = s.host := rfl
@[simp] theorem State.acceptStart_rdata (s : State) (cmd : BitVec 2) (ie strict : Bool) (f : Fsm) : (s.acceptStart cmd ie strict f).rdata = s.rdata := rfl
@[simp] theorem State.acceptStart_draws (s : State) (cmd : BitVec 2) (ie strict : Bool) (f : Fsm) : (s.acceptStart cmd ie strict f).draws = s.draws := rfl
@[simp] theorem State.acceptStart_srcLen (s : State) (cmd : BitVec 2) (ie strict : Bool) (f : Fsm) : (s.acceptStart cmd ie strict f).srcLen = s.srcLen := rfl
@[simp] theorem State.acceptStart_dstCap (s : State) (cmd : BitVec 2) (ie strict : Bool) (f : Fsm) : (s.acceptStart cmd ie strict f).dstCap = s.dstCap := rfl
@[simp] theorem State.acceptStart_srcAddr (s : State) (cmd : BitVec 2) (ie strict : Bool) (f : Fsm) (i : Nat) : (s.acceptStart cmd ie strict f).srcAddr i = s.srcAddr i := rfl
@[simp] theorem State.acceptStart_dstAddr (s : State) (cmd : BitVec 2) (ie strict : Bool) (f : Fsm) (i : Nat) : (s.acceptStart cmd ie strict f).dstAddr i = s.dstAddr i := rfl
@[simp] theorem State.acceptStart_inSpace (s : State) (cmd : BitVec 2) (ie strict : Bool) (f : Fsm) : (s.acceptStart cmd ie strict f).inSpace = s.inSpace := rfl
@[simp] theorem State.acceptStart_overlap (s : State) (cmd : BitVec 2) (ie strict : Bool) (f : Fsm) : (s.acceptStart cmd ie strict f).overlap = s.overlap := rfl
@[simp] theorem State.acceptStart_src (s : State) (cmd : BitVec 2) (ie strict : Bool) (f : Fsm) (i : Nat) : (s.acceptStart cmd ie strict f).src i = s.src i := rfl
@[simp] theorem State.acceptStart_dst (s : State) (cmd : BitVec 2) (ie strict : Bool) (f : Fsm) (i : Nat) : (s.acceptStart cmd ie strict f).dst i = s.dst i := rfl

/-! ### The CSR fields a termination writes -/

@[simp] theorem State.terminate_done (s : State) (e : ErrorCode) : (s.terminate e).csr.done = true := rfl
@[simp] theorem State.terminate_errcode (s : State) (e : ErrorCode) : (s.terminate e).csr.errcode = e.code := rfl
@[simp] theorem State.terminate_outLen (s : State) (e : ErrorCode) :
    (s.terminate e).csr.outLen = BitVec.ofNat 32 (s.results e).1 := rfl
@[simp] theorem State.terminate_inUsed (s : State) (e : ErrorCode) :
    (s.terminate e).csr.inUsed = BitVec.ofNat 32 (s.results e).2 := rfl
@[simp] theorem State.terminate_initOk (s : State) (e : ErrorCode) :
    (s.terminate e).csr.initOk = if s.fsm = .runInit then decide (e = .ok) else s.csr.initOk := rfl
@[simp] theorem State.terminate_ie (s : State) (e : ErrorCode) : (s.terminate e).csr.ie = s.csr.ie := rfl
@[simp] theorem State.terminate_strict (s : State) (e : ErrorCode) : (s.terminate e).csr.strict = s.csr.strict := rfl
@[simp] theorem State.terminate_cmd (s : State) (e : ErrorCode) : (s.terminate e).csr.cmd = s.csr.cmd := rfl

/-! ### Results -/

@[simp] theorem Res.ok_andThen (s : State) (f : State → Res) : (Res.ok s).andThen f = f s := rfl
@[simp] theorem Res.raise_andThen (e : ErrorCode) (s : State) (f : State → Res) : (Res.raise e s).andThen f = .raise e s := rfl
@[simp] theorem Res.settle_ok (s : State) : (Res.ok s).settle = s := rfl
@[simp] theorem Res.settle_raise (e : ErrorCode) (s : State) : (Res.raise e s).settle = s.terminate e := rfl

/-- A sequence of two primitives goes on only if both do. -/
theorem Res.andThen_eq_ok {r : Res} {f : State → Res} {s' : State} :
    r.andThen f = .ok s' ↔ ∃ s, r = .ok s ∧ f s = .ok s' := by
  cases r <;> simp

/-- A sequence of two primitives raises an error if the first does, or if the second does after it. -/
theorem Res.andThen_eq_raise {r : Res} {f : State → Res} {e : ErrorCode} {s' : State} :
    r.andThen f = .raise e s' ↔ r = .raise e s' ∨ ∃ s, r = .ok s ∧ f s = .raise e s' := by
  cases r <;> simp

theorem Res.andThen_assoc (r : Res) (f g : State → Res) :
    (r.andThen f).andThen g = r.andThen fun s => (f s).andThen g := by
  cases r <;> rfl

end Sys2Proof.Machine
end

