-- ==== Sys2Proof/Laws/Ops.lean ====
section
/-! SUPPORT. For each shared operation of Machine/Ops.lean, what it can do, said once. -/

namespace Sys2Proof.Machine

/-! ## Writing at the output cursor -/

/-- `s'` is `s` but for DST bytes written from `op` on: only memory and `op` differ, and memory only at offsets from the old `op` to the new. -/
structure Wrote (s s' : State) : Prop where
  shape : s' = { s with mem := s'.mem, dp := { s.dp with op := s'.dp.op } }
  le : s.dp.op ≤ s'.dp.op
  wf : Store.wf s.mem = true → Store.wf s'.mem = true
  below : ∀ hi, Store.below hi s.mem = true → s.dstAddr s'.dp.op ≤ hi → Store.below hi s'.mem = true
  frame : Store.wf s.mem = true → ∀ a, a < s.dstAddr s.dp.op ∨ s.dstAddr s'.dp.op ≤ a →
    Store.read s'.mem a = Store.read s.mem a

theorem Wrote.rfl' (s : State) : Wrote s s :=
  ⟨rfl, Nat.le_refl _, id, fun _ h _ => h, fun _ _ _ => rfl⟩

theorem Wrote.csr {s s' : State} (h : Wrote s s') : s'.csr = s.csr := by rw [h.shape]
theorem Wrote.fsm {s s' : State} (h : Wrote s s') : s'.fsm = s.fsm := by rw [h.shape]
theorem Wrote.tbl {s s' : State} (h : Wrote s s') : s'.tbl = s.tbl := by rw [h.shape]
theorem Wrote.raced {s s' : State} (h : Wrote s s') : s'.raced = s.raced := by rw [h.shape]
theorem Wrote.flight {s s' : State} (h : Wrote s s') : s'.flight = s.flight := by rw [h.shape]
theorem Wrote.host {s s' : State} (h : Wrote s s') : s'.host = s.host := by rw [h.shape]
theorem Wrote.dp {s s' : State} (h : Wrote s s') : s'.dp = { s.dp with op := s'.dp.op } := by
  have := congrArg State.dp h.shape
  exact this

theorem Wrote.dstAddr {s s' : State} (h : Wrote s s') (i : Nat) : s'.dstAddr i = s.dstAddr i := by
  simp only [State.dstAddr, h.csr]

theorem Wrote.srcAddr {s s' : State} (h : Wrote s s') (i : Nat) : s'.srcAddr i = s.srcAddr i := by
  simp only [State.srcAddr, h.csr]

theorem Wrote.dstCap {s s' : State} (h : Wrote s s') : s'.dstCap = s.dstCap := by
  simp only [State.dstCap, h.csr]

theorem Wrote.trans {s s' s'' : State} (h : Wrote s s') (h' : Wrote s' s'') : Wrote s s'' where
  shape := by
    have e := h'.shape
    have d := h.dp
    have c := h.csr; have f := h.fsm; have tb := h.tbl; have r := h.raced; have fl := h.flight; have ho := h.host
    have rd : s'.rdata = s.rdata := by rw [h.shape]
    have dr : s'.draws = s.draws := by rw [h.shape]
    rw [d, c, f, tb, r, fl, ho, rd, dr] at e
    exact e
  le := h.le.trans h'.le
  wf hs := h'.wf (h.wf hs)
  below hi hb hle := by
    refine h'.below hi (h.below hi hb ?_) (by rwa [h.dstAddr])
    exact Nat.le_trans (by simp only [State.dstAddr]; have := h'.le; omega) hle
  frame hs a ha := by
    have h1 := h.le
    have h2 := h'.le
    have e : s.dstAddr s'.dp.op = s'.dstAddr s'.dp.op := (h.dstAddr _).symm
    have e2 := h.dstAddr s''.dp.op
    simp only [State.dstAddr] at *
    rw [h'.frame (h.wf hs) a (by simp only [State.dstAddr]; omega), h.frame hs a (by simp only [State.dstAddr]; omega)]

theorem putDst_wrote (s : State) (b : Byte) : Wrote s (s.putDst b) where
  shape := rfl
  le := Nat.le_succ _
  wf h := Store.wf_write h _ _
  below hi h hle := Store.below_write h (by simp [State.dstAddr] at *; omega) _
  frame h a ha := Store.read_write_other h _ (by simp [State.dstAddr] at *; omega)

theorem putDst_reads (s : State) (b : Byte) (h : Store.wf s.mem = true) :
    Store.read (s.putDst b).mem (s.dstAddr s.dp.op) = b := Store.read_write_same h _ _

/-! ## Decoder copies (R141, R142) -/

/-- What the loop of `CopyLiterals` does: both cursors advance by `n`, only DST bytes from `op` on are written, and where SRC does not meet
them they are the SRC bytes. -/
theorem copyLits_spec (n : Nat) (s : State) (h : Store.wf s.mem = true) :
    ∃ m, copyLits n s = { s with mem := m, dp := { s.dp with ip := s.dp.ip + n, op := s.dp.op + n } } ∧
      Store.wf m = true ∧
      (∀ hi, Store.below hi s.mem = true → s.dstAddr (s.dp.op + n) ≤ hi → Store.below hi m = true) ∧
      (∀ a, (∀ j, j < n → a ≠ s.dstAddr (s.dp.op + j)) → Store.read m a = Store.read s.mem a) ∧
      ((∀ j k, j < n → k < n → s.srcAddr (s.dp.ip + j) ≠ s.dstAddr (s.dp.op + k)) →
        ∀ j, j < n → Store.read m (s.dstAddr (s.dp.op + j)) = s.src (s.dp.ip + j)) := by
  induction n generalizing s with
  | zero => exact ⟨s.mem, rfl, h, fun _ hb _ => hb, fun _ _ => rfl, fun _ j hj => absurd hj (Nat.not_lt_zero j)⟩
  | succ n ih =>
    obtain ⟨m, hm, hwf, hbelow, hout, hin⟩ := ih ((s.putDst (s.src s.dp.ip)).setIp (s.dp.ip + 1)) (Store.wf_write h _ _)
    have hop : ∀ j, s.dp.op + 1 + j = s.dp.op + (j + 1) := fun j => by omega
    have hip : ∀ j, s.dp.ip + 1 + j = s.dp.ip + (j + 1) := fun j => by omega
    refine ⟨m, ?_, hwf, ?_, ?_, ?_⟩
    · rw [copyLits, hm]
      simp [hop n, hip n, State.putDst, State.setIp]
    · intro hi hb hle
      refine hbelow hi ?_ ?_
      · exact Store.below_write hb (by simp [State.dstAddr] at *; omega) _
      · simpa [hop n] using hle
    · intro a ha
      rw [hout a]
      · exact Store.read_write_other h _ (by simpa using ha 0 (by omega))
      · intro j hj
        simpa [hop j] using ha (j + 1) (by omega)
    · intro hd j hj
      cases j with
      | zero =>
        rw [hout]
        · simpa using Store.read_write_same h _ _
        · intro k hk
          simp [State.dstAddr]
          omega
      | succ j =>
        have := hin (fun j k hj hk => by simpa [hop, hip] using hd (j + 1) (k + 1) (by omega) (by omega)) j (by omega)
        simp only [State.setIp_dstAddr, State.putDst_dstAddr, State.setIp_dp, State.putDst_dp, hop, hip] at this
        rw [this]
        simp only [State.src, State.setIp_srcAddr, State.putDst_srcAddr, State.setIp_mem, State.putDst_mem]
        exact Store.read_write_other h _ (by simpa using hd (j + 1) 0 (by omega) (by omega))

/-- `CopyLiterals` raises OutputOverflow, or InputOverrun, with nothing written, or copies `n` bytes (R142). -/
theorem copyLiterals_cases (n : Nat) (s : State) :
    (s.dstCap - s.dp.op < n ∧ copyLiterals n s = .raise .outputOverflow s) ∨
    (n ≤ s.dstCap - s.dp.op ∧ s.srcLen - s.dp.ip < n ∧ copyLiterals n s = .raise .inputOverrun s) ∨
    (n ≤ s.dstCap - s.dp.op ∧ n ≤ s.srcLen - s.dp.ip ∧ copyLiterals n s = .ok (copyLits n s)) := by
  unfold copyLiterals
  split
  · exact .inl ⟨by assumption, rfl⟩
  · split
    · exact .inr (.inl ⟨by omega, by assumption, rfl⟩)
    · exact .inr (.inr ⟨by omega, by omega, rfl⟩)

theorem copyBack_wrote (dist len : Nat) (s : State) :
    Wrote s (copyBack dist len s) ∧ (copyBack dist len s).dp.op = s.dp.op + len := by
  induction len generalizing s with
  | zero => exact ⟨Wrote.rfl' s, rfl⟩
  | succ len ih =>
    have := ih (s.putDst (s.dst (s.dp.op - dist)))
    refine ⟨(putDst_wrote s _).trans this.1, ?_⟩
    rw [copyBack, this.2]
    simp
    omega

/-- What the loop of `CopyMatch` does: DST bytes from `op` on are written, and after it each equals the byte `dist` before it (R141). -/
theorem copyBack_reads (dist len : Nat) (s : State) (h : Store.wf s.mem = true) (h1 : 1 ≤ dist) (hd : dist ≤ s.dp.op)
    (j : Nat) (hj : j < len) :
    Store.read (copyBack dist len s).mem (s.dstAddr (s.dp.op + j)) =
      Store.read (copyBack dist len s).mem (s.dstAddr (s.dp.op + j - dist)) := by
  induction len generalizing s j with
  | zero => exact absurd hj (Nat.not_lt_zero j)
  | succ len ih =>
    have hw := (copyBack_wrote dist len (s.putDst (s.dst (s.dp.op - dist)))).1
    have hwf : Store.wf (s.putDst (s.dst (s.dp.op - dist))).mem = true := Store.wf_write h _ _
    cases j with
    | zero =>
      rw [copyBack, Nat.add_zero, hw.frame hwf _ (.inl (by simp [State.dstAddr])),
        hw.frame hwf _ (.inl (by simp [State.dstAddr])), putDst_reads s _ h]
      exact (Store.read_write_other h _ (by simp [State.dstAddr]; omega)).symm
    | succ j =>
      have := ih (s.putDst (s.dst (s.dp.op - dist))) hwf (by simp; omega) j (by omega)
      simpa [copyBack, Nat.add_assoc, Nat.add_comm 1 j] using this

/-- `CopyMatch` raises LookbehindOverrun, or OutputOverflow, with nothing written, or copies `len` bytes (R141). -/
theorem copyMatch_cases (dist len : Nat) (s : State) :
    (s.dp.op < dist ∧ copyMatch dist len s = .raise .lookbehindOverrun s) ∨
    (dist ≤ s.dp.op ∧ s.dstCap - s.dp.op < len ∧ copyMatch dist len s = .raise .outputOverflow s) ∨
    (dist ≤ s.dp.op ∧ len ≤ s.dstCap - s.dp.op ∧ copyMatch dist len s = .ok (copyBack dist len s)) := by
  unfold copyMatch
  split
  · exact .inl ⟨by assumption, rfl⟩
  · split
    · exact .inr (.inl ⟨by omega, by assumption, rfl⟩)
    · exact .inr (.inr ⟨by omega, by omega, rfl⟩)

/-! ## Compressor output (R139, R143, R147) -/

/-- `Emit` raises BufferOverflow with nothing written, or writes one byte (R143). -/
theorem emit_cases (b : Byte) (s : State) :
    (s.dp.op = s.dstCap ∧ emit b s = .raise .bufferOverflow s) ∨ (s.dp.op ≠ s.dstCap ∧ emit b s = .ok (s.putDst b)) := by
  unfold emit
  split
  · exact .inl ⟨by assumption, rfl⟩
  · exact .inr ⟨by assumption, rfl⟩

/-- Emitting a byte string writes all of it, or fills DST and raises BufferOverflow (R143, R167). -/
theorem emitAll_spec (bs : List Byte) (s : State) (hop : s.dp.op ≤ s.dstCap) :
    (∃ s', emitAll bs s = .ok s' ∧ Wrote s s' ∧ s'.dp.op = s.dp.op + bs.length ∧ s'.dp.op ≤ s.dstCap) ∨
    (∃ s', emitAll bs s = .raise .bufferOverflow s' ∧ Wrote s s' ∧ s'.dp.op = s.dstCap) := by
  induction bs generalizing s with
  | nil => exact .inl ⟨s, rfl, Wrote.rfl' s, rfl, hop⟩
  | cons b bs ih =>
    rcases emit_cases b s with ⟨he, hr⟩ | ⟨hne, hr⟩
    · exact .inr ⟨s, by simp [emitAll, hr], Wrote.rfl' s, he⟩
    · have hw := putDst_wrote s b
      rcases ih (s.putDst b) (by simp; omega) with ⟨s', h1, h2, h3, h4⟩ | ⟨s', h1, h2, h3⟩
      · exact .inl ⟨s', by simp [emitAll, hr, h1], hw.trans h2, by simp at h3 ⊢; omega, by simpa using h4⟩
      · exact .inr ⟨s', by simp [emitAll, hr, h1], hw.trans h2, by simpa using h3⟩

/-- The bytes a successful emission leaves in DST. -/
theorem emitAll_reads (bs : List Byte) (s s' : State) (h : Store.wf s.mem = true) (he : emitAll bs s = .ok s') (j : Nat)
    (hj : j < bs.length) : Store.read s'.mem (s.dstAddr (s.dp.op + j)) = bs[j] := by
  induction bs generalizing s j with
  | nil => exact absurd hj (Nat.not_lt_zero j)
  | cons b bs ih =>
    rcases emit_cases b s with ⟨hc, hr⟩ | ⟨hne, hr⟩
    · simp [emitAll, hr] at he
    · simp only [emitAll, hr, Res.ok_andThen] at he
      cases j with
      | zero =>
        have hwr : Wrote (s.putDst b) s' := by
          clear ih hj hr hne h
          generalize s.putDst b = u at he
          induction bs generalizing u with
          | nil => simp [emitAll] at he; subst he; exact Wrote.rfl' u
          | cons c cs ihc =>
            rcases emit_cases c u with ⟨_, hr⟩ | ⟨_, hr⟩
            · simp [emitAll, hr] at he
            · simp only [emitAll, hr, Res.ok_andThen] at he
              exact (putDst_wrote u c).trans (ihc _ he)
        rw [Nat.add_zero, hwr.frame (Store.wf_write h _ _) _ (.inl (by simp [State.dstAddr]))]
        exact putDst_reads s b h
      | succ j =>
        have := ih (s.putDst b) (Store.wf_write h _ _) he j (by simpa using hj)
        simpa [Nat.add_assoc, Nat.add_comm 1 j] using this

/-- Copying literals of SRC to the output does the same as `emitAll` (R147). -/
theorem compLiterals_spec (start n : Nat) (s : State) (hop : s.dp.op ≤ s.dstCap) :
    (∃ s', compLiterals start n s = .ok s' ∧ Wrote s s' ∧ s'.dp.op = s.dp.op + n ∧ s'.dp.op ≤ s.dstCap) ∨
    (∃ s', compLiterals start n s = .raise .bufferOverflow s' ∧ Wrote s s' ∧ s'.dp.op = s.dstCap) := by
  induction n generalizing start s with
  | zero => exact .inl ⟨s, rfl, Wrote.rfl' s, rfl, hop⟩
  | succ n ih =>
    rcases emit_cases (s.src start) s with ⟨he, hr⟩ | ⟨hne, hr⟩
    · exact .inr ⟨s, by simp [compLiterals, hr], Wrote.rfl' s, he⟩
    · have hw := putDst_wrote s (s.src start)
      rcases ih (start + 1) (s.putDst (s.src start)) (by simp; omega) with ⟨s', h1, h2, h3, h4⟩ | ⟨s', h1, h2, h3⟩
      · exact .inl ⟨s', by simp [compLiterals, hr, h1], hw.trans h2, by simp at h3 ⊢; omega, by simpa using h4⟩
      · exact .inr ⟨s', by simp [compLiterals, hr, h1], hw.trans h2, by simpa using h3⟩

/-- `Patch2` changes one byte of memory, two before the output cursor, and nothing else (R139). -/
theorem patch2_spec (t : Nat) (s : State) (h : Store.wf s.mem = true) :
    ∃ m, patch2 t s = { s with mem := m } ∧ Store.wf m = true ∧
      Store.read m (s.dstAddr (s.dp.op - 2)) = s.dst (s.dp.op - 2) ||| BitVec.ofNat 8 t ∧
      ∀ a, a ≠ s.dstAddr (s.dp.op - 2) → Store.read m a = Store.read s.mem a :=
  ⟨_, rfl, Store.wf_write h _ _, Store.read_write_same h _ _, fun _ ha => Store.read_write_other h _ ha⟩

/-! ## Starting a command (R26, R211) -/

/-- A CTRL write with START = 1 updates IE only while BUSY = 1, and starts the command otherwise. -/
theorem startCommand_cases (s : State) (cmd : BitVec 2) (ie strict : Bool) (f : Fsm) :
    (s.fsm ≠ .idle ∧ s.startCommand cmd ie strict f = s.setIe ie) ∨
    (s.fsm = .idle ∧ s.startCommand cmd ie strict f = s.acceptStart cmd ie strict f) := by
  unfold State.startCommand State.busy
  by_cases h : s.fsm = .idle
  · exact .inr ⟨h, by simp [h]⟩
  · exact .inl ⟨h, by simp [h]⟩

end Sys2Proof.Machine
end

