-- ==== Sys2Proof/Laws/PerInstr.lean ====
section
/-! SUPPORT. A fact about every instruction as syntax, one lemma per constructor: its encoding has the length R91 gives its header. -/

namespace Sys2Proof.Laws.HeaderLength

/-- The encoding of the instruction has the header's length (R91, R102). -/
def Statement (i : Instr) : Prop := (encode i).length = i.headerLength

theorem lenExt_length (len max : Nat) : (lenExt len max).length = if len ≤ max then 0 else extLength (len - max) := by
  unfold lenExt
  split
  · rfl
  · exact extBytes_length _

theorem litf (n : Nat) : Statement (.litf n) := rfl
theorem litShort (n : Nat) : Statement (.litShort n) := rfl
theorem litLong (n : Nat) : Statement (.litLong n) := by
  simp [Statement, encode, Instr.headerLength, extBytes_length]; omega
theorem m1s (dist : Nat) (t : BitVec 2) : Statement (.m1s dist t) := rfl
theorem m1l (dist : Nat) (t : BitVec 2) : Statement (.m1l dist t) := rfl
theorem m2 (len dist : Nat) (t : BitVec 2) : Statement (.m2 len dist t) := rfl
theorem m3 (len dist : Nat) (t : BitVec 2) : Statement (.m3 len dist t) := by
  simp only [Statement, encode, Instr.headerLength, List.length_cons, List.length_append, lenExt_length, List.length_nil]
  split <;> omega
theorem m4 (len dist : Nat) (t : BitVec 2) : Statement (.m4 len dist t) := by
  simp only [Statement, encode, Instr.headerLength, List.length_cons, List.length_append, lenExt_length, List.length_nil]
  split <;> omega
theorem eos (len : Nat) (t : BitVec 2) : Statement (.eos len t) := by
  simp only [Statement, encode, Instr.headerLength, List.length_cons, List.length_append, lenExt_length, List.length_nil]
  split <;> omega
theorem init (ie strict : Bool) : Statement (.init ie strict) := rfl
theorem compress (ie strict : Bool) : Statement (.compress ie strict) := rfl
theorem decompress (ie strict : Bool) : Statement (.decompress ie strict) := rfl
theorem reservedCmd3 (ie strict : Bool) : Statement (.reservedCmd3 ie strict) := rfl

end Sys2Proof.Laws.HeaderLength
end

