-- ==== Sys2Proof/Laws/Step.lean ====
section
/-! SUPPORT. What a step can do, said once: whose turn it is, and what the engine does at each stage. -/

namespace Sys2Proof.Machine

/-! ## The engine, stage by stage -/

theorem engineStep_idle {s : State} (h : s.fsm = .idle) : s.engineStep = .next s := by simp [State.engineStep, h]
theorem engineStep_init {s : State} (h : s.fsm = .runInit) : s.engineStep = .next s.initStep := by simp [State.engineStep, h]
theorem engineStep_checkCompress {s : State} (h : s.fsm = .runCompress .check) : s.engineStep = .next s.checkCompress := by
  simp [State.engineStep, h]
theorem engineStep_checkDecompress {s : State} (h : s.fsm = .runDecompress .check) : s.engineStep = .next s.checkDecompress := by
  simp [State.engineStep, h]
theorem engineStep_outer {s : State} (h : s.fsm = .runCompress .outer) : s.engineStep = s.running (.next s.outerStep) := by
  simp [State.engineStep, h]
theorem engineStep_next {s : State} (h : s.fsm = .runCompress .next) : s.engineStep = s.running (.next s.nextStep) := by
  simp [State.engineStep, h]
theorem engineStep_hit {s : State} (h : s.fsm = .runCompress .hit) : s.engineStep = s.running (.next s.hitStep.settle) := by
  simp [State.engineStep, h]
theorem engineStep_flush {s : State} (h : s.fsm = .runCompress .flush) : s.engineStep = s.running (.next s.flushStep.settle) := by
  simp [State.engineStep, h]
theorem engineStep_fetch {s : State} (h : s.fsm = .runDecompress .fetch) : s.engineStep = s.running s.fetchStep := by
  simp [State.engineStep, h]

/-- A stage past the checks faults outside the address space, ends a raced command, or goes on. -/
theorem running_cases (s : State) (k : Host.Outcome State Fault Refusal) :
    (s.inSpace = false ∧ s.running k = .fault .outsideAddressSpace) ∨
    (s.inSpace = true ∧ s.raced = true ∧ s.running k = .next s.raceEnd) ∨
    (s.inSpace = true ∧ s.raced = false ∧ s.running k = k) := by
  unfold State.running
  cases s.inSpace <;> cases s.raced <;> simp

theorem guarded_cases (s : State) (r : Res) :
    (s.inSpace = false ∧ s.guarded r = .fault .outsideAddressSpace) ∨ (s.inSpace = true ∧ s.guarded r = .next r.settle) := by
  unfold State.guarded
  cases s.inSpace <;> simp

/-! ## The stream -/

@[simp] theorem srcFrom_length (s : State) (k i : Nat) : (s.srcFrom k i).length = k := by
  induction k generalizing i with
  | zero => rfl
  | succ k ih => simp [State.srcFrom, ih]

theorem srcFrom_getElem (s : State) (k i j : Nat) (h : j < (s.srcFrom k i).length) : (s.srcFrom k i)[j] = s.src (i + j) := by
  induction k generalizing i j with
  | zero => simp [State.srcFrom] at h
  | succ k ih =>
    cases j with
    | zero => simp [State.srcFrom]
    | succ j =>
      simp only [State.srcFrom, List.getElem_cons_succ]
      rw [ih]
      congr 1
      omega

@[simp] theorem stream_length (s : State) : s.stream.length = s.srcLen - s.dp.ip := by simp [State.stream]

/-- A fetch runs the token the stream holds, or ends the command with InputOverrun (R182). -/
theorem fetchStep_cases (s : State) :
    (∃ i k, decodeToken s.dp.sreg s.stream = .ok (i, k) ∧ 1 ≤ k ∧ k ≤ s.srcLen - s.dp.ip ∧ i.isCommand = false ∧
      s.fetchStep = exec i (s.consumed i k)) ∨
    (decodeToken s.dp.sreg s.stream = .error .inputOverrun ∧ s.fetchStep = .next s.overrun) := by
  unfold State.fetchStep
  split
  · next i k h =>
    have hl := decodeToken_length h
    rw [stream_length] at hl
    exact .inl ⟨i, k, h, hl.1, hl.2, decodeToken_isToken h, rfl⟩
  · next h => exact .inr ⟨h, rfl⟩

/-! ## The host's accesses and free results, field by field -/

@[simp] theorem State.drawResults_fsm (s : State) (f : Flight) : (s.drawResults f).fsm = s.fsm := rfl
@[simp] theorem State.drawResults_dp (s : State) (f : Flight) : (s.drawResults f).dp = s.dp := rfl
@[simp] theorem State.drawResults_tbl (s : State) (f : Flight) : (s.drawResults f).tbl = s.tbl := rfl
@[simp] theorem State.drawResults_mem (s : State) (f : Flight) : (s.drawResults f).mem = Memory.fill s.mem f.dstBase.toNat (Config.raceByte s.draws) f.dstCap.toNat := rfl
@[simp] theorem State.drawResults_raced (s : State) (f : Flight) : (s.drawResults f).raced = s.raced := rfl
@[simp] theorem State.drawResults_flight (s : State) (f : Flight) : (s.drawResults f).flight = s.flight := rfl
@[simp] theorem State.drawResults_host (s : State) (f : Flight) : (s.drawResults f).host = s.host := rfl
@[simp] theorem State.drawResults_rdata (s : State) (f : Flight) : (s.drawResults f).rdata = s.rdata := rfl
@[simp] theorem State.drawResults_draws (s : State) (f : Flight) : (s.drawResults f).draws = s.draws + 1 := rfl
@[simp] theorem State.storeByte_csr (s : State) (a : Word) (v : Byte) : (s.storeByte a v).csr = s.csr := rfl
@[simp] theorem State.storeByte_fsm (s : State) (a : Word) (v : Byte) : (s.storeByte a v).fsm = s.fsm := rfl
@[simp] theorem State.storeByte_dp (s : State) (a : Word) (v : Byte) : (s.storeByte a v).dp = s.dp := rfl
@[simp] theorem State.storeByte_tbl (s : State) (a : Word) (v : Byte) : (s.storeByte a v).tbl = s.tbl := rfl
@[simp] theorem State.storeByte_mem (s : State) (a : Word) (v : Byte) : (s.storeByte a v).mem = Store.write s.mem a.toNat v := rfl
@[simp] theorem State.storeByte_raced (s : State) (a : Word) (v : Byte) : (s.storeByte a v).raced = (s.raced || (s.busy && (s.inSrc a.toNat || s.inDst a.toNat))) := rfl
@[simp] theorem State.storeByte_flight (s : State) (a : Word) (v : Byte) : (s.storeByte a v).flight = s.flight := rfl
@[simp] theorem State.storeByte_host (s : State) (a : Word) (v : Byte) : (s.storeByte a v).host = s.host := rfl
@[simp] theorem State.storeByte_rdata (s : State) (a : Word) (v : Byte) : (s.storeByte a v).rdata = s.rdata := rfl
@[simp] theorem State.storeByte_draws (s : State) (a : Word) (v : Byte) : (s.storeByte a v).draws = s.draws := rfl
@[simp] theorem State.seeDone_csr (s : State) : s.seeDone.csr = s.csr := by unfold State.seeDone; split <;> rfl
@[simp] theorem State.observe_csr (s : State) (off : Nat) : (s.observe off).csr = s.csr := by
  unfold State.observe; split <;> simp
@[simp] theorem State.seeDone_fsm (s : State) : s.seeDone.fsm = s.fsm := by unfold State.seeDone; split <;> rfl
@[simp] theorem State.observe_fsm (s : State) (off : Nat) : (s.observe off).fsm = s.fsm := by
  unfold State.observe; split <;> simp
@[simp] theorem State.seeDone_dp (s : State) : s.seeDone.dp = s.dp := by unfold State.seeDone; split <;> rfl
@[simp] theorem State.observe_dp (s : State) (off : Nat) : (s.observe off).dp = s.dp := by
  unfold State.observe; split <;> simp
@[simp] theorem State.seeDone_tbl (s : State) : s.seeDone.tbl = s.tbl := by unfold State.seeDone; split <;> rfl
@[simp] theorem State.observe_tbl (s : State) (off : Nat) : (s.observe off).tbl = s.tbl := by
  unfold State.observe; split <;> simp
@[simp] theorem State.seeDone_mem (s : State) : s.seeDone.mem = s.mem := by unfold State.seeDone; split <;> rfl
@[simp] theorem State.observe_mem (s : State) (off : Nat) : (s.observe off).mem = s.mem := by
  unfold State.observe; split <;> simp
@[simp] theorem State.seeDone_raced (s : State) : s.seeDone.raced = s.raced := by unfold State.seeDone; split <;> rfl
@[simp] theorem State.observe_raced (s : State) (off : Nat) : (s.observe off).raced = s.raced := by
  unfold State.observe; split <;> simp
@[simp] theorem State.seeDone_host (s : State) : s.seeDone.host = s.host := by unfold State.seeDone; split <;> rfl
@[simp] theorem State.observe_host (s : State) (off : Nat) : (s.observe off).host = s.host := by
  unfold State.observe; split <;> simp
@[simp] theorem State.seeDone_rdata (s : State) : s.seeDone.rdata = s.rdata := by unfold State.seeDone; split <;> rfl
@[simp] theorem State.observe_rdata (s : State) (off : Nat) : (s.observe off).rdata = s.rdata := by
  unfold State.observe; split <;> simp
@[simp] theorem State.seeDone_draws (s : State) : s.seeDone.draws = s.draws := by unfold State.seeDone; split <;> rfl
@[simp] theorem State.observe_draws (s : State) (off : Nat) : (s.observe off).draws = s.draws := by
  unfold State.observe; split <;> simp
@[simp] theorem State.seeDone_flight (s : State) : s.seeDone.flight = if s.csr.done then none else s.flight := by
  unfold State.seeDone; split <;> rfl

/-- What free results can be: a code of R231 and counts within the command's regions, nothing else of the CSR file changing (R85). -/
theorem drawResults_csr (s : State) (f : Flight) : ∃ (code : Byte) (outLen inUsed : Word),
    (s.drawResults f).csr = { s.csr with errcode := code, outLen := outLen, inUsed := inUsed } ∧
      code.toNat ≤ 9 ∧ outLen.toNat ≤ f.dstCap.toNat ∧ inUsed.toNat ≤ f.srcLen.toNat := by
  have hd := f.dstCap.isLt
  have hs := f.srcLen.isLt
  have h1 := Nat.mod_lt (Config.raceCode s.draws) (show 0 < 10 by omega)
  have h2 := Nat.mod_lt (Config.raceOutLen s.draws) (show 0 < f.dstCap.toNat + 1 by omega)
  have h3 := Nat.mod_lt (Config.raceInUsed s.draws) (show 0 < f.srcLen.toNat + 1 by omega)
  refine ⟨_, _, _, rfl, ?_, ?_, ?_⟩ <;> rw [BitVec.toNat_ofNat, Nat.mod_eq_of_lt (by omega)] <;> omega

/-- A host write stores its byte, and draws the results of a command that ended unseen where it breaks R85 (R78). -/
theorem hostStore_cases (s : State) (a : Word) (v : Byte) :
    (s.endedRace a.toNat = false ∧ s.hostStore a v = s.storeByte a v) ∨
    (∃ f, s.flight = some f ∧ f.ran = true ∧ (f.inSrc a.toNat || f.inDst a.toNat) = true ∧
      s.hostStore a v = (s.storeByte a v).drawResults f) := by
  unfold State.hostStore State.endedRace
  cases s.flight with
  | none => exact .inl ⟨rfl, rfl⟩
  | some f =>
    cases hr : f.ran <;> cases ha : (f.inSrc a.toNat || f.inDst a.toNat)
    · exact .inl ⟨by simp [hr], by simp [hr]⟩
    · exact .inl ⟨by simp [hr], by simp [hr]⟩
    · exact .inl ⟨by simp [hr, ha], by simp [hr, ha]⟩
    · exact .inr ⟨f, rfl, hr, ha, by simp [hr, ha]⟩

/-- A host read sets `rdata`, and draws a value exactly where a command in flight owns the byte (R78, R85). -/
theorem hostLoad_cases (s : State) (a : Word) :
    (s.dstInFlight a.toNat = true ∧ ∃ w, s.hostLoad a = { s with rdata := w, draws := s.draws + 1 }) ∨
    (s.dstInFlight a.toNat = false ∧ s.hostLoad a = { s with rdata := (Store.read s.mem a.toNat).setWidth 32 }) := by
  unfold State.hostLoad
  cases s.dstInFlight a.toNat
  · exact .inr ⟨rfl, rfl⟩
  · exact .inl ⟨rfl, _, rfl⟩

/-! ## Whose turn it is -/

theorem step_engine {s : State} (h : s.host = []) : step s = s.engineStep := by simp [step, State.turn, h]

theorem step_engineTurn {s : State} {rest : List HostOp} (h : s.host = .engine :: rest) :
    step s = ({ s with host := rest } : State).engineStep := by simp [step, State.turn, h]

theorem step_csrw {s : State} {off : Nat} {v : Word} {rest : List HostOp} (h : s.host = .csrw off v :: rest) :
    step s = ({ s with host := rest } : State).csrWrite off v := by simp [step, State.turn, h]

theorem step_csrr {s : State} {off : Nat} {rest : List HostOp} (h : s.host = .csrr off :: rest) :
    step s = ({ s with host := rest } : State).csrFetch off := by simp [step, State.turn, h]

/-- Every step is an engine step, a CSR access, a host access to memory, a poll that has ended, or a reset. -/
theorem step_cases (s : State) :
    (s.host = [] ∧ step s = s.engineStep) ∨
    (∃ rest, s.host = .waitDone :: rest ∧
      (s.csr.done = true ∧ step s = .next { s with host := rest, flight := none } ∨ s.csr.done = false ∧ step s = s.engineStep)) ∨
    (∃ rest, s.host = .waitIrq :: rest ∧
      (s.irq = true ∧ step s = .next { s with host := rest, flight := none } ∨ s.irq = false ∧ step s = s.engineStep)) ∨
    (∃ rest, s.host = .engine :: rest ∧ step s = ({ s with host := rest } : State).engineStep) ∨
    (∃ off v rest, s.host = .csrw off v :: rest ∧ step s = ({ s with host := rest } : State).csrWrite off v) ∨
    (∃ off rest, s.host = .csrr off :: rest ∧ step s = ({ s with host := rest } : State).csrFetch off) ∨
    (∃ off bytes rest, s.host = .csrNarrow off bytes :: rest ∧ step s = .refused (.csrAccess off)) ∨
    (∃ a v rest, s.host = .memw a v :: rest ∧ step s = .next (({ s with host := rest } : State).hostStore a v)) ∨
    (∃ a rest, s.host = .memr a :: rest ∧ step s = .next (({ s with host := rest } : State).hostLoad a)) ∨
    (∃ rest, s.host = .reset :: rest ∧ step s = .next ({ s with host := rest } : State).resetInput) := by
  rcases hh : s.host with _ | ⟨op, rest⟩
  · exact .inl ⟨rfl, by simp [step, State.turn, hh]⟩
  · cases op <;> cases hd : s.csr.done <;> cases hi : s.csr.ie <;> simp [step, State.turn, State.seeDone, State.irq, hh, hd, hi]

end Sys2Proof.Machine
end

