-- ==== Sys2Proof/Tests/Slice0.lean ====
section
/-! SUPPORT. The model's own tests: the well-formedness checks, the decoding of words written out from the spec's encodings, one-step tests, and
for every statement with hypotheses a state and operands that meet them. Expected values come from the spec's examples and vectors, or are
worked by hand from its rules. -/

namespace Sys2Proof.Tests

set_option Elab.async false

open Sys2Proof Sys2Proof.Machine

/-! ## Well-formedness: each check refuses an ill-formed term -/

theorem test_wf_litf : (Instr.litf 0).wf = false ∧ (Instr.litf 239).wf = false ∧ (Instr.litf 238).wf = true := by decide
theorem test_wf_litShort : (Instr.litShort 3).wf = false ∧ (Instr.litShort 19).wf = false ∧ (Instr.litShort 18).wf = true := by decide
theorem test_wf_litLong : (Instr.litLong 18).wf = false ∧ (Instr.litLong 19).wf = true := by decide
theorem test_wf_m1s : (Instr.m1s 0 1).wf = false ∧ (Instr.m1s 1025 0).wf = false ∧ (Instr.m1s 1024 0).wf = true := by decide
theorem test_wf_m1l : (Instr.m1l 2048 1).wf = false ∧ (Instr.m1l 3073 0).wf = false ∧ (Instr.m1l 3072 0).wf = true := by decide
theorem test_wf_m2 : (Instr.m2 2 1 0).wf = false ∧ (Instr.m2 9 1 0).wf = false ∧ (Instr.m2 3 0 0).wf = false ∧
    (Instr.m2 3 2049 0).wf = false ∧ (Instr.m2 8 2048 0).wf = true := by decide
theorem test_wf_m3 : (Instr.m3 2 1 0).wf = false ∧ (Instr.m3 3 0 0).wf = false ∧ (Instr.m3 3 16385 0).wf = false ∧
    (Instr.m3 3 16384 0).wf = true := by decide
theorem test_wf_m4 : (Instr.m4 2 16385 0).wf = false ∧ (Instr.m4 3 16384 0).wf = false ∧ (Instr.m4 3 49152 0).wf = false ∧
    (Instr.m4 3 49151 0).wf = true := by decide
theorem test_wf_eos : (Instr.eos 2 0).wf = false ∧ (Instr.eos 3 0).wf = true := by decide
theorem test_wf_commands : (Instr.init true false).wf = true ∧ (Instr.compress true false).wf = true ∧
    (Instr.decompress true false).wf = true ∧ (Instr.reservedCmd3 true false).wf = true := by decide

/-! ## Decoding: words written out from the spec's encodings -/

/-- R199: 0x1B = 27 = 17 + 10. R94's ends: 0x12 and 0xFF. -/
theorem test_decode_litf : decodeToken .start [0x1B] = .ok (.litf 10, 1) ∧ decodeToken .start [0x12] = .ok (.litf 1, 1) ∧
    decodeToken .start [0xFF] = .ok (.litf 238, 1) := by decide
/-- R133: EmitLitHeader(5) is `02`. R95's ends: 0x01 and 0x0F. -/
theorem test_decode_litShort : decodeToken (.trail 0) [0x02] = .ok (.litShort 5, 1) ∧
    decodeToken .start [0x01] = .ok (.litShort 4, 1) ∧ decodeToken .start [0x0F] = .ok (.litShort 18, 1) := by decide
/-- R185: `00 01` is 19. R131: `00 00 05` with base 18: c, one zero byte and 5, so 18 + 255 + 5. -/
theorem test_decode_litLong : decodeToken .start [0x00, 0x01] = .ok (.litLong 19, 2) ∧
    decodeToken (.trail 0) [0x00, 0x00, 0x05] = .ok (.litLong 278, 3) := by decide
/-- R186: `08 00` at S = 3. R97: c = 0000 11 10 with b1 = 0xFF is distance 1 + 3 + 1020 and T = 2. -/
theorem test_decode_m1s : decodeToken (.trail 3) [0x08, 0x00] = .ok (.m1s 3 0, 2) ∧
    decodeToken (.trail 1) [0x0E, 0xFF] = .ok (.m1s 1024 2, 2) := by decide
/-- R187: `00 00` is distance 2049. R98: c = 0000 11 01 with b1 = 0xFF is 2049 + 3 + 1020 and T = 1. -/
theorem test_decode_m1l : decodeToken .run [0x00, 0x00] = .ok (.m1l 2049 0, 2) ∧
    decodeToken .run [0x0D, 0xFF] = .ok (.m1l 3072 1, 2) := by decide
/-- R188: `62 00`. R135: `FC FF` is (8, 2048). P2: `8D 00` is (5, 4) with T = 1. -/
theorem test_decode_m2 : decodeToken (.trail 0) [0x62, 0x00] = .ok (.m2 4 1 2, 2) ∧
    decodeToken .run [0xFC, 0xFF] = .ok (.m2 8 2048 0, 2) ∧ decodeToken .run [0x8D, 0x00] = .ok (.m2 5 4 1, 2) := by decide
/-- R136: `20 2B 10 00`, `3F FC FF` and `21 00 00`. -/
theorem test_decode_m3 : decodeToken .run [0x20, 0x2B, 0x10, 0x00] = .ok (.m3 76 5 0, 4) ∧
    decodeToken (.trail 0) [0x3F, 0xFC, 0xFF] = .ok (.m3 33 16384 0, 3) ∧
    decodeToken (.trail 2) [0x21, 0x00, 0x00] = .ok (.m3 3 1 0, 3) := by decide
/-- R190: `12 04 00`. V59 and V60: `10 37 04 00` is (64, 16385) and `18 37 00 00` is (64, 32768). V96: `10 01 04 00` at START. -/
theorem test_decode_m4 : decodeToken .run [0x12, 0x04, 0x00] = .ok (.m4 4 16385 0, 3) ∧
    decodeToken (.trail 1) [0x10, 0x37, 0x04, 0x00] = .ok (.m4 64 16385 0, 4) ∧
    decodeToken .run [0x18, 0x37, 0x00, 0x00] = .ok (.m4 64 32768 0, 4) ∧
    decodeToken .start [0x10, 0x01, 0x04, 0x00] = .ok (.m4 10 16385 0, 4) := by decide
/-- R103: `11 00 00` in every state, and a spelling with an extension field and T bits that are ignored. -/
theorem test_decode_eos : (∀ st, st = .start ∨ st = .run ∨ st = .trail 1 → decodeToken st [0x11, 0x00, 0x00] = .ok (.eos 3 0, 3)) ∧
    decodeToken .start [0x10, 0x05, 0x03, 0x00] = .ok (.eos 14 3, 4) := by
  refine ⟨fun st h => ?_, by decide⟩
  rcases h with rfl | rfl | rfl <;> decide
/-- R110, R113: 0x11, 0x13 and 0x15; 0x17 (V103); bits 31:5 are ignored. -/
theorem test_decode_commands : decodeCtrl 0x11 = .ok (.init false true) ∧ decodeCtrl 0x13 = .ok (.compress false true) ∧
    decodeCtrl 0x15 = .ok (.decompress false true) ∧ decodeCtrl 0x17 = .ok (.reservedCmd3 false true) ∧
    decodeCtrl 0xFFFFFFEB = .ok (.compress true false) ∧ decodeCtrl 0x18 = .error .noStart := by decide
/-- R131: the bytes `00 00 05` with base 18 return 533 and consume 3. R132: EmitExt(515) is `00 00 05`. -/
theorem test_ext : decodeExt 18 [0x00, 0x00, 0x05] = .ok (533, 3) ∧ extBytes 515 = [0x00, 0x00, 0x05] ∧
    extBytes 255 = [0xFF] ∧ extBytes 256 = [0x00, 0x01] ∧ decodeExt 18 [0x00, 0x00] = .error .inputOverrun := by decide
/-- V80 to V85: streams that end inside a header are rejected by name. -/
theorem test_decode_truncated : decodeToken .start [] = .error .inputOverrun ∧ decodeToken .start [0x11, 0x00] = .error .inputOverrun ∧
    decodeToken (.trail 1) [0x20, 0x2B, 0x10] = .error .inputOverrun ∧
    decodeToken (.trail 1) [0x20, 0x00, 0x00] = .error .inputOverrun := by decide

/-! ## Encoding and emission -/

theorem test_encode_tokens : encode (.litf 10) = [0x1B] ∧ encode (.litShort 5) = [0x02] ∧ encode (.litLong 19) = [0x00, 0x01] ∧
    encode (.m1s 3 0) = [0x08, 0x00] ∧ encode (.m1l 2049 0) = [0x00, 0x00] ∧ encode (.m2 4 1 2) = [0x62, 0x00] ∧
    encode (.m3 76 5 0) = [0x20, 0x2B, 0x10, 0x00] ∧ encode (.m4 4 16385 0) = [0x12, 0x04, 0x00] ∧
    encode (.eos 3 0) = [0x11, 0x00, 0x00] ∧ encode (.compress false true) = [0x13, 0x00, 0x00, 0x00] := by decide
/-- R135 to R139 and V62. -/
theorem test_emit_bytes : m2Bytes 8 2048 = [0xFC, 0xFF] ∧ m3Bytes 33 16384 = [0x3F, 0xFC, 0xFF] ∧ m3Bytes 3 1 = [0x21, 0x00, 0x00] ∧
    m4Bytes 64 40064 = [0x18, 0x37, 0x00, 0x72] ∧ patchBytes (m2Bytes 4 1) 2 = [0x62, 0x00] := by decide

/-! ## Table words, and the step on them -/

theorem test_table_words : decodeTableWord 8 0x12 = some (.litf 1) ∧ decodeTableWord 8 0x20 = some (.litf 15) ∧
    decodeTableWord 8 0x00 = some (.m1s 1 0) ∧ decodeTableWord 8 0x08 = some (.m1l 2051 0) ∧ decodeTableWord 8 0x40 = some (.m2 3 1 0) ∧
    decodeTableWord 8 0x11 = some (.eos 3 0) ∧ decodeTableWord 8 0x0F = some (.litShort 18) ∧
    decodeTableWord 8 0x3F = some (.m3 33 1 0) ∧ decodeTableWord 16 0x0100 = some (.m1s 5 0) ∧
    decodeTableWord 8 1 = some (.init false false) ∧ decodeTableWord 32 0x13 = some (.compress false true) := by decide +kernel

/-- The outcome is a next state of which `p` holds. -/
def after (o : Host.Outcome State Fault Refusal) (p : State → Bool) : Bool :=
  match o with
  | .next t => p t
  | .fault _ | .refused _ => false

theorem of_after {o : Host.Outcome State Fault Refusal} {p : State → Bool} (h : after o p = true) :
    ∃ t, o = .next t ∧ p t = true := by
  cases o with
  | next t => exact ⟨t, rfl, h⟩
  | fault r => simp [after] at h
  | refused r => simp [after] at h

theorem test_fetch_word_command : after (step (State.reset.withFetchWord 8 0x5)) (fun t =>
    decide (t.fsm = .runDecompress .check ∧ t.csr.cmd = 2 ∧ t.host = [])) = true := by decide +kernel
theorem test_fetch_word_token : after (step (State.reset.withFetchWord 8 0x11)) (fun t =>
    decide (t.fsm = .idle ∧ t.csr.errcode = 7 ∧ t.csr.inUsed = 3)) = true := by decide +kernel

/-! ## States for the one-step tests and the witnesses -/

/-- Memory with the listed bytes from an address on. -/
def put (m : Memory) (base : Nat) (bs : List Byte) : Memory := Memory.fill m base (fun j => bs.getD j 0) bs.length

/-- SRC at 0x100 holds `src`; DST at 0x1000 has room for `cap` bytes. -/
def buffers (src : List Byte) (cap : Nat) : State :=
  { State.reset with
    csr := { Csr.reset with
      initOk := true, srcBase := 0x100, srcLen := BitVec.ofNat 32 src.length, dstBase := 0x1000, dstCap := BitVec.ofNat 32 cap }
    mem := put [] 0x100 src }

/-- A DECOMPRESS at a token, in decoder state `st`, with `op` bytes written of which the last are `dst`. -/
def atToken (st : DecState) (src : List Byte) (op : Nat) (dst : List Byte) (cap : Nat) : State :=
  let s := buffers src cap
  { s with
    csr := { s.csr with cmd := 2 }
    fsm := .runDecompress .fetch
    dp := { s.dp with op := op, sreg := st }
    mem := put s.mem (0x1000 + op - dst.length) dst }

/-- A COMPRESS at a stage, with the datapath as given. -/
def atStage (ph : CompressPhase) (src : List Byte) (cap : Nat) (dp : Datapath) : State :=
  let s := buffers src cap
  { s with csr := { s.csr with cmd := 1 }, fsm := .runCompress ph, dp := dp }

/-- The first block of 40 bytes, all 'a', at its first probe. -/
def blockDp : Datapath := { Datapath.reset with l := 40, ll := 40, ipEnd := 20, ip := 5 }

/-- 40 bytes 'a'. -/
def as40 : List Byte := List.replicate 40 0x61

/-- The bytes of DST from an offset on. -/
def dstFrom (s : State) (i n : Nat) : List Byte := (List.range n).map fun j => s.dst (i + j)

/-! ## One step of each instruction -/

/-- R184: `1B` and "Hello LZO!" (R199): op = 10, ip = 11, S = 4. -/
theorem test_litf : after (step (atToken .start [0x1B, 0x48, 0x65, 0x6C, 0x6C, 0x6F, 0x20, 0x4C, 0x5A, 0x4F, 0x21] 0 [] 10)) (fun t =>
    decide (t.dp.op = 10 ∧ t.dp.ip = 11 ∧ t.dp.sreg = .run ∧
      dstFrom t 0 10 = [0x48, 0x65, 0x6C, 0x6C, 0x6F, 0x20, 0x4C, 0x5A, 0x4F, 0x21])) = true := by decide +kernel
/-- V88: the output check precedes the input check. -/
theorem test_litf_overflow : after (step (atToken .start [0x1B, 0x41, 0x42, 0x43] 0 [] 5)) (fun t =>
    decide (t.csr.errcode = 4 ∧ t.csr.outLen = 0 ∧ t.csr.inUsed = 1 ∧ t.fsm = .idle)) = true := by decide +kernel
/-- P2: `01 57 58 59 5A` is LIT "WXYZ", S = 4. -/
theorem test_litShort : after (step (atToken (.trail 0) [0x01, 0x57, 0x58, 0x59, 0x5A] 5 [] 9)) (fun t =>
    decide (t.dp.op = 9 ∧ t.dp.ip = 5 ∧ t.dp.sreg = .run ∧ dstFrom t 5 4 = [0x57, 0x58, 0x59, 0x5A])) = true := by decide +kernel
/-- R185: `00 01` takes 19 bytes; with 18 left it is an InputOverrun after the header. -/
theorem test_litLong : after (step (atToken .start ([0x00, 0x01] ++ List.replicate 18 0x61) 0 [] 19)) (fun t =>
    decide (t.csr.errcode = 5 ∧ t.csr.outLen = 0 ∧ t.csr.inUsed = 2)) = true := by decide +kernel
/-- R185: the 19 bytes. -/
theorem test_litLong_runs : after (step (atToken .start ([0x00, 0x01] ++ List.replicate 19 0x61) 0 [] 19)) (fun t =>
    decide (t.dp.op = 19 ∧ t.dp.ip = 21 ∧ t.dp.sreg = .run ∧ dstFrom t 0 19 = List.replicate 19 0x61)) = true := by decide +kernel
/-- R186: after "abc", `08 00` appends "ab" and S = 0. -/
theorem test_m1s : after (step (atToken (.trail 3) [0x08, 0x00] 3 [0x61, 0x62, 0x63] 5)) (fun t =>
    decide (t.dp.op = 5 ∧ t.dp.ip = 2 ∧ t.dp.sreg = .trail 0 ∧ dstFrom t 0 5 = [0x61, 0x62, 0x63, 0x61, 0x62])) = true := by
  decide +kernel
/-- R187: `00 00` copies the 3 bytes at distance 2049. -/
theorem test_m1l : after (step { atToken .run [0x00, 0x00] 3000 [] 3003 with mem := put [] (0x1000 + 951) [0x61, 0x62, 0x63] })
    (fun t => decide (t.dp.op = 3003 ∧ dstFrom t 3000 3 = [0x61, 0x62, 0x63] ∧ t.dp.sreg = .trail 0)) = true := by
  decide +kernel
/-- R193: `62 00 41 42` after "x" gives "xxxxx", then "AB", and S = 2. -/
theorem test_m2 : after (step (atToken (.trail 1) [0x62, 0x00, 0x41, 0x42] 1 [0x78] 7)) (fun t =>
    decide (t.dp.op = 7 ∧ t.dp.ip = 4 ∧ t.dp.sreg = .trail 2 ∧
      dstFrom t 0 7 = [0x78, 0x78, 0x78, 0x78, 0x78, 0x41, 0x42])) = true := by decide +kernel
/-- V91: the copy fits, the trailing literals do not. -/
theorem test_m2_trail : after (step (atToken (.trail 1) [0x62, 0x00, 0x41, 0x42, 0x11, 0x00, 0x00] 1 [0x78] 6)) (fun t =>
    decide (t.csr.errcode = 4 ∧ t.csr.outLen = 5 ∧ t.csr.inUsed = 2 ∧ dstFrom t 0 5 = List.replicate 5 0x78)) = true := by
  decide +kernel
/-- R141: "ab" and a copy of 5 at distance 2 give "abababa"; the header `23 04 00` is (5, 2). -/
theorem test_m3 : after (step (atToken (.trail 2) [0x23, 0x04, 0x00] 2 [0x61, 0x62] 7)) (fun t =>
    decide (t.dp.op = 7 ∧ dstFrom t 0 7 = [0x61, 0x62, 0x61, 0x62, 0x61, 0x62, 0x61] ∧ t.dp.sreg = .trail 0)) = true := by
  decide +kernel
/-- V93: distance 5 exceeds op = 1, after all four header bytes. -/
theorem test_m3_lookbehind : after (step (atToken (.trail 1) [0x20, 0x2B, 0x10, 0x00, 0x11] 1 [0x41] 100)) (fun t =>
    decide (t.csr.errcode = 6 ∧ t.csr.outLen = 1 ∧ t.csr.inUsed = 4)) = true := by decide +kernel
/-- R190: `12 04 00` after 20000 bytes copies 4 bytes from distance 16385. -/
theorem test_m4 : after (exec (.m4 4 16385 0) { atToken .run [0x12, 0x04, 0x00] 20000 [] 20004 with
      mem := put [] (0x1000 + 3615) [0x61, 0x62, 0x63, 0x64] })
    (fun t => decide (t.dp.op = 20004 ∧ dstFrom t 20000 4 = [0x61, 0x62, 0x63, 0x64])) = true := by decide +kernel
/-- V96: an M4 as the first token. -/
theorem test_m4_start : after (step (atToken .start [0x10, 0x01, 0x04, 0x00] 0 [] 100)) (fun t =>
    decide (t.csr.errcode = 6 ∧ t.csr.outLen = 0 ∧ t.csr.inUsed = 4)) = true := by decide +kernel
/-- R191: `11 00 00` with EXP_LEN 0, 1 and STRICT = 1, 0 (here EXP_LEN = 1). -/
theorem test_eos : after (step (atToken .start [0x11, 0x00, 0x00] 0 [] 0)) (fun t =>
    decide (t.csr.errcode = 0 ∧ t.csr.done = true ∧ t.csr.outLen = 0 ∧ t.csr.inUsed = 3 ∧ t.fsm = .idle)) = true := by decide +kernel
/-- V97 and V99: TrailingInput; LengthMismatch. -/
theorem test_eos_errors :
    after (step (atToken .start [0x11, 0x00, 0x00, 0x00] 0 [] 10)) (fun t => decide (t.csr.errcode = 7 ∧ t.csr.inUsed = 3)) = true ∧
    after (exec (.eos 3 0) { atToken (.trail 1) [] 1 [0x41] 10 with csr := { (atToken (.trail 1) [] 1 [0x41] 10).csr with expLen := 2 } })
      (fun t => decide (t.csr.errcode = 8 ∧ t.csr.outLen = 1)) = true := by decide +kernel
/-- V101: INIT with HANDSHAKE 7 ends with STATUS 0x0A. -/
theorem test_init : after (Sys2Proof.core.run 3 { State.reset with host := [.csrw 0x30 7, .csrw 0x08 0x11] }) (fun t =>
    decide (t.status = 0x0A ∧ t.csr.errcode = 0 ∧ t.csr.outLen = 0)) = true := by decide +kernel
/-- V101: with HANDSHAKE 6, STATUS 0x06 and ERRCODE 1. -/
theorem test_init_mismatch : after (Sys2Proof.core.run 3 { State.reset with host := [.csrw 0x30 6, .csrw 0x08 0x11] }) (fun t =>
    decide (t.status = 0x06 ∧ t.csr.errcode = 1)) = true := by decide +kernel
/-- V102: COMPRESS before INIT ends with InitializationError. -/
theorem test_compress_before_init : after (Sys2Proof.core.run 3 { State.reset with host := [.csrw 0x18 10, .csrw 0x08 0x13] }) (fun t =>
    decide (t.status = 0x06 ∧ t.csr.errcode = 1 ∧ t.csr.outLen = 0)) = true := by decide +kernel
/-- A one-byte COMPRESS: `12 61 11 00 00` (R165, R166). -/
theorem test_compress : after (Sys2Proof.core.run 4 { buffers [0x61] 5 with host := [.csrw 0x08 0x13] }) (fun t =>
    decide (t.status = 0x0A ∧ t.csr.outLen = 5 ∧ t.csr.inUsed = 1 ∧ dstFrom t 0 5 = [0x12, 0x61, 0x11, 0x00, 0x00])) = true := by
  decide +kernel
/-- V81: `12 41` ends at a token boundary without EOS. -/
theorem test_decompress : after (Sys2Proof.core.run 4 { buffers [0x12, 0x41] 10 with host := [.csrw 0x08 0x15] }) (fun t =>
    decide (t.csr.errcode = 5 ∧ t.csr.outLen = 1 ∧ t.csr.inUsed = 2 ∧ t.dst 0 = 0x41)) = true := by decide +kernel
/-- V103: STATUS 0x0E, ERRCODE 9, CTRL 0x16, in the START access itself. -/
theorem test_reservedCmd3 : after (step { buffers [] 0 with host := [.csrw 0x08 0x17] }) (fun t =>
    decide (t.status = 0x0E ∧ t.csr.errcode = 9 ∧ t.ctrl = 0x16 ∧ t.fsm = .idle)) = true := by decide +kernel

/-! ## The compressor's stages -/

/-- R160's example: for 'a'×100 the first probe at 5 matches 0, with k = 9, limit = 76 and m_len = 76. Here on 40 bytes: ip_end = 20, k = 2,
limit = 20, m_len = 20. -/
theorem test_match : after (step (atStage .hit as40 100 blockDp)) (fun t =>
    decide (t.dp.k = 2 ∧ t.dp.mLen = 20 ∧ t.dp.ip = 25 ∧
      dstFrom t 0 9 = [0x02, 0x61, 0x61, 0x61, 0x61, 0x61, 0x32, 0x10, 0x00])) = true := by decide +kernel
/-- R145, R156: the probe writes slot 10077 of "aaaa" with offset 5 and finds the candidate 0. -/
theorem test_probe : after (step (atStage .next as40 100 blockDp)) (fun t =>
    decide (t.fsm = .runCompress .hit ∧ t.dp.mPos = 0 ∧ t.tbl = [(10077, 5)])) = true := by decide +kernel

/-- R144: "abcd" is 0x64636261, the first byte in the low bits. -/
theorem test_le32 : (buffers [0x61, 0x62, 0x63, 0x64] 0).le32 0 = 0x64636261 := by decide +kernel

/-! ## CSRs, interrupt, reset -/

/-- V100. -/
theorem test_reset_reads : (List.range 16).map (fun k => State.reset.csrRead (4 * k)) =
    [some 0x4C5A4F31, some 7, some 0x10, some 0, some 0, some 0, some 0, some 0, some 0, some 0, some 0, some 0, some 0,
      some 0, some 0, some 0] ∧ State.reset.irq = false := by decide
/-- V106: a CTRL write of 0x18 raises irq while DONE is pending, and STATUS 0x2 drops it. -/
theorem test_irq : after (Sys2Proof.core.run 2 { buffers [] 0 with host := [.csrw 0x08 0x17, .csrw 0x08 0x18] })
      (fun t => t.irq) = true ∧
    after (Sys2Proof.core.run 4 { buffers [] 0 with host := [.csrw 0x08 0x17, .csrw 0x08 0x18, .csrw 0x0C 5, .csrw 0x0C 2] })
      (fun t => !t.irq && t.err) = true := by decide +kernel
/-- V104: overlap of one byte, and adjacent buffers. V105: the region check precedes the size check. -/
theorem test_start_checks :
    ({ buffers [] 16 with csr := { (buffers [] 16).csr with srcLen := 16, srcBase := 0x1000, dstBase := 0x100F } } : State).startError true =
      some .invalidArgument ∧
    ({ buffers [] 43 with csr := { (buffers [] 43).csr with srcLen := 16, srcBase := 0x1000, dstBase := 0x1010 } } : State).startError true =
      none ∧
    ({ buffers [] 0 with csr := { (buffers [] 0).csr with srcLen := 0x40000001, srcBase := 0xC0000000 } } : State).startError true =
      some .invalidArgument ∧
    ({ buffers [] 0 with csr := { (buffers [] 0).csr with srcLen := 0x40000001 } } : State).startError true = some .inputTooLarge := by
  decide +kernel
/-- R71: a byte access and an odd offset are refused. -/
theorem test_csr_refused : (∀ t, step { State.reset with host := [.csrNarrow 0x08 1] } ≠ .next t) ∧
    (∀ t, step { State.reset with host := [.csrr 0x02] } ≠ .next t) := by
  constructor <;> intro t h <;> exact absurd h (by simp [step, State.turn, State.csrFetch, State.csrRead])

/-- R78: after `12 61 11 00 00` is written, a host read of DST is free until STATUS has been read with DONE = 1, and then definite. -/
theorem test_in_flight :
    after (Sys2Proof.core.run 5 { buffers [0x61] 5 with host := [.csrw 0x08 0x13, .engine, .engine, .engine, .memr 0x1000] })
      (fun t => decide (t.fsm = .idle ∧ t.csr.done = true ∧ t.draws = 1 ∧ t.flight.isSome)) = true ∧
    after (Sys2Proof.core.run 6 { buffers [0x61] 5 with
        host := [.csrw 0x08 0x13, .engine, .engine, .engine, .csrr 0x0C, .memr 0x1000] })
      (fun t => decide (t.rdata = 0x12 ∧ t.draws = 0 ∧ t.flight = none)) = true := by decide +kernel
/-- R79, R266: with IE = 1 the interrupt tells the host as well; a write to SRC before that makes the results free. -/
theorem test_in_flight_irq :
    after (Sys2Proof.core.run 5 { buffers [0x61] 5 with host := [.csrw 0x08 0x1B, .waitIrq] })
      (fun t => decide (t.fsm = .idle ∧ t.flight = none ∧ t.host = [])) = true ∧
    after (Sys2Proof.core.run 5 { buffers [0x61] 5 with host := [.csrw 0x08 0x1B, .engine, .engine, .engine, .memw 0x100 0] })
      (fun t => decide (t.draws = 1 ∧ t.csr.done = true)) = true := by decide +kernel

/-! ## Witnesses: for each statement with hypotheses, a state and operands that meet them, clause by clause -/

/-! ### Encoding -/

/-- `TokenDecodeOfEncode`, `HeaderPrefixOverruns`: every kind of token, at ends of its ranges. -/
theorem witness_tokens_readable :
    (∀ i, i ∈ [Instr.litf 1, .litf 238, .litShort 18, .litLong 19, .m4 3 16385 3, .m4 10 32767 0, .eos 10 3] →
      i.wf = true ∧ i.readIn .start = true ∧ 0 < (encode i).length) ∧
    (∀ i, i ∈ [Instr.litShort 4, .litLong 273, .m2 3 1 0, .m3 3 16384 3, .m4 9 49151 1, .eos 3 0] →
      i.wf = true ∧ i.readIn (.trail 0) = true ∧ 0 < (encode i).length) ∧
    (∀ i, i ∈ [Instr.m1s 1 0, .m1s 1024 3, .m2 8 2048 3] → i.wf = true ∧ i.readIn (.trail 3) = true ∧ 1 < (encode i).length) ∧
    (∀ i, i ∈ [Instr.m1l 2049 0, .m1l 3072 3, .m3 34 1 0, .m4 3 32768 0] →
      i.wf = true ∧ i.readIn .run = true ∧ 1 < (encode i).length) := by decide
theorem witness_tokenHasOneSpelling : decodeToken .run [0x18, 0x37, 0x00, 0x00] = .ok (.m4 64 32768 0, 4) := by decide
theorem witness_commandDecodeOfEncode : ∀ i, i ∈ [Instr.init true true, .compress false false, .decompress true false,
    .reservedCmd3 false true] → i.isCommand = true := by decide
/-- `DecodeMapTable`: each range at both ends. -/
theorem witness_decodeMapTable : (0x0F#8).toNat ≤ 0x0F ∧ (1#2) ≠ 0 ∧ 0x10 ≤ (0x11#8).toNat ∧ (0x11#8).toNat ≤ 0x11 ∧
    0x12 ≤ (0x12#8).toNat ∧ (0x1F#8).toNat ≤ 0x1F ∧ DecState.trail 0 ≠ .start ∧ 0x20 ≤ (0x20#8).toNat ∧ (0x3F#8).toNat ≤ 0x3F ∧
    0x40 ≤ (0xFF#8).toNat := by decide
/-- `EmittedTokensDecode`: M2 at (8, 2048), M3 at (3, 16384), M4 at both ends of its distances, literal headers of 4 and 238. -/
theorem witness_emittedTokensDecode : DecState.run ≠ .start ∧ (3 ≤ 8 ∧ 8 ≤ 8 ∧ 1 ≤ 2048 ∧ 2048 ≤ 2048) ∧
    (3 ≤ 3 ∧ 1 ≤ 16384 ∧ 16384 ≤ 16384) ∧ (16385 ≤ 16385 ∧ 16385 ≤ 49151 ∧ 49151 ≤ 49151) ∧ 4 ≤ 4 ∧ 1 ≤ 238 ∧ 238 ≤ 238 := by decide
theorem witness_tokenChoiceEncodes : matchBytes 8 2048 = encode (.m2 8 2048 0) ∧ matchBytes 9 2048 = encode (.m3 9 2048 0) ∧
    matchBytes 4 16384 = encode (.m3 4 16384 0) ∧ matchBytes 4 49151 = encode (.m4 4 49151 0) := by decide

/-! ### Tokens -/

/-- `LiteralTokens`: n = 2 with one byte of room, with one byte of SRC, and with two of each. -/
theorem witness_literalTokens :
    ((atToken .start [0x61, 0x62] 3 [0x61] 4).Decoding ∧ 4 < 3 + 2) ∧
    ((atToken .start [0x61] 3 [0x61] 5).Decoding ∧ 3 + 2 ≤ 5 ∧ 1 < 0 + 2) ∧
    ((atToken .start [0x61, 0x62] 3 [0x61] 5).Decoding ∧ 3 + 2 ≤ 5 ∧ 0 + 2 ≤ 2) := by decide +kernel
/-- `CopyTokens`, and `OverlappingCopyRepeats`: distance 1 or 4 at op = 3, len = 4, T = 2, with each check failing in turn and with none. -/
theorem witness_copyTokens :
    ((atToken .run [0x41, 0x42] 3 [0x61] 9).Decoding ∧ (atToken .run [0x41, 0x42] 3 [0x61] 9).dp.op < 4) ∧
    ((atToken .run [0x41, 0x42] 3 [0x61] 6).Decoding ∧ (atToken .run [0x41, 0x42] 3 [0x61] 6).dstCap < 3 + 4) ∧
    ((atToken .run [0x41, 0x42] 3 [0x61] 8).Decoding ∧ 3 + 4 ≤ 8 ∧ (atToken .run [0x41, 0x42] 3 [0x61] 8).dstCap < 3 + 4 + (2#2).toNat) ∧
    ((atToken .run [0x41] 3 [0x61] 9).Decoding ∧ 3 + 4 + (2#2).toNat ≤ 9 ∧ (atToken .run [0x41] 3 [0x61] 9).srcLen < 0 + (2#2).toNat) ∧
    ((atToken .run [0x41, 0x42] 3 [0x61] 9).Decoding ∧ 3 + 4 + (2#2).toNat ≤ (atToken .run [0x41, 0x42] 3 [0x61] 9).dstCap ∧
      0 + (2#2).toNat ≤ (atToken .run [0x41, 0x42] 3 [0x61] 9).srcLen) := by decide +kernel
/-- `CopyReproducesMatch`: DST holds "ab", the input is "abab". -/
theorem witness_copyReproducesMatch :
    (atToken (.trail 2) [] 2 [0x61, 0x62] 4).Decoding ∧ (atToken (.trail 2) [] 2 [0x61, 0x62] 4).dp.op + 2 ≤ 4 ∧
    (∀ j, j < 2 → (atToken (.trail 2) [] 2 [0x61, 0x62] 4).dst j = if j % 2 = 0 then 0x61 else 0x62) := by decide +kernel
/-- `StepRunsDecodedToken`, both hosts; `StepRunsEncodedToken`. -/
theorem witness_stepRunsToken :
    (atToken (.trail 1) [0x62, 0x00, 0x41, 0x42] 1 [0x78] 7).Decoding ∧ (atToken (.trail 1) [0x62, 0x00, 0x41, 0x42] 1 [0x78] 7).host = [] ∧
    ({ atToken (.trail 1) [0x62, 0x00, 0x41, 0x42] 1 [0x78] 7 with host := [.engine] } : State).Decoding ∧
    (Instr.m2 4 1 2).wf = true ∧ (Instr.m2 4 1 2).readIn (.trail 1) = true ∧
    decodeToken (.trail 1) (atToken (.trail 1) [0x62, 0x00, 0x41, 0x42] 1 [0x78] 7).stream = .ok (.m2 4 1 2, 2) ∧
    (atToken (.trail 1) [0x62, 0x00, 0x41, 0x42] 1 [0x78] 7).stream = encode (.m2 4 1 2) ++ [0x41, 0x42] := by decide +kernel
theorem witness_truncatedHeader : (atToken (.trail 1) [0x20, 0x2B, 0x10] 1 [0x41] 77).Decoding ∧
    decodeToken (.trail 1) (atToken (.trail 1) [0x20, 0x2B, 0x10] 1 [0x41] 77).stream = .error .inputOverrun := by decide +kernel
/-- `EndMarker` and `DecompressEnds`. -/
theorem witness_endMarker : (atToken .start [0x11, 0x00, 0x00] 0 [] 0).Decoding ∧
    (atToken .start [0x11, 0x00, 0x00] 0 [] 0).host = [] := by decide +kernel
/-- `TruncationIsInputOverrun`: the stream `11 00 00` ends OK after its check step and one token, and 2 is a shorter length. -/
theorem witness_truncation : (buffers [0x11, 0x00, 0x00] 0).Ready ∧ 2 < (buffers [0x11, 0x00, 0x00] 0).srcLen ∧
    ∃ s1, exec (.decompress false true) (buffers [0x11, 0x00, 0x00] 0) = .next s1 ∧
      ∃ t, Reaches 2 s1 t ∧ decide (t.fsm = .idle ∧ t.csr.errcode = 0) = true :=
  ⟨by decide +kernel, by decide +kernel, _, rfl, of_after (by decide +kernel)⟩
/-- `FirstLiteralStreamDecompresses`: n = 1. -/
theorem witness_firstLiteralStream :
    let s : State := { buffers [0x12, 0x61, 0x11, 0x00, 0x00] 1 with csr := { (buffers [0x12, 0x61, 0x11, 0x00, 0x00] 1).csr with expLen := 1 } }
    s.Ready ∧ s.srcLen = 1 + 4 ∧ 1 ≤ s.dstCap ∧ s.csr.expLen.toNat = 1 ∧ s.src 0 = BitVec.ofNat 8 (17 + 1) ∧ s.src 2 = 0x11 ∧
      s.src 3 = 0 ∧ s.src 4 = 0 := by decide +kernel

/-! ### The compressor -/

/-- `ShortInputCompresses` at n = 1 and n = 31, and `WorstCaseBound`. -/
theorem witness_compressReady :
    ((buffers [0x61] 5).Ready ∧ (buffers [0x61] 5).srcLen = 1 ∧ 1 + 4 ≤ (buffers [0x61] 5).dstCap) ∧
    ((buffers (List.replicate 31 0x61) 35).Ready ∧ (buffers (List.replicate 31 0x61) 35).srcLen = 31 ∧
      31 + 4 ≤ (buffers (List.replicate 31 0x61) 35).dstCap) ∧
    ((buffers [0x61] 68).Ready ∧ Config.worstCase (buffers [0x61] 68).srcLen ≤ (buffers [0x61] 68).dstCap) := by decide +kernel
/-- `RoundTrip`: a one-byte COMPRESS that ends OK, and a block that holds its output as SRC. -/
theorem witness_roundTrip :
    (∃ s1, exec (.compress false true) (buffers [0x61] 5) = .next s1 ∧ ∃ t, Reaches 3 s1 t ∧
      decide (t.fsm = .idle ∧ t.csr.errcode = 0 ∧ t.csr.outLen = 5 ∧
        dstFrom t 0 5 = [0x12, 0x61, 0x11, 0x00, 0x00]) = true) ∧
    (buffers [0x61] 5).Ready ∧ (buffers [0x12, 0x61, 0x11, 0x00, 0x00] 1).Ready ∧
    (buffers [0x12, 0x61, 0x11, 0x00, 0x00] 1).csr.srcLen = 5 ∧
    (buffers [0x61] 5).srcLen ≤ (buffers [0x12, 0x61, 0x11, 0x00, 0x00] 1).dstCap := by
  refine ⟨⟨_, rfl, of_after (by decide +kernel)⟩, ?_⟩
  decide +kernel
/-- `BlockStart`: 21 bytes left with 11 pending make the span 32; 21 with 10 do not, and 20 are too few. -/
theorem witness_blockStart :
    ((atStage .outer (List.replicate 32 0x61) 99 { Datapath.reset with p := 11, t := 11, l := 21 }).Compressing .outer ∧
      20 < 21 ∧ 32 ≤ 11 + min 21 49152) ∧
    ((atStage .outer (List.replicate 32 0x61) 99 { Datapath.reset with p := 11, t := 10, l := 21 }).Compressing .outer ∧
      10 + min 21 49152 < 32) ∧
    ((atStage .outer (List.replicate 32 0x61) 99 { Datapath.reset with p := 12, t := 12, l := 20 }).Compressing .outer) := by
  decide +kernel
/-- `ProbeStep`: a probe that matches, and one that does not. -/
theorem witness_probeStep :
    ((atStage .next as40 99 blockDp).Compressing .next ∧ blockDp.ip < blockDp.ipEnd ∧
      (atStage .next as40 99 blockDp).le32 0 = (atStage .next as40 99 blockDp).le32 5) ∧
    ((atStage .next (0x62 :: List.replicate 39 0x61) 99 blockDp).Compressing .next ∧
      (atStage .next (0x62 :: List.replicate 39 0x61) 99 blockDp).le32 0 ≠
        (atStage .next (0x62 :: List.replicate 39 0x61) 99 blockDp).le32 5) := by decide +kernel
theorem witness_blockEnd : (atStage .next as40 99 { blockDp with ip := 20 }).Compressing .next ∧ 20 ≤ 20 := by decide +kernel
/-- `MatchStep`: a run of 4 whose 8 bytes of header, literals and M3 token just fit, and just do not, and a run of 3 after a token. -/
theorem witness_matchStep :
    ((atStage .hit as40 8 { blockDp with ip := 19, ii := 15 }).Compressing .hit ∧
      0 + (runHeader 4).length + 4 + (matchBytes (atStage .hit as40 8 { blockDp with ip := 19, ii := 15 }).extendMatch.dp.mLen 19).length = 8) ∧
    ((atStage .hit as40 7 { blockDp with ip := 19, ii := 15 }).Compressing .hit) ∧
    ((atStage .hit as40 99 { blockDp with ip := 19, ii := 16, op := 9 }).Compressing .hit) := by decide +kernel
/-- `MatchExtension` and `MatchDistanceBound`, at the last probe position of the block. -/
theorem witness_match : (atStage .hit as40 99 { blockDp with ip := 19, ii := 15 }).Compressing .hit ∧
    (atStage .hit as40 99 { blockDp with ip := 19, ii := 15 }).le32 0 = (atStage .hit as40 99 { blockDp with ip := 19, ii := 15 }).le32 19 := by
  decide +kernel
/-- `FlushStep`: with room, and without; and with a token to patch. -/
theorem witness_flushStep : (atStage .flush [0x61] 5 { Datapath.reset with t := 1 }).Compressing .flush ∧
    (atStage .flush [0x61] 4 { Datapath.reset with t := 1 }).Compressing .flush ∧ finalHeader 0 1 = [0x12] ∧
    (atStage .flush as40 99 { Datapath.reset with t := 3, op := 9 }).Compressing .flush ∧ finalHeader 9 3 = [] := by decide +kernel
/-- `CompressEnds` and `StaleDatapathUnobservable`: a COMPRESS and a DECOMPRESS at their checks, which a step leaves. -/
theorem witness_checks : (atStage .check as40 99 Datapath.reset).Compressing .check ∧
    after (step (atStage .check as40 99 Datapath.reset)) (fun t => decide (t.fsm = .runCompress .outer)) = true ∧
    after (step { buffers [] 3 with fsm := .runDecompress .check }) (fun t => decide (t.fsm = .runDecompress .fetch)) = true := by
  decide +kernel

/-! ### Commands -/

theorem witness_stepRunsDecodedCommand :
    ({ State.reset with host := [.csrw 0x08 0x13] } : State).host = .csrw 0x08 0x13 :: [] ∧ decodeCtrl 0x13 = .ok (.compress false true) ∧
    ({ State.reset with host := [.csrw 0x08 0x18] } : State).host = .csrw 0x08 0x18 :: [] ∧ (0x18#32).getLsbD 0 = false := by decide
/-- `AcceptedStart`, `ReservedCommand`, `InitCommand`: an IDLE block. `StartWhileBusy`: a busy one. `StartChecks`: both commands at their
checks, failing each and passing all. -/
theorem witness_starts : State.reset.fsm = .idle ∧ State.reset.host = [] ∧ (atStage .outer as40 99 blockDp).fsm ≠ .idle := by decide
theorem witness_startChecks :
    ({ State.reset with fsm := .runInit } : State).host = [] ∧
    ({ State.reset with fsm := .runCompress .check } : State).host = [] ∧ State.reset.csr.initOk = false ∧
    2 ^ 32 < (0xFFFFFFFF#32).toNat + (2#32).toNat ∧ ¬ 2 ^ 32 < (0xFFFFFFFF#32).toNat + (1#32).toNat ∧
    (buffers as40 99).overlap = false ∧ (buffers as40 99).inSpace = true ∧
    ({ State.reset with fsm := .runDecompress .check } : State).host = [] := by decide +kernel
/-- `TerminationTable`: each kind of FSM value the clauses name. -/
theorem witness_termination : ({ State.reset with fsm := .runInit } : State).fsm = .runInit ∧ State.reset.fsm ≠ .runInit ∧
    (atStage .flush as40 99 blockDp).fsm = .runCompress .flush ∧ CompressPhase.flush ≠ .check ∧
    (atToken .start [] 0 [] 0).fsm = .runDecompress .fetch := by decide
theorem witness_interruptOutput : ({ State.reset with csr := { Csr.reset with done := true }, host := [.csrw 0x08 0x18] } : State).csr.done = true ∧
    (0x18#32).getLsbD 0 = false ∧ (0x18#32).getLsbD 3 = true := by decide

/-! ### The CSR port -/

/-- `CsrReadMap`, `ConfigWrites`, `StatusWrite`, `OddCsrAccessRefused`, `CsrWriteDuringCommand`: offsets at the ends of the window and past it. -/
theorem witness_csrPort :
    ({ State.reset with host := [.csrr 0x3C] } : State).host = .csrr 0x3C :: [] ∧
    ({ State.reset with host := [.csrw 0x30 7] } : State).host = .csrw 0x30 7 :: [] ∧
    ({ State.reset with host := [.csrw 0x0C 2] } : State).host = .csrw 0x0C 2 :: [] ∧ (2#32).getLsbD 1 = true ∧
    0x3E % 4 ≠ 0 ∧ 1 ≠ 4 ∧ ({ State.reset with host := [.csrNarrow 0x08 1] } : State).host = .csrNarrow 0x08 1 :: [] ∧
    after (step { atStage .outer as40 99 blockDp with host := [.csrw 0x08 0x1B] }) (fun t => decide (t.csr.ie = true)) = true := by
  decide +kernel

/-! ### The whole machine -/

/-- `StepKeepsInvariant`, `StepNeverFaults`, `EngineWritesOnlyAtOp`: an engine step from a state with the invariant. -/
theorem witness_invariant : (atStage .hit as40 99 blockDp).Inv ∧ (atStage .hit as40 99 blockDp).raced = false ∧
    (atToken .start [0x12, 0x61] 0 [] 1).Inv ∧ after (step (atToken .start [0x12, 0x61] 0 [] 1)) (fun t => decide (t.dst 0 = 0x61)) = true ∧
    after (step (atStage .hit as40 99 blockDp)) (fun t => decide (t.dp.op = 9)) = true := by decide +kernel
/-- `InitOkLifetime`: an INIT that sets INIT_OK, and a reset that clears it. -/
theorem witness_initOk :
    after (step { State.reset with fsm := .runInit, csr := { Csr.reset with handshake := 7 } }) (fun t => t.csr.initOk) = true ∧
    after (step { buffers [] 0 with host := [.reset] }) (fun t => !t.csr.initOk) = true := by decide +kernel
/-- `HashTableOnlyByCompress`: a probe changes H; so does a reset of a state that holds an entry. -/
theorem witness_hashTable : after (step (atStage .next as40 99 blockDp)) (fun t => decide (t.tbl ≠ [])) = true ∧
    after (step { atStage .next as40 99 blockDp with fsm := .idle, tbl := [(1, 1)], host := [.reset] })
      (fun t => decide (t.tbl = [])) = true := by decide +kernel
/-- A COMPRESS that ended unseen. -/
def unseen : State := { buffers as40 99 with flight := some ⟨0x100, 40, 0x1000, 99, true⟩ }
/-- `ResultsOnlyAtEnd`: a flush writes OUT_LEN, a reset clears it; the reserved START writes ERRCODE and OUT_LEN, an INIT START ERRCODE; and a host
write that races with an ended command. -/
theorem witness_results_starts :
    after (step { State.reset with csr := { Csr.reset with outLen := 5 }, host := [.csrw 0x08 0x17] })
      (fun t => decide (t.csr.outLen = 0 ∧ t.csr.errcode = 9)) = true ∧
    after (step { State.reset with csr := { Csr.reset with errcode := 5 }, host := [.csrw 0x08 0x11] })
      (fun t => decide (t.csr.errcode = 0)) = true ∧
    ({ unseen with host := [.memw 0x100 1] } : State).RacesEnded :=
  ⟨by decide +kernel, by decide +kernel, 0x100, 1, [], _, rfl, rfl, rfl, by decide⟩
theorem witness_results : after (step (atStage .flush [0x61] 5 { Datapath.reset with t := 1 })) (fun t => decide (t.csr.outLen = 5)) = true ∧
    after (step { State.reset with csr := { Csr.reset with outLen := 5 }, host := [.reset] }) (fun t => decide (t.csr.outLen = 0)) = true := by
  decide +kernel
theorem witness_configuration : (atStage .next as40 99 blockDp).fsm ≠ .idle ∧ (atStage .next as40 99 blockDp).host = [] ∧
    after (step (atStage .next as40 99 blockDp)) (fun _ => true) = true := by decide +kernel
/-- `ResetInput`: while IDLE, and during a match. -/
theorem witness_reset : ({ buffers as40 99 with host := [.reset] } : State).Inv ∧
    ({ atStage .hit as40 99 blockDp with host := [.reset] } : State).Inv := by decide +kernel
/-- `RacedCommandEnds`: a raced COMPRESS and a raced DECOMPRESS. -/
theorem witness_raced : ({ atStage .next as40 99 blockDp with raced := true } : State).Inv ∧
    ({ atToken .start [0x11] 0 [] 9 with raced := true } : State).Inv := by decide +kernel
/-- `HostMemoryAccess`: a write to the first byte of SRC during a command, a read of the last byte of DST while IDLE, and one outside DST. -/
theorem witness_hostMemory :
    ({ atStage .next as40 99 blockDp with host := [.memw 0x100 1] } : State).Inv ∧ (atStage .next as40 99 blockDp).inSrc 0x100 = true ∧
    ({ buffers as40 99 with host := [.memr 0x1062] } : State).Inv ∧ (buffers as40 99).inDst 0x1062 = true ∧
    (buffers as40 99).inDst 0x1063 = false ∧
    ({ unseen with host := [.memw 0x1062 1] } : State).Inv ∧ unseen.endedRace 0x1062 = true ∧ unseen.endedRace 0x1063 = false := by
  decide +kernel
/-- `CommandInFlight`: a STATUS read with DONE = 1, and both waits. -/
theorem witness_commandInFlight :
    let s : State := { unseen with csr := { unseen.csr with done := true, ie := true } }
    s.Inv ∧ s.csr.done = true ∧ s.csr.ie = true ∧
    after (step { s with host := [.csrr 0x0C] }) (fun t => decide (t.flight ≠ s.flight)) = true ∧
    after (step { s with host := [.waitDone] }) (fun t => decide (t.flight ≠ s.flight)) = true ∧
    after (step { s with host := [.waitIrq] }) (fun t => decide (t.flight ≠ s.flight)) = true ∧
    after (step { s with host := [.csrw 0x08 0x11] }) (fun t => decide (t.flight ≠ s.flight)) = true := by decide +kernel

end Sys2Proof.Tests
end

section
/-! PROOFS. The CSR port: what a CTRL write decodes to and runs, what a write and a read of each register do, and the bits of the two
computed words (10_state.md R22 to R49, 30_encoding.md R110). -/

namespace Sys2Proof

/-- Bit 0 of a CTRL write decides whether it asks for a command (R110). -/
theorem decodeCtrl_of_start_clear {w : Word} (h : w.getLsbD 0 = false) : decodeCtrl w = .error .noStart := by
  rw [decodeCtrl, h]
  rfl

/-- The four commands a CTRL write can ask for, with IE in bit 3 and STRICT in bit 4 (R110). -/
theorem decodeCtrl_ok_cases {w : Word} {i : Instr} (h : decodeCtrl w = .ok i) : w.getLsbD 0 = true ∧
    (i = .init (w.getLsbD 3) (w.getLsbD 4) ∨ i = .compress (w.getLsbD 3) (w.getLsbD 4) ∨
      i = .decompress (w.getLsbD 3) (w.getLsbD 4) ∨ i = .reservedCmd3 (w.getLsbD 3) (w.getLsbD 4)) := by
  unfold decodeCtrl at h
  split at h
  · next hstart =>
    refine ⟨hstart, ?_⟩
    simp only at h
    split at h <;> cases h <;> simp
  · cases h

end Sys2Proof

namespace Sys2Proof.Machine

/-! ## BUSY, and the updates that depend on it -/

theorem busy_eq_false_iff {s : State} : s.busy = false ↔ s.fsm = .idle := by simp [State.busy]

theorem busy_eq_true_iff {s : State} : s.busy = true ↔ s.fsm ≠ .idle := by simp [State.busy]

theorem startCommand_busy {s : State} (h : s.fsm ≠ .idle) (cmd : BitVec 2) (ie strict : Bool) (f : Fsm) :
    s.startCommand cmd ie strict f = s.setIe ie := by simp [State.startCommand, busy_eq_true_iff.mpr h]

theorem startCommand_idle {s : State} (h : s.fsm = .idle) (cmd : BitVec 2) (ie strict : Bool) (f : Fsm) :
    s.startCommand cmd ie strict f = s.acceptStart cmd ie strict f := by simp [State.startCommand, busy_eq_false_iff.mpr h]

/-- R40: a configuration register takes a write while BUSY = 0 only. -/
theorem setConfig_eq (s : State) (c : Csr) : s.setConfig c = { s with csr := if s.fsm = .idle then c else s.csr } := by
  unfold State.setConfig
  cases hb : s.busy
  · simp [busy_eq_false_iff.mp hb]
  · simp [busy_eq_true_iff.mp hb]

/-- R28: a write to STATUS touches DONE only. -/
theorem writeStatus_eq (s : State) (v : Word) :
    s.writeStatus v = { s with csr := { s.csr with done := if v.getLsbD 1 then false else s.csr.done } } := by
  unfold State.writeStatus
  split <;> rfl

/-- R25, R26: a CTRL write with START = 0 stores the three fields, or IE alone while BUSY = 1. -/
theorem writeCtrl_eq (s : State) (v : Word) : s.writeCtrl v = { s with
    csr := if s.fsm = .idle then { s.csr with cmd := v.extractLsb' 1 2, ie := v.getLsbD 3, strict := v.getLsbD 4 }
      else { s.csr with ie := v.getLsbD 3 } } := by
  unfold State.writeCtrl
  cases hb : s.busy
  · simp [busy_eq_false_iff.mp hb, State.storeCtrl]
  · simp [busy_eq_true_iff.mp hb, State.setIe]

/-! ## The commands -/

theorem exec_init (ie strict : Bool) (s : State) :
    exec (.init ie strict) s = .next (s.startCommand 0 ie strict .runInit) := rfl

theorem exec_compress (ie strict : Bool) (s : State) :
    exec (.compress ie strict) s = .next (s.startCommand 1 ie strict (.runCompress .check)) := rfl

theorem exec_decompress (ie strict : Bool) (s : State) :
    exec (.decompress ie strict) s = .next (s.startCommand 2 ie strict (.runDecompress .check)) := rfl

theorem exec_reservedCmd3 (ie strict : Bool) (s : State) : exec (.reservedCmd3 ie strict) s =
    .next (if s.busy then s.setIe ie else (s.acceptStart 3 ie strict .idle).terminate .invalidArgument) := rfl

/-- R26: each command that finds the block busy stores IE and does nothing else. -/
theorem exec_command_busy {s : State} (h : s.fsm ≠ .idle) {i : Instr} {ie strict : Bool}
    (hi : i = .init ie strict ∨ i = .compress ie strict ∨ i = .decompress ie strict ∨ i = .reservedCmd3 ie strict) :
    exec i s = .next (s.setIe ie) := by
  rcases hi with rfl | rfl | rfl | rfl
  · rw [exec_init, startCommand_busy h]
  · rw [exec_compress, startCommand_busy h]
  · rw [exec_decompress, startCommand_busy h]
  · rw [exec_reservedCmd3, if_pos (busy_eq_true_iff.mpr h)]

/-! ## Writes to CTRL -/

theorem ctrlWrite_command {s : State} {v : Word} {i : Instr} (h : decodeCtrl v = .ok i) : s.ctrlWrite v = exec i s := by
  simp [State.ctrlWrite, h]

theorem ctrlWrite_store {s : State} {v : Word} (h : v.getLsbD 0 = false) : s.ctrlWrite v = .next (s.writeCtrl v) := by
  simp [State.ctrlWrite, decodeCtrl_of_start_clear h]

theorem ctrlWrite_cases (s : State) (v : Word) :
    (v.getLsbD 0 = false ∧ s.ctrlWrite v = .next (s.writeCtrl v)) ∨
    (v.getLsbD 0 = true ∧ ∃ i, decodeCtrl v = .ok i ∧ s.ctrlWrite v = exec i s) := by
  cases hd : decodeCtrl v with
  | ok i => exact .inr ⟨(decodeCtrl_ok_cases hd).1, i, rfl, ctrlWrite_command hd⟩
  | error e =>
    cases hv : v.getLsbD 0 with
    | false => exact .inl ⟨rfl, ctrlWrite_store hv⟩
    | true =>
      unfold decodeCtrl at hd
      rw [if_pos hv] at hd
      simp only at hd
      split at hd <;> cases hd

/-- R26: whatever is written to CTRL while BUSY = 1, IE takes bit 3 and nothing else changes. -/
theorem ctrlWrite_busy {s : State} (h : s.fsm ≠ .idle) (v : Word) : s.ctrlWrite v = .next (s.setIe (v.getLsbD 3)) := by
  rcases ctrlWrite_cases s v with ⟨-, hw⟩ | ⟨-, i, hi, hw⟩
  · rw [hw, writeCtrl_eq, if_neg h]
    rfl
  · rw [hw, exec_command_busy h (decodeCtrl_ok_cases hi).2]

/-- A CTRL write to an IDLE block stores the fields, starts INIT, COMPRESS or DECOMPRESS, or ends the reserved command at once
(R25, R211, R216). -/
theorem ctrlWrite_idle_cases {s : State} (h : s.fsm = .idle) (v : Word) :
    (v.getLsbD 0 = false ∧ s.ctrlWrite v = .next (s.storeCtrl (v.extractLsb' 1 2) (v.getLsbD 3) (v.getLsbD 4))) ∨
    (v.getLsbD 0 = true ∧ ∃ cmd f ie strict, s.ctrlWrite v = .next (s.acceptStart cmd ie strict f) ∧
      (cmd = 0 ∧ f = .runInit ∨ cmd = 1 ∧ f = .runCompress .check ∨ cmd = 2 ∧ f = .runDecompress .check)) ∨
    (v.getLsbD 0 = true ∧ ∃ ie strict, decodeCtrl v = .ok (.reservedCmd3 ie strict) ∧
      s.ctrlWrite v = .next ((s.acceptStart 3 ie strict .idle).terminate .invalidArgument)) := by
  rcases ctrlWrite_cases s v with ⟨hv, hw⟩ | ⟨hv, i, hi, hw⟩
  · refine .inl ⟨hv, ?_⟩
    rw [hw, writeCtrl_eq, if_pos h]
    rfl
  · rw [hw]
    obtain ⟨-, rfl | rfl | rfl | rfl⟩ := decodeCtrl_ok_cases hi
    · exact .inr (.inl ⟨hv, 0, _, _, _, by rw [exec_init, startCommand_idle h], by simp⟩)
    · exact .inr (.inl ⟨hv, 1, _, _, _, by rw [exec_compress, startCommand_idle h], by simp⟩)
    · exact .inr (.inl ⟨hv, 2, _, _, _, by rw [exec_decompress, startCommand_idle h], by simp⟩)
    · exact .inr (.inr ⟨hv, _, _, hi, by rw [exec_reservedCmd3, if_neg (by simp [busy_eq_false_iff.mpr h])]⟩)

/-! ## Writes to any register -/

/-- The CSR file `c` with the six configuration registers of R40 taken from `d`. -/
def Csr.withConfig (c d : Csr) : Csr :=
  { c with
    srcBase := d.srcBase, srcLen := d.srcLen, dstBase := d.dstBase, dstCap := d.dstCap, expLen := d.expLen
    handshake := d.handshake }

/-- A CSR write that is not refused is a write to CTRL, a write to STATUS, or changes at most the configuration of an IDLE block
(R22 to R40). -/
theorem csrWrite_cases {s t : State} {off : Nat} {v : Word} (h : s.csrWrite off v = .next t) :
    (off = 0x08 ∧ s.ctrlWrite v = .next t) ∨ (off = 0x0C ∧ t = s.writeStatus v) ∨
    (off ≠ 0x08 ∧ off ≠ 0x0C ∧ ∃ c, t = { s with csr := if s.fsm = .idle then s.csr.withConfig c else s.csr }) := by
  have ignored : s = { s with csr := if s.fsm = .idle then s.csr.withConfig s.csr else s.csr } := by
    split <;> rfl
  have stored (c : Csr) (hc : s.csr.withConfig c = c) :
      ∃ d, s.setConfig c = { s with csr := if s.fsm = .idle then s.csr.withConfig d else s.csr } :=
    ⟨c, by rw [hc, setConfig_eq]⟩
  unfold State.csrWrite at h
  split at h
  case h_3 => exact .inl ⟨rfl, h⟩
  case h_4 => cases h; exact .inr (.inl ⟨rfl, rfl⟩)
  case h_17 => cases h
  all_goals cases h; refine .inr (.inr ⟨by decide, by decide, ?_⟩)
  case h_6 | h_7 | h_8 | h_9 | h_10 | h_13 => exact stored _ rfl
  all_goals exact ⟨s.csr, ignored⟩

/-! ## Reads -/

/-- R65, R78: a read of a register of the window returns its value, and closes the model's mark of an ended command where it shows DONE. -/
theorem csrFetch_eq {s : State} {off : Nat} {w : Word} (h : s.csrRead off = some w) : s.csrFetch off =
    .next { s with rdata := w, flight := if off = 0x0C ∧ s.csr.done = true then none else s.flight } := by
  unfold State.csrFetch
  rw [h]
  by_cases ho : off = 0x0C <;> cases hd : s.csr.done <;> simp [State.observe, State.seeDone, ho, hd]

/-- A read that is not refused changes only `rdata`, and the mark of an ended command where it shows DONE (R65, R78). -/
theorem csrFetch_next {s t : State} {off : Nat} (h : s.csrFetch off = .next t) : ∃ w, t =
    { s with rdata := w, flight := if off = 0x0C ∧ s.csr.done = true then none else s.flight } := by
  cases hr : s.csrRead off with
  | none => simp [State.csrFetch, hr] at h
  | some w =>
    rw [csrFetch_eq hr] at h
    exact ⟨w, by cases h; rfl⟩

/-! ## The bits of CTRL and STATUS -/

/-- The bits of a word built from its five low bits. -/
theorem wordOfBits_bits (b0 b1 b2 b3 b4 : Bool) :
    (wordOfBits b0 b1 b2 b3 b4).getLsbD 0 = b0 ∧ (wordOfBits b0 b1 b2 b3 b4).getLsbD 1 = b1 ∧
    (wordOfBits b0 b1 b2 b3 b4).getLsbD 2 = b2 ∧ (wordOfBits b0 b1 b2 b3 b4).getLsbD 3 = b3 ∧
    (wordOfBits b0 b1 b2 b3 b4).getLsbD 4 = b4 ∧ (wordOfBits b0 b1 b2 b3 b4).extractLsb' 5 27 = 0 := by
  revert b0 b1 b2 b3 b4
  decide

/-- CMD reads in bits 2:1 of CTRL (R25). -/
theorem wordOfBits_cmd (b0 b3 b4 : Bool) (cmd : BitVec 2) :
    (wordOfBits b0 (cmd.getLsbD 0) (cmd.getLsbD 1) b3 b4).extractLsb' 1 2 = cmd := by
  revert b0 b3 b4 cmd
  decide

theorem wordOfBits_above (b0 b1 b2 b3 : Bool) : (wordOfBits b0 b1 b2 b3 false).extractLsb' 4 28 = 0 := by
  revert b0 b1 b2 b3
  decide

/-! ## The statements about the CSR port -/

/-- Settles O34: a CTRL write decodes to a command, which runs, or has START = 0. -/
theorem stepRunsDecodedCommand : Obligations.StepRunsDecodedCommand := by
  intro s w rest hh
  have hstep : step s = ({ s with host := rest } : State).ctrlWrite w := step_csrw hh
  refine ⟨fun i hi => ?_, fun hw => ?_⟩
  · rw [hstep, ctrlWrite_command hi]
  · rw [hstep, ctrlWrite_store hw, writeCtrl_eq]

/-- Settles O36: START = 1 and START = 0 come to the same update of IE while the block is busy. -/
theorem startWhileBusy : Obligations.StartWhileBusy := by
  intro s hbusy
  refine ⟨fun w rest hh => ?_, fun ie strict i hi => ?_⟩
  · have hstep : step s = ({ s with host := rest } : State).ctrlWrite w := step_csrw hh
    rw [hstep, ctrlWrite_busy (s := { s with host := rest }) hbusy]
    rfl
  · rw [exec_command_busy hbusy (strict := strict) (by simpa using hi)]
    rfl

/-- Settles O42: irq follows DONE and IE, and the write that sets IE leaves DONE alone. -/
theorem interruptOutput : Obligations.InterruptOutput := by
  refine ⟨fun _ => rfl, fun s w rest hh hstart hie hdone => ?_, rfl⟩
  have hstep : step s = ({ s with host := rest } : State).ctrlWrite w := step_csrw hh
  refine ⟨_, by rw [hstep, ctrlWrite_store hstart, writeCtrl_eq], ?_⟩
  by_cases hf : s.fsm = .idle
  · simp [State.irq, hf, hie, hdone]
  · simp [State.irq, hf, hie, hdone]

/-- Settles O43: each of the sixteen rows is the register's value in `csrRead`. -/
theorem csrReadMap : Obligations.CsrReadMap := by
  intro s off v rest hh hrow
  have hread : ({ s with host := rest } : State).csrRead off = some v := by
    simp only [List.mem_cons, List.not_mem_nil, or_false, Prod.mk.injEq] at hrow
    rcases hrow with ⟨rfl, rfl⟩ | ⟨rfl, rfl⟩ | ⟨rfl, rfl⟩ | ⟨rfl, rfl⟩ | ⟨rfl, rfl⟩ | ⟨rfl, rfl⟩ | ⟨rfl, rfl⟩ | ⟨rfl, rfl⟩ |
      ⟨rfl, rfl⟩ | ⟨rfl, rfl⟩ | ⟨rfl, rfl⟩ | ⟨rfl, rfl⟩ | ⟨rfl, rfl⟩ | ⟨rfl, rfl⟩ | ⟨rfl, rfl⟩ | ⟨rfl, rfl⟩ <;> rfl
  rw [step_csrr hh, csrFetch_eq hread]

/-- Settles O44, by the bits of `wordOfBits`. -/
theorem statusAndControlBits : Obligations.StatusAndControlBits := by
  intro s
  obtain ⟨hstart, -, -, hie, hstrict, habove⟩ :=
    wordOfBits_bits false (s.csr.cmd.getLsbD 0) (s.csr.cmd.getLsbD 1) s.csr.ie s.csr.strict
  obtain ⟨hbusy, hdone, herr, hinit, -, -⟩ := wordOfBits_bits s.busy s.csr.done s.err s.csr.initOk false
  exact ⟨⟨hstart, wordOfBits_cmd _ _ _ _, hie, hstrict, habove⟩, hbusy, hdone, herr, hinit, wordOfBits_above _ _ _ _⟩

/-- Settles O45: each of the six rows is a `setConfig`, and the other words ignore a write. -/
theorem configWrites : Obligations.ConfigWrites := by
  intro s off v rest hh
  rw [step_csrw hh]
  refine ⟨fun c hrow => ?_, fun hrow => ?_⟩
  · simp only [List.mem_cons, List.not_mem_nil, or_false, Prod.mk.injEq] at hrow
    rcases hrow with ⟨rfl, rfl⟩ | ⟨rfl, rfl⟩ | ⟨rfl, rfl⟩ | ⟨rfl, rfl⟩ | ⟨rfl, rfl⟩ | ⟨rfl, rfl⟩ <;>
      exact congrArg _ (setConfig_eq _ _)
  · simp only [List.mem_cons, List.not_mem_nil, or_false] at hrow
    rcases hrow with rfl | rfl | rfl | rfl | rfl | rfl | rfl | rfl <;> rfl

/-- Settles O46, by `writeStatus_eq`. -/
theorem statusWrite : Obligations.StatusWrite := by
  intro s v rest hh
  refine ⟨_, (step_csrw hh).trans (congrArg Host.Outcome.next (writeStatus_eq { s with host := rest } v)), rfl, fun hv => ?_⟩
  simp [State.irq, hv]

/-- R219: DONE is 0 while a command runs. -/
theorem done_eq_false_of_busy {s : State} (hs : s.Inv) (hbusy : s.fsm ≠ .idle) : s.csr.done = false := by
  obtain ⟨-, -, hb, -, -⟩ := hs
  unfold State.busyOk at hb
  split at hb
  · contradiction
  all_goals
    simp only [Bool.and_eq_true, Bool.not_eq_true'] at hb
    exact hb.1.1

/-- Settles O48: while BUSY = 1 only the writes to CTRL and STATUS do anything, to IE and to DONE, and DONE is 0 already. -/
theorem csrWriteDuringCommand : Obligations.CsrWriteDuringCommand := by
  intro s t off v rest hbusy hh hstep
  have hdone (hs : s.Inv) : s.csr.done = false := done_eq_false_of_busy hs hbusy
  rw [step_csrw hh] at hstep
  rcases csrWrite_cases hstep with ⟨rfl, hw⟩ | ⟨rfl, rfl⟩ | ⟨-, -, c, rfl⟩
  · rw [ctrlWrite_busy (s := { s with host := rest }) hbusy] at hw
    cases hw
    exact ⟨rfl, fun h => absurd rfl h, fun _ => rfl, hdone⟩
  · rw [writeStatus_eq]
    refine ⟨rfl, fun _ => rfl, fun h => absurd rfl h, fun hinv => ?_⟩
    simp [hdone hinv]
  · rw [if_neg hbusy]
    exact ⟨rfl, fun _ => rfl, fun _ => rfl, hdone⟩

end Sys2Proof.Machine
end

section
/-! PROOFS. What the invariant says, one `↔` for each of its parts, and the reset state (Safety.lean). -/

namespace Sys2Proof.Machine

/-! ## The parts of the invariant -/

/-- What `startedOk` says: INIT has succeeded, the regions are apart in the address space, and `op` is in DST (R45, R212). -/
structure State.Started (s : State) : Prop where
  initOk : s.csr.initOk = true
  inSpace : s.inSpace = true
  overlap : s.overlap = false
  op_le : s.dp.op ≤ s.dstCap

theorem startedOk_iff {s : State} : s.startedOk = true ↔ s.Started := by
  simp only [State.startedOk, Bool.and_eq_true, Bool.not_eq_true', decide_eq_true_eq]
  exact ⟨fun ⟨⟨⟨h1, h2⟩, h3⟩, h4⟩ => ⟨h1, h2, h3, h4⟩, fun h => ⟨⟨⟨h.initOk, h.inSpace⟩, h.overlap⟩, h.op_le⟩⟩

/-- DST lies in the address space (R74). -/
theorem dst_end_le_of_inSpace {s : State} (h : s.inSpace = true) : s.dstAddr s.dstCap ≤ Config.addrSpace := by
  simp only [State.inSpace, Bool.and_eq_true, decide_eq_true_eq] at h
  exact h.2

/-- Apart regions have no address in common (R75). -/
theorem srcAddr_ne_dstAddr {s : State} (h : s.overlap = false) {i j : Nat} (hi : i < s.srcLen) (hj : j < s.dstCap) :
    s.srcAddr i ≠ s.dstAddr j := by
  intro he
  simp [State.overlap, State.srcAddr, State.dstAddr] at h he
  omega

theorem inDst_dstAddr {s : State} {j : Nat} (hj : j < s.dstCap) : s.inDst (s.dstAddr j) = true := by
  simp [State.inDst, State.dstAddr, hj]

/-- What the invariant says of a running DECOMPRESS (R43, R45, R212). -/
theorem decoding_started {s : State} (h : s.Inv) (hf : s.fsm = .runDecompress .fetch) : s.Started ∧ s.dp.ip ≤ s.srcLen := by
  obtain ⟨-, -, -, hstage, -⟩ := h
  simpa [State.stageOk, hf, startedOk_iff] using hstage

theorem mem_wf_of_inv {s : State} (h : s.Inv) : Store.wf s.mem = true := by
  obtain ⟨hst, -, -, -, -⟩ := h
  simp only [State.storesOk, Bool.and_eq_true] at hst
  exact hst.1.1

/-- Settles O49: nothing runs after reset, and every table is empty. -/
theorem resetMeetsInvariant : Obligations.ResetMeetsInvariant :=
  ⟨by decide, by decide, by decide, by decide, by decide⟩

end Sys2Proof.Machine
end

section
/-! PROOFS. The token loop: the step at a token, and the literal tokens (42_decompressor.md R182 to R185). -/

namespace Sys2Proof.Machine

/-- A stage past the checks goes on when the regions are in the address space and the host has not interfered. -/
theorem running_undisturbed {s : State} (hs : s.inSpace = true) (hr : s.raced = false)
    (k : Host.Outcome State Fault Refusal) : s.running k = k := by simp [State.running, hs, hr]

theorem fetchStep_token {s : State} {i : Instr} {k : Nat} (h : decodeToken s.dp.sreg s.stream = .ok (i, k)) :
    s.fetchStep = exec i (s.consumed i k) := by simp [State.fetchStep, h]

/-- No header changes `op` or `S` (R182). -/
theorem latchHeader_op_sreg (d : Datapath) (i : Instr) (hdr : List Byte) :
    (d.latchHeader i hdr).op = d.op ∧ (d.latchHeader i hdr).sreg = d.sreg := by
  cases i <;> exact ⟨rfl, rfl⟩

theorem consumed_op (s : State) (i : Instr) (k : Nat) : (s.consumed i k).dp.op = s.dp.op :=
  (latchHeader_op_sreg s.dp i (s.stream.take k)).1

theorem consumed_sreg (s : State) (i : Instr) (k : Nat) : (s.consumed i k).dp.sreg = s.dp.sreg :=
  (latchHeader_op_sreg s.dp i (s.stream.take k)).2

theorem srcFrom_congr {s s' : State} (h : ∀ i, s'.src i = s.src i) (k i : Nat) : s'.srcFrom k i = s.srcFrom k i := by
  induction k generalizing i with
  | zero => rfl
  | succ k ih => rw [State.srcFrom, State.srcFrom, h, ih]

/-- The stream depends on the CSR file, memory and `ip` only (R43). -/
theorem stream_congr {s s' : State} (hcsr : s'.csr = s.csr) (hmem : s'.mem = s.mem) (hip : s'.dp.ip = s.dp.ip) :
    s'.stream = s.stream := by
  have hsrc (i : Nat) : s'.src i = s.src i := by simp only [State.src, State.srcAddr, hcsr, hmem]
  have hlen : s'.srcLen = s.srcLen := by simp only [State.srcLen, hcsr]
  rw [State.stream, State.stream, hlen, hip, srcFrom_congr hsrc]

/-- Settles O15: past the checks of `running`, the engine fetches, whoever left it the turn. -/
theorem stepRunsDecodedToken : Obligations.StepRunsDecodedToken := by
  rintro s i k ⟨hinv, hf, hraced⟩ hd
  have hs := (decoding_started hinv hf).1.inSpace
  have hstream (host : List HostOp) : ({ s with host := host } : State).stream = s.stream := stream_congr rfl rfl rfl
  have hfetch (host : List HostOp) :
      ({ s with host := host } : State).engineStep = exec i (({ s with host := host } : State).consumed i k) := by
    rw [engineStep_fetch (s := { s with host := host }) hf, running_undisturbed (s := { s with host := host }) hs hraced,
      fetchStep_token (s := { s with host := host }) (by rw [hstream]; exact hd)]
  refine ⟨fun hh => ?_, fun rest hh => ?_, rfl, consumed_op s i k, consumed_sreg s i k⟩
  · rw [step_engine hh]
    exact hfetch s.host
  · rw [step_engineTurn hh, hfetch rest]

/-! ## Literal tokens -/

/-- A DECOMPRESS past its checks ends with both cursors as its counts (R217). -/
theorem terminate_fetch {s : State} (hf : s.fsm = .runDecompress .fetch) (e : ErrorCode) :
    s.terminate e = s.endedWith e.code s.dp.op s.dp.ip := by
  simp [State.terminate, State.endedWith, Csr.ended, State.results, hf]

theorem guarded_inSpace {s : State} (h : s.inSpace = true) (r : Res) : s.guarded r = .next r.settle := by
  simp [State.guarded, h]

/-- R142, R184, R185: a token that copies `n` literals and leaves `S` at `st` does what the statement asks in every case. -/
theorem literalOutcome_of_exec {i : Instr} {n : Nat} {st : DecState}
    (hexec : ∀ s, exec i s = s.guarded (litToken n st s)) : LiteralOutcome i n st := by
  rintro s ⟨hinv, hf, -⟩
  obtain ⟨hstarted, hip⟩ := decoding_started hinv hf
  have hop := hstarted.op_le
  have hlatch : (s.latchCount n).fsm = .runDecompress .fetch := hf
  rw [hexec, guarded_inSpace hstarted.inSpace, litToken]
  have hcases := copyLiterals_cases n (s.latchCount n)
  simp only [State.latchCount_dp, State.latchCount_srcLen, State.latchCount_dstCap] at hcases
  rcases hcases with ⟨hroom, hc⟩ | ⟨hroom, hleft, hc⟩ | ⟨hroom, hleft, hc⟩ <;> rw [hc]
  · refine ⟨fun _ => ?_, fun _ => by omega, fun _ => by omega⟩
    rw [Res.raise_andThen, Res.settle_raise, terminate_fetch hlatch]
    rfl
  · refine ⟨fun _ => by omega, fun _ _ => ?_, fun _ _ => by omega⟩
    rw [Res.raise_andThen, Res.settle_raise, terminate_fetch hlatch]
    rfl
  · refine ⟨fun _ => by omega, fun _ _ => by omega, fun hfit hhave => ?_⟩
    obtain ⟨m, hm, hwf, -, hframe, hcopied⟩ := copyLits_spec n (s.latchCount n) (mem_wf_of_inv hinv)
    refine ⟨m, by rw [hm]; rfl, hwf, hcopied fun j k hj hk => ?_, fun a ha => hframe a fun j hj => ?_⟩
    · exact srcAddr_ne_dstAddr hstarted.overlap (i := s.dp.ip + j) (j := s.dp.op + k) (by omega) (by omega)
    · exact ha (s.dp.op + j) (by omega) (by omega)

/-- Settles O10: the three literal tokens copy `n` bytes and differ in the `S` they leave. -/
theorem literalTokens : Obligations.LiteralTokens := fun n =>
  ⟨literalOutcome_of_exec (i := .litf n) fun _ => rfl, literalOutcome_of_exec (i := .litShort n) fun _ => rfl,
    literalOutcome_of_exec (i := .litLong n) fun _ => rfl⟩

end Sys2Proof.Machine
end

section
/-! PROOFS. What an engine step leaves unchanged at every stage, and the statements about steps that need no invariant: H, the result
registers and the configuration (10_state.md R29 to R40, R50, 43_commands.md R211, R268). -/

namespace Sys2Proof.Machine

/-! ## What a primitive touches -/

/-- `P` holds of the state a primitive leaves, whether it goes on or raises an error. -/
def Res.All (P : State → Prop) : Res → Prop
  | .ok s => P s
  | .raise _ s => P s

@[simp] theorem Res.all_ok {P : State → Prop} {s : State} : (Res.ok s).All P ↔ P s := Iff.rfl
@[simp] theorem Res.all_raise {P : State → Prop} {e : ErrorCode} {s : State} : (Res.raise e s).All P ↔ P s := Iff.rfl

theorem Res.All.mono {P Q : State → Prop} {r : Res} (h : r.All P) (hPQ : ∀ u, P u → Q u) : r.All Q := by
  cases r <;> exact hPQ _ h

/-- `Q` holds after two primitives where the second makes it hold from every state the first leaves. -/
theorem Res.All.andThen {P Q : State → Prop} {r : Res} {f : State → Res} (h : r.All P) (hraise : ∀ u, P u → Q u)
    (hok : ∀ u, P u → (f u).All Q) : (r.andThen f).All Q := by
  cases r with
  | ok u => exact hok u h
  | raise e u => exact hraise u h

/-- `u` is `s` but for the stage, the datapath registers and memory. -/
def Worked (s u : State) : Prop := u = { s with fsm := u.fsm, dp := u.dp, mem := u.mem }

theorem Worked.refl (s : State) : Worked s s := rfl

theorem Worked.trans {s u v : State} (h : Worked s u) (h' : Worked u v) : Worked s v := by
  unfold Worked at *
  rw [h', h]

/-- Registers set before a primitive are part of what it may touch. -/
theorem Worked.of_dp {s u : State} {d : Datapath} (h : Worked { s with dp := d } u) : Worked s u :=
  Worked.trans (u := { s with dp := d }) rfl h

theorem Wrote.worked {s u : State} (h : Wrote s u) : Worked s u := by
  unfold Worked
  rw [h.shape]

theorem Res.All.then_worked {s : State} {r : Res} {f : State → Res} (h : r.All (Worked s))
    (hf : ∀ u, (f u).All (Worked u)) : (r.andThen f).All (Worked s) :=
  h.andThen (fun _ hu => hu) fun u hu => (hf u).mono fun _ hv => hu.trans hv

/-! ### The decoder's copies -/

theorem copyLits_worked (n : Nat) (s : State) : Worked s (copyLits n s) := by
  induction n generalizing s with
  | zero => exact .refl s
  | succ n ih => exact Worked.trans (u := (s.putDst (s.src s.dp.ip)).setIp (s.dp.ip + 1)) rfl (ih _)

theorem copyLiterals_worked (n : Nat) (s : State) : (copyLiterals n s).All (Worked s) := by
  rcases copyLiterals_cases n s with ⟨-, h⟩ | ⟨-, -, h⟩ | ⟨-, -, h⟩ <;> rw [h]
  · exact .refl s
  · exact .refl s
  · exact copyLits_worked n s

theorem copyMatch_worked (dist len : Nat) (s : State) : (copyMatch dist len s).All (Worked s) := by
  rcases copyMatch_cases dist len s with ⟨-, h⟩ | ⟨-, -, h⟩ | ⟨-, -, h⟩ <;> rw [h]
  · exact .refl s
  · exact .refl s
  · exact (copyBack_wrote dist len s).1.worked

theorem trail_worked (t : BitVec 2) (s : State) : (trail t s).All (Worked s) := by
  refine Res.All.then_worked ?_ fun u => Res.all_ok.mpr rfl
  split
  · exact .refl s
  · exact copyLiterals_worked _ s

theorem copyToken_worked (len dist : Nat) (t : BitVec 2) (s : State) : (copyToken len dist t s).All (Worked s) :=
  Res.All.then_worked ((copyMatch_worked dist len _).mono fun _ h => h.of_dp)
    (trail_worked t)

theorem litToken_worked (n : Nat) (st : DecState) (s : State) : (litToken n st s).All (Worked s) :=
  Res.All.then_worked ((copyLiterals_worked n _).mono fun _ h => h.of_dp)
    fun _ => Res.all_ok.mpr rfl

/-! ### The compressor's output -/

theorem emit_worked (b : Byte) (s : State) : (emit b s).All (Worked s) := by
  rcases emit_cases b s with ⟨-, h⟩ | ⟨-, h⟩ <;> rw [h] <;> rfl

theorem emitAll_worked (bs : List Byte) (s : State) : (emitAll bs s).All (Worked s) := by
  induction bs generalizing s with
  | nil => exact .refl s
  | cons b bs ih => exact (emit_worked b s).then_worked ih

theorem compLiterals_worked (start n : Nat) (s : State) : (compLiterals start n s).All (Worked s) := by
  induction n generalizing start s with
  | zero => exact .refl s
  | succ n ih => exact (emit_worked _ s).then_worked (ih _)

theorem emitLitHeader_worked (t : Nat) (s : State) : (emitLitHeader t s).All (Worked s) := by
  unfold emitLitHeader
  split
  · exact Res.all_ok.mpr rfl
  · exact emitAll_worked _ s

theorem flushRun_worked (s : State) : s.flushRun.All (Worked s) := by
  simp only [State.flushRun]
  split
  · exact Res.all_ok.mpr rfl
  · exact ((emitLitHeader_worked _ _).then_worked (compLiterals_worked _ _)).mono fun _ h => h.of_dp

theorem emitMatch_worked (s : State) : s.emitMatch.All (Worked s) :=
  ((emitAll_worked _ _).mono fun _ h => h.of_dp).then_worked fun _ => Res.all_ok.mpr rfl

theorem hitStep_worked (s : State) : s.hitStep.All (Worked s) :=
  (flushRun_worked s).then_worked fun u => (emitMatch_worked u.extendMatch).mono fun _ h => h.of_dp

theorem flushHeader_worked (t : Nat) (s : State) : (flushHeader t s).All (Worked s) := by
  unfold flushHeader
  split
  · exact emitAll_worked _ s
  · split
    · exact Res.all_ok.mpr rfl
    · exact emitAll_worked _ s

theorem flushTail_worked (s : State) : s.flushTail.All (Worked s) := by
  unfold State.flushTail
  split
  · exact .refl s
  · exact (flushHeader_worked _ s).then_worked (compLiterals_worked _ _)

/-- A flush ends the command, with OK or with the error it raised (R165 to R167). -/
theorem flushStep_settle_all {P : State → Prop} {s : State} (h : (s.flushTail.andThen (emitAll eosBytes)).All P) :
    ∃ e u, P u ∧ s.flushStep.settle = u.terminate e := by
  unfold State.flushStep
  generalize s.flushTail.andThen (emitAll eosBytes) = r at h
  cases r with
  | ok u => exact ⟨.ok, u, h, rfl⟩
  | raise e u => exact ⟨e, u, h, rfl⟩

/-! ## What an engine step touches -/

/-- What an engine step may change: no host turn, no configuration, the other CSRs only where the command ends, and H only in a COMPRESS. -/
structure EngineFrame (s t : State) : Prop where
  host : t.host = s.host
  config : t.csr = { s.csr with
    done := t.csr.done, initOk := t.csr.initOk, errcode := t.csr.errcode, outLen := t.csr.outLen, inUsed := t.csr.inUsed }
  ended : t.csr = s.csr ∨ t.fsm = .idle ∧ t.csr.done = true
  tbl : t.tbl = s.tbl ∨ ∃ ph, s.fsm = .runCompress ph

theorem Worked.engineFrame {s u : State} (h : Worked s u) : EngineFrame s u := by
  rw [h]
  exact ⟨rfl, rfl, .inl rfl, .inl rfl⟩

theorem Worked.terminate_engineFrame {s u : State} (h : Worked s u) (e : ErrorCode) : EngineFrame s (u.terminate e) := by
  rw [h]
  exact ⟨rfl, rfl, .inr ⟨rfl, rfl⟩, .inl rfl⟩

theorem settle_engineFrame {s : State} {r : Res} (h : r.All (Worked s)) : EngineFrame s r.settle := by
  cases r with
  | ok u => exact Worked.engineFrame h
  | raise e u => exact Worked.terminate_engineFrame h e

/-- The meaning of a token is a primitive behind the region guard, or the end of the command. -/
theorem exec_token_cases {i : Instr} (hi : i.isCommand = false) :
    (∃ n st, ∀ s, exec i s = s.guarded (litToken n st s)) ∨ (∃ len dist t, ∀ s, exec i s = s.guarded (copyToken len dist t s)) ∨
    (∃ len, ∀ s, exec i s = .next (({ s with dp := { s.dp with len := len } } : State).terminate s.eosCode)) := by
  cases i with
  | litf n | litShort n | litLong n => exact .inl ⟨n, _, fun _ => rfl⟩
  | m1s dist t | m1l dist t => exact .inr (.inl ⟨_, dist, t, fun _ => rfl⟩)
  | m2 len dist t | m3 len dist t | m4 len dist t => exact .inr (.inl ⟨len, dist, t, fun _ => rfl⟩)
  | eos len t => exact .inr (.inr ⟨len, fun _ => rfl⟩)
  | init | compress | decompress | reservedCmd3 => cases hi

theorem guarded_next {s t : State} {r : Res} (h : s.guarded r = .next t) : s.inSpace = true ∧ t = r.settle := by
  rcases guarded_cases s r with ⟨-, hg⟩ | ⟨hs, hg⟩
  · rw [hg] at h
    cases h
  · rw [hg] at h
    cases h
    exact ⟨hs, rfl⟩

theorem exec_token_engineFrame {i : Instr} (hi : i.isCommand = false) {s t : State} (h : exec i s = .next t) :
    EngineFrame s t := by
  rcases exec_token_cases hi with ⟨n, st, he⟩ | ⟨len, dist, tr, he⟩ | ⟨len, he⟩ <;> rw [he] at h
  · rw [(guarded_next h).2]
    exact settle_engineFrame (litToken_worked n st s)
  · rw [(guarded_next h).2]
    exact settle_engineFrame (copyToken_worked len dist tr s)
  · cases h
    exact Worked.terminate_engineFrame (u := { s with dp := { s.dp with len := len } }) rfl _

theorem fetchStep_engineFrame {s t : State} (h : s.fetchStep = .next t) : EngineFrame s t := by
  rcases fetchStep_cases s with ⟨i, k, -, -, -, hi, hf⟩ | ⟨-, hf⟩ <;> rw [hf] at h
  · obtain ⟨hhost, hconfig, hended, htbl⟩ := exec_token_engineFrame hi h
    exact ⟨hhost, hconfig, hended, htbl⟩
  · cases h
    exact Worked.terminate_engineFrame (u := s.setIp s.srcLen) rfl _

theorem raceEnd_engineFrame (s : State) : EngineFrame s s.raceEnd := by
  obtain ⟨code, outLen, inUsed, hcsr, -⟩ := drawResults_csr s s.endFlight
  have hrace : s.raceEnd.csr = { s.csr with errcode := code, outLen := outLen, inUsed := inUsed, done := true } := by
    simp only [State.raceEnd, hcsr]
  exact ⟨rfl, by rw [hrace], .inr ⟨rfl, rfl⟩, .inl rfl⟩

theorem running_next {s t : State} {k : Host.Outcome State Fault Refusal} (h : s.running k = .next t) :
    s.inSpace = true ∧ (s.raced = true ∧ t = s.raceEnd ∨ s.raced = false ∧ k = .next t) := by
  rcases running_cases s k with ⟨-, hr⟩ | ⟨hs, hraced, hr⟩ | ⟨hs, hraced, hr⟩ <;> rw [hr] at h
  · cases h
  · cases h
    exact ⟨hs, .inl ⟨hraced, rfl⟩⟩
  · exact ⟨hs, .inr ⟨hraced, h⟩⟩

theorem running_engineFrame {s t : State} {k : Host.Outcome State Fault Refusal} (h : s.running k = .next t)
    (hk : ∀ t, k = .next t → EngineFrame s t) : EngineFrame s t := by
  rcases (running_next h).2 with ⟨-, rfl⟩ | ⟨-, hn⟩
  · exact raceEnd_engineFrame s
  · exact hk t hn

theorem running_next_engineFrame {s t u : State} (h : s.running (.next u) = .next t) (hu : EngineFrame s u) :
    EngineFrame s t :=
  running_engineFrame h fun v hv => by
    cases hv
    exact hu

theorem compress_engineFrame {s u : State} {ph : CompressPhase} (hf : s.fsm = .runCompress ph)
    (h : u.host = s.host ∧ u.csr = s.csr) : EngineFrame s u := by
  obtain ⟨hhost, hcsr⟩ := h
  exact ⟨hhost, by rw [hcsr], .inl hcsr, .inr ⟨ph, hf⟩⟩

theorem outerStep_host_csr (s : State) : s.outerStep.host = s.host ∧ s.outerStep.csr = s.csr := by
  unfold State.outerStep
  split <;> exact ⟨rfl, rfl⟩

theorem nextStep_host_csr (s : State) : s.nextStep.host = s.host ∧ s.nextStep.csr = s.csr := by
  unfold State.nextStep State.judge
  split
  · exact ⟨rfl, rfl⟩
  · split <;> exact ⟨rfl, rfl⟩

theorem checkCompress_engineFrame (s : State) : EngineFrame s s.checkCompress := by
  unfold State.checkCompress
  split
  · exact (Worked.refl s).terminate_engineFrame _
  · exact Worked.engineFrame (u := s.beginCompress) rfl

theorem checkDecompress_engineFrame (s : State) : EngineFrame s s.checkDecompress := by
  unfold State.checkDecompress
  split
  · exact (Worked.refl s).terminate_engineFrame _
  · exact Worked.engineFrame (u := s.beginDecompress) rfl

theorem engineStep_engineFrame {s t : State} (h : s.engineStep = .next t) : EngineFrame s t := by
  rcases hf : s.fsm with _ | _ | ph | ph
  case idle =>
    rw [engineStep_idle hf] at h
    cases h
    exact (Worked.refl s).engineFrame
  case runInit =>
    rw [engineStep_init hf] at h
    cases h
    exact (Worked.refl s).terminate_engineFrame _
  case runCompress =>
    cases ph with
    | check =>
      rw [engineStep_checkCompress hf] at h
      cases h
      exact checkCompress_engineFrame s
    | outer =>
      rw [engineStep_outer hf] at h
      exact running_next_engineFrame h (compress_engineFrame hf (outerStep_host_csr s))
    | next =>
      rw [engineStep_next hf] at h
      exact running_next_engineFrame h (compress_engineFrame hf (nextStep_host_csr s))
    | hit =>
      rw [engineStep_hit hf] at h
      exact running_next_engineFrame h (settle_engineFrame (hitStep_worked s))
    | flush =>
      rw [engineStep_flush hf] at h
      obtain ⟨e, u, hu, hend⟩ := flushStep_settle_all ((flushTail_worked s).then_worked (emitAll_worked eosBytes))
      exact running_next_engineFrame h (hend ▸ hu.terminate_engineFrame e)
  case runDecompress =>
    cases ph with
    | check =>
      rw [engineStep_checkDecompress hf] at h
      cases h
      exact checkDecompress_engineFrame s
    | fetch =>
      rw [engineStep_fetch hf] at h
      exact running_engineFrame h fun _ => fetchStep_engineFrame

end Sys2Proof.Machine
end

section
/-! PROOFS. What a step can do, whoever's turn it is, and the statements that follow without the invariant (R29 to R40, R50, R211, R268). -/

namespace Sys2Proof.Machine

/-! ## Whose turn a step was -/

/-- A step that answers a next state is an engine step, a CSR write, a host store, a reset, or a turn that changes nothing of the block but the
mark of an ended command: a read, or a wait that is over. -/
theorem step_next_cases {s t : State} (h : step s = .next t) :
    (∃ host, ({ s with host := host } : State).engineStep = .next t) ∨
    (∃ off v rest, s.host = .csrw off v :: rest ∧ ({ s with host := rest } : State).csrWrite off v = .next t) ∨
    (∃ a v rest, s.host = .memw a v :: rest ∧ t = ({ s with host := rest } : State).hostStore a v) ∨
    (∃ rest, s.host = .reset :: rest ∧ t = ({ s with host := rest } : State).resetInput) ∨
    (∃ host rdata flight draws, t = { s with host := host, rdata := rdata, flight := flight, draws := draws } ∧
      (flight = none ∨ flight = s.flight)) := by
  have quiet (host : List HostOp) (rdata : Word) (flight : Option Flight) (draws : Nat) (hfl : flight = none ∨ flight = s.flight) :
      ∃ host' rdata' flight' draws', ({ s with host := host, rdata := rdata, flight := flight, draws := draws } : State) =
        { s with host := host', rdata := rdata', flight := flight', draws := draws' } ∧ (flight' = none ∨ flight' = s.flight) :=
    ⟨host, rdata, flight, draws, rfl, hfl⟩
  rcases step_cases s with ⟨-, hs⟩ | ⟨rest, -, ⟨-, hs⟩ | ⟨-, hs⟩⟩ | ⟨rest, -, ⟨-, hs⟩ | ⟨-, hs⟩⟩ | ⟨rest, -, hs⟩ |
    ⟨off, v, rest, hh, hs⟩ | ⟨off, rest, -, hs⟩ | ⟨off, bytes, rest, -, hs⟩ | ⟨a, v, rest, hh, hs⟩ | ⟨a, rest, -, hs⟩ |
    ⟨rest, hh, hs⟩ <;> rw [hs] at h
  · exact .inl ⟨s.host, h⟩
  · cases h
    exact .inr (.inr (.inr (.inr (quiet rest s.rdata none s.draws (.inl rfl)))))
  · exact .inl ⟨s.host, h⟩
  · cases h
    exact .inr (.inr (.inr (.inr (quiet rest s.rdata none s.draws (.inl rfl)))))
  · exact .inl ⟨s.host, h⟩
  · exact .inl ⟨rest, h⟩
  · exact .inr (.inl ⟨off, v, rest, hh, h⟩)
  · obtain ⟨w, rfl⟩ := csrFetch_next h
    refine .inr (.inr (.inr (.inr (quiet rest w _ s.draws ?_))))
    split
    · exact .inl rfl
    · exact .inr rfl
  · cases h
  · cases h
    exact .inr (.inr (.inl ⟨a, v, rest, hh, rfl⟩))
  · cases h
    refine .inr (.inr (.inr (.inr ?_)))
    rcases hostLoad_cases { s with host := rest } a with ⟨-, w, hl⟩ | ⟨-, hl⟩ <;> rw [hl]
    · exact quiet rest w s.flight (s.draws + 1) (.inr rfl)
    · exact quiet rest _ s.flight s.draws (.inr rfl)
  · cases h
    exact .inr (.inr (.inr (.inl ⟨rest, hh, rfl⟩)))

/-! ## CSR writes and host stores -/

/-- While BUSY = 1 a CSR write changes IE, or clears DONE, or does nothing (R26, R28, R40). -/
theorem csrWrite_busy_cases {s t : State} (hbusy : s.fsm ≠ .idle) {off : Nat} {v : Word} (h : s.csrWrite off v = .next t) :
    t = s.setIe (v.getLsbD 3) ∨ t = s.clearDone ∨ t = s := by
  rcases csrWrite_cases h with ⟨-, hw⟩ | ⟨-, rfl⟩ | ⟨-, -, c, rfl⟩
  · rw [ctrlWrite_busy hbusy] at hw
    cases hw
    exact .inl rfl
  · unfold State.writeStatus
    split
    · exact .inr (.inl rfl)
    · exact .inr (.inr rfl)
  · rw [if_neg hbusy]
    exact .inr (.inr rfl)

/-- No CSR write touches the hash table. -/
theorem csrWrite_tbl {s t : State} {off : Nat} {v : Word} (h : s.csrWrite off v = .next t) : t.tbl = s.tbl := by
  by_cases hf : s.fsm = .idle
  · rcases csrWrite_cases h with ⟨-, hw⟩ | ⟨-, rfl⟩ | ⟨-, -, c, rfl⟩
    · rcases ctrlWrite_idle_cases hf v with ⟨-, hc⟩ | ⟨-, cmd, f, ie, strict, hc, -⟩ | ⟨-, ie, strict, -, hc⟩ <;>
        (rw [hc] at hw; cases hw; rfl)
    · rw [writeStatus_eq]
    · rfl
  · rcases csrWrite_busy_cases hf h with rfl | rfl | rfl <;> rfl

/-- A CSR write leaves OUT_LEN and IN_USED alone unless it is the START of the reserved command, and ERRCODE unless it is a START
(R29, R36, R37). -/
theorem csrWrite_results {s t : State} {off : Nat} {v : Word} (h : s.csrWrite off v = .next t) :
    (t.csr.outLen = s.csr.outLen ∧ t.csr.inUsed = s.csr.inUsed ∨
      off = 0x08 ∧ s.fsm = .idle ∧ (∃ ie strict, decodeCtrl v = .ok (.reservedCmd3 ie strict)) ∧ t.fsm = .idle ∧ t.csr.done = true) ∧
    (t.csr.errcode = s.csr.errcode ∨ off = 0x08 ∧ v.getLsbD 0 = true ∧ s.fsm = .idle) := by
  by_cases hf : s.fsm = .idle
  · rcases csrWrite_cases h with ⟨hoff, hw⟩ | ⟨-, rfl⟩ | ⟨-, -, c, rfl⟩
    · rcases ctrlWrite_idle_cases hf v with ⟨-, hc⟩ | ⟨hv, cmd, f, ie, strict, hc, -⟩ | ⟨hv, ie, strict, hd, hc⟩ <;>
        (rw [hc] at hw; cases hw)
      · exact ⟨.inl ⟨rfl, rfl⟩, .inl rfl⟩
      · exact ⟨.inl ⟨rfl, rfl⟩, .inr ⟨hoff, hv, hf⟩⟩
      · exact ⟨.inr ⟨hoff, hf, ⟨ie, strict, hd⟩, rfl, rfl⟩, .inr ⟨hoff, hv, hf⟩⟩
    · rw [writeStatus_eq]
      exact ⟨.inl ⟨rfl, rfl⟩, .inl rfl⟩
    · rw [if_pos hf]
      exact ⟨.inl ⟨rfl, rfl⟩, .inl rfl⟩
  · rcases csrWrite_busy_cases hf h with rfl | rfl | rfl <;> exact ⟨.inl ⟨rfl, rfl⟩, .inl rfl⟩

/-- A host store changes no CSR but the three results, and those only where it races with a command that ran and ended unseen (R78). -/
theorem hostStore_csr (s : State) (a : Word) (v : Byte) :
    (s.hostStore a v).csr = s.csr ∨
    (∃ f, s.flight = some f ∧ f.ran = true ∧ (f.inSrc a.toNat = true ∨ f.inDst a.toNat = true) ∧
      ∃ code outLen inUsed, (s.hostStore a v).csr = { s.csr with errcode := code, outLen := outLen, inUsed := inUsed }) := by
  rcases hostStore_cases s a v with ⟨-, hs⟩ | ⟨f, hf, hran, hin, hs⟩ <;> rw [hs]
  · exact .inl rfl
  · obtain ⟨code, outLen, inUsed, hcsr, -⟩ := drawResults_csr (s.storeByte a v) f
    exact .inr ⟨f, hf, hran, by simpa using hin, code, outLen, inUsed, hcsr⟩

theorem hostStore_tbl (s : State) (a : Word) (v : Byte) : (s.hostStore a v).tbl = s.tbl := by
  rcases hostStore_cases s a v with ⟨-, hs⟩ | ⟨f, -, -, -, hs⟩ <;> rw [hs] <;> rfl

/-! ## The statements -/

/-- Settles O54: of the turns of `step_next_cases`, only a stage of COMPRESS and a reset touch H. -/
theorem hashTableOnlyByCompress : Obligations.HashTableOnlyByCompress := by
  intro s t h hne
  rcases step_next_cases h with ⟨host, he⟩ | ⟨off, v, rest, -, hw⟩ | ⟨a, v, rest, -, rfl⟩ | ⟨rest, hh, -⟩ |
    ⟨host, rdata, flight, draws, rfl, -⟩
  · rcases (engineStep_engineFrame he).tbl with htbl | hph
    · exact absurd htbl hne
    · exact .inl hph
  · exact absurd (csrWrite_tbl hw) hne
  · exact absurd (hostStore_tbl _ a v) hne
  · exact .inr ⟨rest, hh⟩
  · exact absurd rfl hne

/-- A step that changes the CSR file is the end of a command, a CSR write, a reset, or a race with a command that ended unseen. -/
theorem step_csr_cases {s t : State} (h : step s = .next t) :
    t.csr = s.csr ∨ (s.fsm ≠ .idle ∧ t.fsm = .idle ∧ t.csr.done = true) ∨
    (∃ off v rest, s.host = .csrw off v :: rest ∧ ({ s with host := rest } : State).csrWrite off v = .next t) ∨
    (∃ rest, s.host = .reset :: rest) ∨ s.RacesEnded := by
  rcases step_next_cases h with ⟨host, he⟩ | hw | ⟨a, v, rest, hh, rfl⟩ | ⟨rest, hh, -⟩ |
    ⟨host, rdata, flight, draws, rfl, -⟩
  · rcases (engineStep_engineFrame he).ended with hcsr | ⟨hidle, hdone⟩
    · exact .inl hcsr
    · by_cases hf : s.fsm = .idle
      · rw [engineStep_idle (s := { s with host := host }) hf] at he
        cases he
        exact .inl rfl
      · exact .inr (.inl ⟨hf, hidle, hdone⟩)
  · exact .inr (.inr (.inl hw))
  · rcases hostStore_csr { s with host := rest } a v with hcsr | ⟨f, hf, hran, hin, -⟩
    · exact .inl hcsr
    · exact .inr (.inr (.inr (.inr ⟨a, v, rest, f, hh, hf, hran, hin⟩)))
  · exact .inr (.inr (.inr (.inl ⟨rest, hh⟩)))
  · exact .inl rfl

/-- Settles O55: by `step_csr_cases`, and for a CSR write by `csrWrite_results`. -/
theorem resultsOnlyAtEnd : Obligations.ResultsOnlyAtEnd := by
  intro s t h
  rcases step_csr_cases h with hcsr | hend | ⟨off, v, rest, hh, hw⟩ | hreset | hrace
  · rw [hcsr]
    exact ⟨fun hne => by simp at hne, fun hne => absurd rfl hne⟩
  · exact ⟨fun _ => .inl hend, fun _ => .inl hend⟩
  · obtain ⟨hcounts, hcode⟩ := csrWrite_results hw
    refine ⟨fun hne => .inr (.inl ?_), fun hne => .inr (.inl ?_)⟩
    · rcases hcounts with ⟨hout, hin⟩ | ⟨rfl, hf, ⟨ie, strict, hd⟩, hidle, hdone⟩
      · exact absurd hne (by simp [hout, hin])
      · exact ⟨v, rest, ie, strict, hh, hd, hf, hidle, hdone⟩
    · rcases hcode with hcode | ⟨rfl, hv, hf⟩
      · exact absurd hcode hne
      · exact ⟨v, rest, hh, hv, hf⟩
  · exact ⟨fun _ => .inr (.inr (.inl hreset)), fun _ => .inr (.inr (.inl hreset))⟩
  · exact ⟨fun _ => .inr (.inr (.inr hrace)), fun _ => .inr (.inr (.inr hrace))⟩

/-- The configuration of a running command is the one of the CSR file it agrees with but for the other fields (R268). -/
theorem config_eq_of_csr {c d : Csr} (h : d = { c with
    ie := d.ie, done := d.done, initOk := d.initOk, errcode := d.errcode, outLen := d.outLen, inUsed := d.inUsed }) :
    d.srcBase = c.srcBase ∧ d.srcLen = c.srcLen ∧ d.dstBase = c.dstBase ∧ d.dstCap = c.dstCap ∧ d.expLen = c.expLen ∧
      d.handshake = c.handshake ∧ d.cmd = c.cmd ∧ d.strict = c.strict := by
  rw [h]
  exact ⟨rfl, rfl, rfl, rfl, rfl, rfl, rfl, rfl⟩

/-- Settles O56: the engine changes no configuration register, and a busy block takes none. -/
theorem configurationFrozen : Obligations.ConfigurationFrozen := by
  intro s t hbusy h hreset
  apply config_eq_of_csr
  rcases step_next_cases h with ⟨host, he⟩ | ⟨off, v, rest, -, hw⟩ | ⟨a, v, rest, -, rfl⟩ | ⟨rest, hh, -⟩ |
    ⟨host, rdata, flight, draws, rfl, -⟩
  · rw [(engineStep_engineFrame he).config]
  · rcases csrWrite_busy_cases (s := { s with host := rest }) hbusy hw with rfl | rfl | rfl <;> rfl
  · rcases hostStore_csr { s with host := rest } a v with hcsr | ⟨-, -, -, -, code, outLen, inUsed, hcsr⟩ <;> rw [hcsr]
  · exact absurd hh (hreset rest)
  · rfl

end Sys2Proof.Machine
end

section
/-! PROOFS. What a primitive of a running command does to memory: it writes DST only, up to the output cursor it leaves, which stays within
DST_CAP (10_state.md R45, 20_memory.md R61, R63). -/

namespace Sys2Proof.Machine

/-! ## Tables -/

/-- A listed entry after a write is an old one or the one written. -/
theorem Store.mem_write {w : Nat} {m : Store w} {a : Nat} {v : BitVec w} {e : Nat × BitVec w} (h : e ∈ Store.write m a v) :
    e ∈ m ∨ e = (a, v) := by
  have mem_cons_of_mem_put {m : Store w} (h : e ∈ Store.cons a v m) : e ∈ m ∨ e = (a, v) := by
    unfold Store.cons at h
    split at h
    · exact .inl h
    · exact (List.mem_cons.mp h).symm
  induction m with
  | nil => exact mem_cons_of_mem_put h
  | cons b m ih =>
    unfold Store.write at h
    split at h
    · exact mem_cons_of_mem_put h
    · split at h
      · exact (mem_cons_of_mem_put h).imp_left (List.mem_cons_of_mem _)
      · rcases List.mem_cons.mp h with rfl | h
        · exact .inl List.mem_cons_self
        · exact (ih h).imp_left (List.mem_cons_of_mem _)

/-- An index reads the unlisted value or a listed entry. -/
theorem Store.read_eq_unlisted_or_mem {w : Nat} (m : Store w) (a : Nat) :
    Store.read m a = Store.unlisted w ∨ (a, Store.read m a) ∈ m := by
  induction m with
  | nil => exact .inl rfl
  | cons e m ih =>
    obtain ⟨b, x⟩ := e
    rw [Store.read_cons_pair]
    split
    · next h => exact .inr (by rw [h]; exact List.mem_cons_self)
    · exact ih.imp_right (List.mem_cons_of_mem _)

/-! ## Memory written in DST only -/

/-- Memory `m` is in canonical form within the address space, and reads as that of `s` outside DST. -/
structure State.DstWritten (s : State) (m : Memory) : Prop where
  wf : Store.wf m = true
  below : Store.below Config.addrSpace m = true
  frame : ∀ a, s.inDst a = false → Store.read m a = Store.read s.mem a

theorem inDst_congr {s u : State} (h : u.csr = s.csr) (a : Nat) : u.inDst a = s.inDst a := by
  unfold State.inDst State.dstAddr State.dstCap
  rw [h]

theorem inDst_eq_false_iff {s : State} {a : Nat} : s.inDst a = false ↔ a < s.dstAddr 0 ∨ s.dstAddr s.dstCap ≤ a := by
  simp only [State.inDst, Bool.and_eq_false_iff, decide_eq_false_iff_not, Nat.not_le, Nat.not_lt]

theorem State.DstWritten.trans {s u : State} {m : Memory} (hu : s.DstWritten u.mem) (hm : u.DstWritten m)
    (hcsr : u.csr = s.csr) : s.DstWritten m where
  wf := hm.wf
  below := hm.below
  frame a ha := by
    rw [hm.frame a ((inDst_congr hcsr a).trans ha), hu.frame a ha]

/-- A reset that tears a step leaves memory between the old and the new (R263). -/
theorem State.DstWritten.splice {s : State} {m : Memory} (hm : s.DstWritten m) (h0 : s.DstWritten s.mem) (lim : Nat) :
    s.DstWritten (Memory.splice m s.mem lim) where
  wf := Memory.wf_splice hm.wf h0.wf lim
  below := Memory.below_splice hm.below h0.below lim
  frame a ha := by
    rw [Memory.read_splice hm.wf h0.wf]
    split
    · exact hm.frame a ha
    · rfl

theorem not_dstAddr_of_inDst {s : State} {a j : Nat} (ha : s.inDst a = false) (hj : j < s.dstCap) : a ≠ s.dstAddr j := by
  rintro rfl
  rw [inDst_dstAddr hj] at ha
  cases ha

/-- DST may be written at the output cursor: its region is in the address space, the cursor in it, and memory in canonical form. -/
structure State.Writing (s : State) : Prop where
  inSpace : s.inSpace = true
  op_le : s.dp.op ≤ s.dstCap
  mem : s.DstWritten s.mem

theorem State.Writing.dstAddr_lt {s : State} (h : s.Writing) {j : Nat} (hj : j < s.dstCap) : s.dstAddr j < Config.addrSpace := by
  have := dst_end_le_of_inSpace h.inSpace
  simp only [State.dstAddr] at this ⊢
  omega

theorem Wrote.dstWritten {s u : State} (h : Wrote s u) (hs : s.Writing) (hop : u.dp.op ≤ s.dstCap) : s.DstWritten u.mem where
  wf := h.wf hs.mem.wf
  below := by
    refine h.below _ hs.mem.below (Nat.le_trans ?_ (dst_end_le_of_inSpace hs.inSpace))
    simp only [State.dstAddr]
    omega
  frame a ha := by
    refine h.frame hs.mem.wf a ?_
    rw [inDst_eq_false_iff] at ha
    simp only [State.dstAddr] at ha ⊢
    omega

/-! ## The compressor's output -/

/-- `u` is `s` with bytes emitted: only memory in DST and `op` differ, and `op` has not gone back nor past DST_CAP (R143). -/
structure Emitted (s u : State) : Prop where
  shape : u = { s with mem := u.mem, dp := { s.dp with op := u.dp.op } }
  op_ge : s.dp.op ≤ u.dp.op
  op_le : u.dp.op ≤ s.dstCap
  mem : s.DstWritten u.mem

theorem Emitted.refl {s : State} (h : s.Writing) : Emitted s s := ⟨rfl, Nat.le_refl _, h.op_le, h.mem⟩

theorem Emitted.csr {s u : State} (h : Emitted s u) : u.csr = s.csr := by rw [h.shape]

theorem Emitted.dp {s u : State} (h : Emitted s u) : u.dp = { s.dp with op := u.dp.op } := congrArg State.dp h.shape

theorem Emitted.worked {s u : State} (h : Emitted s u) : Worked s u := by
  unfold Worked
  rw [h.shape]

theorem dstCap_congr {s u : State} (h : u.csr = s.csr) : u.dstCap = s.dstCap := by simp only [State.dstCap, h]

theorem srcLen_congr {s u : State} (h : u.csr = s.csr) : u.srcLen = s.srcLen := by simp only [State.srcLen, h]

theorem inSpace_congr {s u : State} (h : u.csr = s.csr) : u.inSpace = s.inSpace := by simp only [State.inSpace, h]

/-- Memory that a step may leave is memory another may start from. -/
theorem State.DstWritten.self {s : State} {m : Memory} (h : s.DstWritten m) (u : State) (hu : u.mem = m := by rfl) :
    u.DstWritten u.mem := by
  rw [hu]
  exact ⟨h.wf, h.below, fun _ _ => by rw [hu]⟩

theorem State.Writing.of_csr {s u : State} (h : s.Writing) (hcsr : u.csr = s.csr) (hop : u.dp.op ≤ s.dstCap)
    (hm : s.DstWritten u.mem) : u.Writing :=
  ⟨(inSpace_congr hcsr).trans h.inSpace, by rwa [dstCap_congr hcsr], hm.self u⟩

theorem Emitted.writing {s u : State} (h : Emitted s u) (hs : s.Writing) : u.Writing := hs.of_csr h.csr h.op_le h.mem

theorem Emitted.trans {s u v : State} (h : Emitted s u) (h' : Emitted u v) : Emitted s v where
  shape := by
    rw [h'.shape, h.shape]
  op_ge := h.op_ge.trans h'.op_ge
  op_le := dstCap_congr h.csr ▸ h'.op_le
  mem := h.mem.trans h'.mem h.csr

theorem Wrote.emitted {s u : State} (h : Wrote s u) (hs : s.Writing) (hop : u.dp.op ≤ s.dstCap) : Emitted s u :=
  ⟨h.shape, h.le, hop, h.dstWritten hs hop⟩

theorem Res.All.then_emitted {s : State} {r : Res} {f : State → Res} (hs : s.Writing) (h : r.All (Emitted s))
    (hf : ∀ u, Emitted s u → u.Writing → (f u).All (Emitted u)) : (r.andThen f).All (Emitted s) :=
  h.andThen (fun _ hu => hu) fun u hu => (hf u hu (hu.writing hs)).mono fun _ hv => hu.trans hv

/-- A byte string is emitted whole, or the error leaves what fitted (R143). -/
theorem emitAll_emitted (bs : List Byte) {s : State} (hs : s.Writing) :
    (∃ u, emitAll bs s = .ok u ∧ Emitted s u ∧ u.dp.op = s.dp.op + bs.length) ∨
    (∃ u, emitAll bs s = .raise .bufferOverflow u ∧ Emitted s u) := by
  rcases emitAll_spec bs s hs.op_le with ⟨u, he, hw, hop, hle⟩ | ⟨u, he, hw, hop⟩
  · exact .inl ⟨u, he, hw.emitted hs hle, hop⟩
  · exact .inr ⟨u, he, hw.emitted hs (Nat.le_of_eq hop)⟩

theorem emitAll_all_emitted (bs : List Byte) {s : State} (hs : s.Writing) : (emitAll bs s).All (Emitted s) := by
  rcases emitAll_emitted bs hs with ⟨u, he, hu, -⟩ | ⟨u, he, hu⟩ <;> rw [he] <;> exact hu

theorem compLiterals_all_emitted (start n : Nat) {s : State} (hs : s.Writing) : (compLiterals start n s).All (Emitted s) := by
  rcases compLiterals_spec start n s hs.op_le with ⟨u, he, hw, -, hle⟩ | ⟨u, he, hw, hop⟩ <;> rw [he]
  · exact hw.emitted hs hle
  · exact hw.emitted hs (Nat.le_of_eq hop)

/-- `Patch2` stays in DST where a token has been emitted (R139). -/
theorem patch2_emitted (t : Nat) {s : State} (hs : s.Writing) (h2 : 2 ≤ s.dp.op) : Emitted s (patch2 t s) where
  shape := rfl
  op_ge := Nat.le_refl _
  op_le := hs.op_le
  mem := by
    have hlt : s.dp.op - 2 < s.dstCap := by
      have := hs.op_le
      omega
    exact ⟨Store.wf_write hs.mem.wf _ _, Store.below_write hs.mem.below (hs.dstAddr_lt hlt) _,
      fun a ha => Store.read_write_other hs.mem.wf _ (not_dstAddr_of_inDst ha hlt)⟩

theorem emitLitHeader_all_emitted {t : Nat} {s : State} (hs : s.Writing) (h2 : t ≤ 3 → 2 ≤ s.dp.op) :
    (emitLitHeader t s).All (Emitted s) := by
  unfold emitLitHeader
  split
  · next ht => exact patch2_emitted t hs (h2 ht)
  · exact emitAll_all_emitted _ hs

/-! ## The decoder's copies -/

/-- `u` is `s` with a token at work: memory in DST and the registers differ, and both cursors are within their regions (R43, R45). -/
structure Decoded (s u : State) : Prop where
  shape : u = { s with mem := u.mem, dp := u.dp }
  op_le : u.dp.op ≤ s.dstCap
  ip_le : u.dp.ip ≤ s.srcLen
  mem : s.DstWritten u.mem

theorem Decoded.csr {s u : State} (h : Decoded s u) : u.csr = s.csr := by rw [h.shape]

theorem Decoded.worked {s u : State} (h : Decoded s u) : Worked s u := by
  unfold Worked
  rw [h.shape]

theorem Decoded.writing {s u : State} (h : Decoded s u) (hs : s.Writing) : u.Writing := hs.of_csr h.csr h.op_le h.mem

theorem Decoded.ip_le_self {s u : State} (h : Decoded s u) : u.dp.ip ≤ u.srcLen := by
  rw [srcLen_congr h.csr]
  exact h.ip_le

theorem Decoded.trans {s u v : State} (h : Decoded s u) (h' : Decoded u v) : Decoded s v where
  shape := by rw [h'.shape, h.shape]
  op_le := dstCap_congr h.csr ▸ h'.op_le
  ip_le := srcLen_congr h.csr ▸ h'.ip_le
  mem := h.mem.trans h'.mem h.csr

/-- Registers other than the cursors are free. -/
theorem decoded_of_cursors {s : State} (hs : s.Writing) {d : Datapath} (hop : d.op = s.dp.op)
    (hipd : d.ip ≤ s.srcLen) : Decoded s { s with dp := d } :=
  ⟨rfl, by rw [hop]; exact hs.op_le, hipd, hs.mem⟩

theorem copyLiterals_decoded (n : Nat) {s : State} (hs : s.Writing) (hip : s.dp.ip ≤ s.srcLen) :
    (copyLiterals n s).All (Decoded s) := by
  have hop := hs.op_le
  have hself : Decoded s s := ⟨rfl, hop, hip, hs.mem⟩
  rcases copyLiterals_cases n s with ⟨-, h⟩ | ⟨-, -, h⟩ | ⟨hroom, hleft, h⟩ <;> rw [h]
  · exact hself
  · exact hself
  · obtain ⟨m, hm, hwf, hbelow, hframe, -⟩ := copyLits_spec n s hs.mem.wf
    rw [hm]
    refine ⟨rfl, ?_, ?_, hwf, hbelow _ hs.mem.below ?_, fun a ha => hframe a fun j hj => ?_⟩
    · change s.dp.op + n ≤ s.dstCap
      omega
    · change s.dp.ip + n ≤ s.srcLen
      omega
    · refine Nat.le_trans ?_ (dst_end_le_of_inSpace hs.inSpace)
      simp only [State.dstAddr]
      omega
    · exact not_dstAddr_of_inDst ha (by omega)

theorem copyMatch_decoded (dist len : Nat) {s : State} (hs : s.Writing) (hip : s.dp.ip ≤ s.srcLen) :
    (copyMatch dist len s).All (Decoded s) := by
  have hop := hs.op_le
  have hself : Decoded s s := ⟨rfl, hop, hip, hs.mem⟩
  rcases copyMatch_cases dist len s with ⟨-, h⟩ | ⟨-, -, h⟩ | ⟨-, hroom, h⟩ <;> rw [h]
  · exact hself
  · exact hself
  · obtain ⟨hw, hlen⟩ := copyBack_wrote dist len s
    have hle : (copyBack dist len s).dp.op ≤ s.dstCap := by omega
    refine ⟨by rw [hw.shape], hle, ?_, hw.dstWritten hs hle⟩
    rw [hw.dp]
    exact hip

theorem Res.All.then_decoded {s : State} {r : Res} {f : State → Res} (hs : s.Writing) (h : r.All (Decoded s))
    (hf : ∀ u, u.Writing → u.dp.ip ≤ u.srcLen → (f u).All (Decoded u)) : (r.andThen f).All (Decoded s) :=
  h.andThen (fun _ hu => hu) fun u hu => (hf u (hu.writing hs) hu.ip_le_self).mono fun _ hv => hu.trans hv

theorem setS_decoded (st : DecState) {s : State} (hs : s.Writing) (hip : s.dp.ip ≤ s.srcLen) : Decoded s (s.setS st) :=
  decoded_of_cursors hs rfl hip

theorem trail_decoded (t : BitVec 2) {s : State} (hs : s.Writing) (hip : s.dp.ip ≤ s.srcLen) : (trail t s).All (Decoded s) := by
  refine Res.All.then_decoded hs ?_ fun _ => setS_decoded (.trail t)
  split
  · exact ⟨rfl, hs.op_le, hip, hs.mem⟩
  · exact copyLiterals_decoded _ hs hip

theorem copyToken_decoded (len dist : Nat) (t : BitVec 2) {s : State} (hs : s.Writing) (hip : s.dp.ip ≤ s.srcLen) :
    (copyToken len dist t s).All (Decoded s) := by
  have hl : Decoded s (s.latchCopy len dist t) := decoded_of_cursors hs rfl hip
  exact Res.All.then_decoded hs ((copyMatch_decoded dist len (hl.writing hs) hip).mono fun _ => hl.trans)
    fun _ => trail_decoded t

theorem litToken_decoded (n : Nat) (st : DecState) {s : State} (hs : s.Writing) (hip : s.dp.ip ≤ s.srcLen) :
    (litToken n st s).All (Decoded s) := by
  have hl : Decoded s (s.latchCount n) := decoded_of_cursors hs rfl hip
  exact Res.All.then_decoded hs ((copyLiterals_decoded n (hl.writing hs) hip).mono fun _ => hl.trans)
    fun _ => setS_decoded st

end Sys2Proof.Machine
end

section
/-! PROOFS. The invariant of the machine (Safety.lean): its parts as propositions, every stage of the engine, every turn of the host, and the
reset input (10_state.md R42, R45, R50, R61, R219, 70_reset_and_hazards.md R263). -/

namespace Sys2Proof.Machine

/-! ## The parts of the invariant as propositions -/

/-- The hash table is in canonical form, within its indices, and holds offsets within a block (R50). -/
structure TableOk (h : HashTable) : Prop where
  wf : Store.wf h = true
  below : Store.below Config.hashEntries h = true
  offsets : ∀ e ∈ h, e.2.toNat < Config.blockMax

theorem storesOk_iff {s : State} : s.storesOk = true ↔ s.DstWritten s.mem ∧ TableOk s.tbl := by
  simp only [State.storesOk, Bool.and_eq_true, List.all_eq_true, decide_eq_true_eq]
  exact ⟨fun ⟨⟨hwf, hbelow⟩, ⟨htwf, htbelow⟩, hoff⟩ => ⟨⟨hwf, hbelow, fun _ _ => rfl⟩, htwf, htbelow, hoff⟩,
    fun ⟨hm, ht⟩ => ⟨⟨hm.wf, hm.below⟩, ⟨ht.wf, ht.below⟩, ht.offsets⟩⟩

/-- What `compressOk` says: the checks' facts, the input limit, and no cursor at 1, where `Patch2` would have no token (R139, R233). -/
structure State.CompressStarted (s : State) : Prop extends s.Started where
  srcLen_le : s.srcLen ≤ Config.maxInputLen
  patch : s.dp.op = 0 ∨ 2 ≤ s.dp.op

theorem compressOk_iff {s : State} : s.compressOk = true ↔ s.CompressStarted := by
  simp only [State.compressOk, State.patchOk, Bool.and_eq_true, Bool.or_eq_true, decide_eq_true_eq, startedOk_iff]
  exact ⟨fun ⟨⟨hst, hlen⟩, hp⟩ => ⟨hst, hlen, hp⟩, fun h => ⟨⟨h.toStarted, h.srcLen_le⟩, h.patch⟩⟩

/-- What `blockOk` says of a running block (R152 to R156). -/
structure State.InBlock (s : State) (bound : Nat) : Prop where
  p_eq : s.dp.p = s.dp.blk
  p_add_l : s.dp.p + s.dp.l = s.srcLen
  ll_le_l : s.dp.ll ≤ s.dp.l
  ll_le : s.dp.ll ≤ Config.blockMax
  tail_lt : Config.tail < s.dp.ll
  ipEnd_eq : s.dp.ipEnd = s.dp.blk + s.dp.ll - Config.tail
  ti_le : s.dp.ti ≤ s.dp.ii
  blk_le : s.dp.blk ≤ s.dp.ii
  ii_le : s.dp.ii ≤ s.dp.ip
  ii_le_end : s.dp.ii ≤ s.dp.blk + s.dp.ll
  blk_lt : s.dp.blk < s.dp.ip
  slots : ∀ e ∈ s.tbl, s.dp.blk + e.2.toNat < bound

theorem blockOk_iff {s : State} {bound : Nat} : s.blockOk bound = true ↔ s.InBlock bound := by
  simp only [State.blockOk, Bool.and_eq_true, decide_eq_true_eq, List.all_eq_true, and_assoc]
  exact ⟨fun ⟨h1, h2, h3, h4, h5, h6, h7, h8, h9, h10, h11, h12⟩ => ⟨h1, h2, h3, h4, h5, h6, h7, h8, h9, h10, h11, h12⟩,
    fun ⟨h1, h2, h3, h4, h5, h6, h7, h8, h9, h10, h11, h12⟩ => ⟨h1, h2, h3, h4, h5, h6, h7, h8, h9, h10, h11, h12⟩⟩

theorem firstRunOk_iff {s : State} : s.firstRunOk = true ↔ 0 < s.dp.op ∨ s.dp.ii + 4 ≤ s.dp.ip + s.dp.ti := by
  simp [State.firstRunOk]

theorem stageOk_outer {s : State} (hf : s.fsm = .runCompress .outer) :
    s.stageOk = true ↔ s.CompressStarted ∧ s.dp.p + s.dp.l = s.srcLen ∧ s.dp.t ≤ s.dp.p := by
  simp [State.stageOk, hf, compressOk_iff, and_assoc]

theorem stageOk_next {s : State} (hf : s.fsm = .runCompress .next) : s.stageOk = true ↔
    s.CompressStarted ∧ s.InBlock s.dp.ip ∧ (0 < s.dp.op ∨ s.dp.ii + 4 ≤ s.dp.ip + s.dp.ti) := by
  simp [State.stageOk, hf, compressOk_iff, blockOk_iff, firstRunOk_iff, and_assoc]

theorem stageOk_hit {s : State} (hf : s.fsm = .runCompress .hit) : s.stageOk = true ↔
    s.CompressStarted ∧ s.InBlock (s.dp.ip + 1) ∧ (0 < s.dp.op ∨ s.dp.ii + 4 ≤ s.dp.ip + s.dp.ti) ∧ s.dp.ip < s.dp.ipEnd ∧
      s.dp.blk ≤ s.dp.mPos ∧ s.dp.mPos < s.dp.ip := by
  simp [State.stageOk, hf, compressOk_iff, blockOk_iff, firstRunOk_iff, and_assoc]

theorem stageOk_flush {s : State} (hf : s.fsm = .runCompress .flush) :
    s.stageOk = true ↔ s.CompressStarted ∧ s.dp.t ≤ s.srcLen := by
  simp [State.stageOk, hf, compressOk_iff]

theorem stageOk_fetch {s : State} (hf : s.fsm = .runDecompress .fetch) :
    s.stageOk = true ↔ s.Started ∧ s.dp.ip ≤ s.srcLen := by
  simp [State.stageOk, hf, startedOk_iff]

theorem writing_of_started {s : State} (h : s.Started) (hm : s.DstWritten s.mem) : s.Writing := ⟨h.inSpace, h.op_le, hm⟩

/-- The checks' facts are about the CSR file, but for the output cursor. -/
theorem State.Started.of_csr {s u : State} (h : s.Started) (hcsr : u.csr = s.csr) (hop : u.dp.op ≤ s.dstCap) : u.Started where
  initOk := by rw [hcsr, h.initOk]
  inSpace := (inSpace_congr hcsr).trans h.inSpace
  overlap := by
    have := h.overlap
    unfold State.overlap State.srcLen State.dstCap State.srcAddr State.dstAddr at this ⊢
    rw [hcsr, this]
  op_le := by rwa [dstCap_congr hcsr]

theorem State.CompressStarted.of_csr {s u : State} (h : s.CompressStarted) (hcsr : u.csr = s.csr) (hop : u.dp.op ≤ s.dstCap)
    (hpatch : u.dp.op = 0 ∨ 2 ≤ u.dp.op) : u.CompressStarted :=
  ⟨h.toStarted.of_csr hcsr hop, by rw [srcLen_congr hcsr]; exact h.srcLen_le, hpatch⟩

/-! ## The end of a command, and going on -/

/-- The step from `s` to `t` keeps the invariant and writes DST only. -/
def Kept (s t : State) : Prop := t.Inv ∧ s.DstWritten t.mem

theorem errorCode_le (e : ErrorCode) : e.code.toNat ≤ 9 := by cases e <;> decide

theorem flight_none_of_busy {s : State} (h : s.Inv) (hbusy : s.fsm ≠ .idle) : s.flight = none := by
  obtain ⟨-, -, -, -, hfl⟩ := h
  unfold State.flightOk at hfl
  split at hfl
  · assumption
  · simp [hbusy] at hfl

/-- A command may end wherever memory is sound, if its regions are in the address space once it is past its checks (R74, R238). -/
theorem terminate_kept {s u : State} (htbl : TableOk s.tbl) (hw : Worked s u) (hm : s.DstWritten u.mem)
    (hs : u.pastChecks = true → s.inSpace = true) (e : ErrorCode) : Kept s (u.terminate e) := by
  have hcsr : u.csr = s.csr := by rw [hw]
  have hutbl : u.tbl = s.tbl := by rw [hw]
  refine ⟨⟨?_, ?_, rfl, rfl, ?_⟩, hm⟩
  · exact storesOk_iff.mpr ⟨hm.self _, by rw [State.terminate_tbl, hutbl]; exact htbl⟩
  · exact decide_eq_true (errorCode_le e)
  · cases hp : u.pastChecks with
    | false => simp [State.flightOk, State.endFlight, hp]
    | true =>
      have hend := dst_end_le_of_inSpace (hs hp)
      simp only [State.dstAddr, State.dstCap] at hend
      simpa [State.flightOk, State.endFlight, hp, hcsr] using hend

/-- A running command that goes on keeps the invariant if its tables and its next stage do. -/
theorem goOn_inv {s t : State} (hs : s.Inv) (hcsr : t.csr = s.csr) (hflight : t.flight = s.flight)
    (hfsm : (∃ ph ph', s.fsm = .runCompress ph ∧ t.fsm = .runCompress ph') ∨
      ∃ ph ph', s.fsm = .runDecompress ph ∧ t.fsm = .runDecompress ph')
    (hm : s.DstWritten t.mem) (htbl : TableOk t.tbl) (hstage : t.stageOk = true) : t.Inv := by
  have hbusy : s.fsm ≠ .idle := by
    rcases hfsm with ⟨ph, -, hf, -⟩ | ⟨ph, -, hf, -⟩ <;> simp [hf]
  have hnone := flight_none_of_busy hs hbusy
  obtain ⟨-, hcode, hbusyOk, -, -⟩ := hs
  refine ⟨storesOk_iff.mpr ⟨hm.self _, htbl⟩, ?_, ?_, hstage, ?_⟩
  · rw [State.codeOk, hcsr]
    exact hcode
  · rcases hfsm with ⟨ph, ph', hf, hf'⟩ | ⟨ph, ph', hf, hf'⟩ <;>
      simpa only [State.busyOk, hf, hf', hcsr] using hbusyOk
  · rw [State.flightOk, hflight, hnone]

theorem tableOk_of_inv {s : State} (h : s.Inv) : TableOk s.tbl := (storesOk_iff.mp h.1).2

theorem dstWritten_of_inv {s : State} (h : s.Inv) : s.DstWritten s.mem := (storesOk_iff.mp h.1).1

theorem stageOk_of_inv {s : State} (h : s.Inv) : s.stageOk = true := by
  obtain ⟨-, -, -, hstage, -⟩ := h
  exact hstage

/-! ## DECOMPRESS -/

/-- Consuming a header that fits SRC keeps the cursors in their regions. -/
theorem consumed_decoded {s : State} (hs : s.Writing) {i : Instr} {k : Nat} (hip : s.dp.ip ≤ s.srcLen)
    (hk : k ≤ s.srcLen - s.dp.ip) : Decoded s (s.consumed i k) :=
  decoded_of_cursors hs (consumed_op s i k) (by simp only; omega)

/-- What a token leaves is a state at the next token, or the end of the command. -/
theorem settle_kept_of_decoded {s : State} (hs : s.Inv) (hf : s.fsm = .runDecompress .fetch) {r : Res}
    (h : r.All (Decoded s)) : Kept s r.settle := by
  obtain ⟨hstarted, -⟩ := (stageOk_fetch hf).mp (stageOk_of_inv hs)
  cases r with
  | ok u =>
    have hu : Decoded s u := h
    have hfu : u.fsm = .runDecompress .fetch := by rw [hu.shape, hf]
    refine ⟨goOn_inv hs hu.csr (by rw [hu.shape]; rfl) (.inr ⟨_, _, hf, hfu⟩) hu.mem ?_ ?_, hu.mem⟩
    · rw [Res.settle_ok, show u.tbl = s.tbl by rw [hu.shape]]
      exact tableOk_of_inv hs
    · exact (stageOk_fetch hfu).mpr ⟨hstarted.of_csr hu.csr hu.op_le, hu.ip_le_self⟩
  | raise e u =>
    have hu : Decoded s u := h
    exact terminate_kept (tableOk_of_inv hs) hu.worked hu.mem (fun _ => hstarted.inSpace) e

theorem fetchStep_kept {s t : State} (hs : s.Inv) (hf : s.fsm = .runDecompress .fetch) (h : s.fetchStep = .next t) :
    Kept s t := by
  obtain ⟨hstarted, hip⟩ := (stageOk_fetch hf).mp (stageOk_of_inv hs)
  have hw := writing_of_started hstarted (dstWritten_of_inv hs)
  rcases fetchStep_cases s with ⟨i, k, -, -, hk, hi, hx⟩ | ⟨-, hx⟩ <;> rw [hx] at h
  · have hc : Decoded s (s.consumed i k) := consumed_decoded hw hip hk
    rcases exec_token_cases hi with ⟨n, st, he⟩ | ⟨len, dist, tr, he⟩ | ⟨len, he⟩ <;> rw [he] at h
    · rw [(guarded_next h).2]
      exact settle_kept_of_decoded hs hf ((litToken_decoded n st (hc.writing hw) hc.ip_le_self).mono fun _ => hc.trans)
    · rw [(guarded_next h).2]
      exact settle_kept_of_decoded hs hf ((copyToken_decoded len dist tr (hc.writing hw) hc.ip_le_self).mono fun _ => hc.trans)
    · cases h
      exact terminate_kept (u := { s.consumed i k with dp := { (s.consumed i k).dp with len := len } }) (tableOk_of_inv hs) rfl
        hc.mem (fun _ => hstarted.inSpace) _
  · cases h
    exact terminate_kept (u := s.setIp s.srcLen) (tableOk_of_inv hs) rfl (dstWritten_of_inv hs) (fun _ => hstarted.inSpace) _

/-! ## COMPRESS -/

/-- A stage of COMPRESS leads to another: the registers, memory and H may change. -/
theorem compress_kept {s t : State} (hs : s.Inv) {ph ph' : CompressPhase} (hf : s.fsm = .runCompress ph)
    (hshape : t = { s with fsm := .runCompress ph', dp := t.dp, mem := t.mem, tbl := t.tbl })
    (hm : s.DstWritten t.mem) (htbl : TableOk t.tbl) (hstage : t.stageOk = true) : Kept s t :=
  ⟨goOn_inv hs (by rw [hshape]) (by rw [hshape]) (.inl ⟨ph, ph', hf, by rw [hshape]⟩) hm htbl hstage, hm⟩

theorem tableOk_nil : TableOk [] := ⟨rfl, rfl, fun _ h => absurd h List.not_mem_nil⟩

theorem skipTo_gt (ip ii : Nat) : ip < skipTo ip ii := by
  simp only [skipTo]
  omega

/-- The first probe lies past the block's start, and at least four bytes past the carried run's start (R155). -/
theorem firstProbe_ge (blk ti : Nat) : blk < firstProbe blk ti ∧ blk + 4 ≤ firstProbe blk ti + ti := by
  unfold firstProbe
  split
  · have := skipTo_gt (blk + (4 - ti)) blk
    omega
  · have := skipTo_gt blk blk
    omega

theorem outerStep_kept {s : State} (hs : s.Inv) (hf : s.fsm = .runCompress .outer) : Kept s s.outerStep := by
  obtain ⟨hst, hpl, ht⟩ := (stageOk_outer hf).mp (stageOk_of_inv hs)
  have hm := dstWritten_of_inv hs
  have htbl := tableOk_of_inv hs
  unfold State.outerStep
  split
  · next hb =>
    simp only [State.anotherBlock, Bool.and_eq_true, decide_eq_true_eq] at hb
    have htail : Config.tail < min s.dp.l Config.blockMax := lt_min hb.1 (by decide)
    have hprobe := firstProbe_ge s.dp.p s.dp.t
    refine compress_kept hs hf (ph' := .next) rfl hm tableOk_nil ((stageOk_next rfl).mpr ⟨?_, ?_, .inr hprobe.2⟩)
    · exact hst.of_csr rfl hst.op_le hst.patch
    · exact {
        p_eq := rfl, p_add_l := hpl, ll_le_l := min_le_left _ _, ll_le := min_le_right _ _, tail_lt := htail, ipEnd_eq := rfl
        ti_le := ht, blk_le := Nat.le_refl _, ii_le := Nat.le_of_lt hprobe.1, ii_le_end := Nat.le_add_right _ _
        blk_lt := hprobe.1, slots := fun _ h => absurd h List.not_mem_nil }
  · refine compress_kept hs hf (ph' := .flush) rfl hm htbl ((stageOk_flush rfl).mpr ⟨?_, ?_⟩)
    · exact hst.of_csr rfl hst.op_le hst.patch
    · change s.dp.t + s.dp.l ≤ s.srcLen
      omega

/-- A probe writes one slot, with an offset in the block (R156). -/
theorem probe_tbl_mem {s : State} {e : Nat × BitVec Config.entryWidth} (h : e ∈ s.probe.tbl) :
    e ∈ s.tbl ∨ e = ((hashIndex (s.le32 s.dp.ip)).toNat, BitVec.ofNat 16 (s.dp.ip - s.dp.blk)) := Store.mem_write h

theorem ofNat16_le (n : Nat) : (BitVec.ofNat 16 n).toNat ≤ n := by
  rw [BitVec.toNat_ofNat]
  exact Nat.mod_le _ _

theorem probe_tableOk {s : State} (h : TableOk s.tbl) (hb : s.InBlock s.dp.ip) (hip : s.dp.ip < s.dp.ipEnd) :
    TableOk s.probe.tbl where
  wf := Store.wf_write h.wf _ _
  below := Store.below_write h.below (hashIndex (s.le32 s.dp.ip)).isLt _
  offsets e he := by
    rcases probe_tbl_mem he with he | rfl
    · exact h.offsets e he
    · have hoff := ofNat16_le (s.dp.ip - s.dp.blk)
      have hend := hb.ipEnd_eq
      have hll := hb.ll_le
      have htail := hb.tail_lt
      change (BitVec.ofNat 16 (s.dp.ip - s.dp.blk)).toNat < Config.blockMax
      omega

/-- After a probe the slots name positions up to the one probed (R156). -/
theorem probe_slots {s : State} (hb : s.InBlock s.dp.ip) (e : Nat × BitVec Config.entryWidth) (he : e ∈ s.probe.tbl) :
    s.dp.blk + e.2.toNat < s.dp.ip + 1 := by
  rcases probe_tbl_mem he with he | rfl
  · exact Nat.lt_succ_of_lt (hb.slots e he)
  · have := ofNat16_le (s.dp.ip - s.dp.blk)
    have := hb.blk_lt
    simp only
    omega

/-- The candidate a probe reads lies in the block, below the probed position (R156). -/
theorem probe_mPos {s : State} (hb : s.InBlock s.dp.ip) : s.dp.blk ≤ s.probe.dp.mPos ∧ s.probe.dp.mPos < s.dp.ip := by
  refine ⟨Nat.le_add_right _ _, ?_⟩
  rcases Store.read_eq_unlisted_or_mem s.tbl (hashIndex (s.le32 s.dp.ip)).toNat with hr | hr
  · change s.dp.blk + (Store.read s.tbl (hashIndex (s.le32 s.dp.ip)).toNat).toNat < s.dp.ip
    rw [hr]
    exact hb.blk_lt
  · exact hb.slots _ hr

theorem nextStep_kept {s : State} (hs : s.Inv) (hf : s.fsm = .runCompress .next) : Kept s s.nextStep := by
  obtain ⟨hst, hb, hfirst⟩ := (stageOk_next hf).mp (stageOk_of_inv hs)
  have hm := dstWritten_of_inv hs
  have htbl := tableOk_of_inv hs
  have hst' (u : State) (hcsr : u.csr = s.csr) (hop : u.dp.op = s.dp.op) : u.CompressStarted :=
    hst.of_csr hcsr (hop ▸ hst.op_le) (hop ▸ hst.patch)
  obtain ⟨hp, hpl, hlll, hll, htail, hend, hti, hblk, hii, hiiend, hlt, -⟩ := id hb
  unfold State.nextStep State.judge
  split
  · refine compress_kept hs hf (ph' := .outer) rfl hm htbl ((stageOk_outer rfl).mpr ⟨hst' _ rfl rfl, ?_, ?_⟩)
    · change s.dp.p + s.dp.ll + (s.dp.l - s.dp.ll) = s.srcLen
      omega
    · change s.dp.blk + s.dp.ll - (s.dp.ii - s.dp.ti) ≤ s.dp.p + s.dp.ll
      omega
  · next hip =>
    have hip' : s.dp.ip < s.dp.ipEnd := Nat.lt_of_not_le hip
    have htbl' := probe_tableOk htbl hb hip'
    split
    · refine compress_kept hs hf (ph' := .hit) rfl hm htbl' ((stageOk_hit rfl).mpr ⟨hst' _ rfl rfl, ?_, hfirst, hip', probe_mPos hb⟩)
      exact ⟨hp, hpl, hlll, hll, htail, hend, hti, hblk, hii, hiiend, hlt, probe_slots hb⟩
    · have hskip := skipTo_gt s.dp.ip s.dp.ii
      have hf' : (s.probe.setIp (skipTo s.probe.dp.ip s.probe.dp.ii)).fsm = .runCompress .next := hf
      refine compress_kept hs hf (ph' := .next) (by rw [← hf]; rfl) hm htbl' ((stageOk_next hf').mpr ⟨hst' _ rfl rfl, ?_, ?_⟩)
      · exact ⟨hp, hpl, hlll, hll, htail, hend, hti, hblk, hii.trans hskip.le, hiiend, hlt.trans hskip,
          fun e he => Nat.lt_of_lt_of_le (probe_slots hb e he) hskip⟩
      · change 0 < s.dp.op ∨ s.dp.ii + 4 ≤ skipTo s.dp.ip s.dp.ii + s.dp.ti
        omega

end Sys2Proof.Machine
end

section
/-! PROOFS. The invariant, continued: a match and the flush of COMPRESS, the start checks, a raced command, and every turn of the host; then the
invariant's step and the reset input (R139, R160, R165, R212, 20_memory.md R85, R263). -/

namespace Sys2Proof.Machine

/-! ## A match -/

/-- The carried literals joined to the run, as part 1 of `Match` leaves the registers before it emits (R159). -/
def State.joinRun (s : State) : State :=
  { s with dp := { s.dp with ii := s.dp.ii - s.dp.ti, ti := 0, t := s.dp.ip - (s.dp.ii - s.dp.ti) } }

theorem flushRun_eq (s : State) : s.flushRun =
    if s.joinRun.dp.t = 0 then .ok s.joinRun
    else (emitLitHeader s.joinRun.dp.t s.joinRun).andThen (compLiterals s.joinRun.dp.ii s.joinRun.dp.t) := rfl

/-- The registers past the match, as part 3 of `Match` leaves them before it emits (R161, R163). -/
def State.passMatch (s : State) : State :=
  { s with dp := { s.dp with mOff := s.dp.ip - s.dp.mPos, ip := s.dp.ip + s.dp.mLen, ii := s.dp.ip + s.dp.mLen } }

theorem emitMatch_eq (s : State) : s.emitMatch =
    (emitAll (matchBytes s.passMatch.dp.mLen s.passMatch.dp.mOff) s.passMatch).andThen
      fun u => .ok (u.setFsm (.runCompress .next)) := rfl

theorem matchBytes_length_ge (len dist : Nat) : 2 ≤ (matchBytes len dist).length := by
  unfold matchBytes
  split
  · exact Nat.le_refl 2
  · split
    · simp [m3Bytes]
    · simp [m4Bytes]

theorem equalRun_le (s : State) (fuel i j : Nat) : s.equalRun fuel i j ≤ fuel := by
  induction fuel generalizing i j with
  | zero => exact Nat.le_refl 0
  | succ fuel ih =>
    unfold State.equalRun
    split
    · exact Nat.succ_le_succ (ih _ _)
    · exact Nat.zero_le _

/-- A match ends before the bytes that the block's tail leaves unprobed do (R160). -/
theorem matchEnd_le {ip ipEnd len : Nat} (hip : ip < ipEnd) (hlen : len ≤ 4 + 8 * capCount ip ipEnd) :
    ip + len ≤ ipEnd + Config.tail := by
  have hcap : capCount ip ipEnd ≤ 1 ∨ 8 * capCount ip ipEnd ≤ ipEnd - (ip + 4) + 7 := by
    unfold capCount
    omega
  simp only [Config.tail]
  omega

/-- The state a match of `len` bytes leaves, with the cursor and memory its emission left. -/
def State.afterMatch (s : State) (len op : Nat) (m : Memory) : State :=
  { s with
    fsm := .runCompress .next
    mem := m
    dp := { s.dp with
      t := s.dp.ip - (s.dp.ii - s.dp.ti), ti := 0, k := capCount s.dp.ip s.dp.ipEnd
      limit := 4 + 8 * capCount s.dp.ip s.dp.ipEnd, mLen := len, mOff := s.dp.ip - s.dp.mPos
      ip := s.dp.ip + len, ii := s.dp.ip + len, op := op } }

theorem flushRun_all_emitted {s : State} (hs : s.Writing) (hpatch : s.joinRun.dp.t ≤ 3 → s.joinRun.dp.t ≠ 0 → 2 ≤ s.dp.op) :
    s.flushRun.All (Emitted s.joinRun) := by
  have hw : s.joinRun.Writing := hs.of_csr rfl hs.op_le hs.mem
  rw [flushRun_eq]
  split
  · exact Emitted.refl hw
  · next ht =>
    exact (emitLitHeader_all_emitted hw fun h3 => hpatch h3 ht).then_emitted hw fun _ _ hu => compLiterals_all_emitted _ _ hu

/-- `Match` ends in an error with nothing written outside DST, or leaves a match of 4 bytes up to its cap, and a token emitted (R159 to R163). -/
theorem hitStep_cases {s : State} (hs : s.Writing) (hpatch : s.joinRun.dp.t ≤ 3 → s.joinRun.dp.t ≠ 0 → 2 ≤ s.dp.op) :
    (∃ e u, s.hitStep = .raise e u ∧ Worked s u ∧ s.DstWritten u.mem) ∨
    (∃ len op m, s.hitStep = .ok (s.afterMatch len op m) ∧ 4 ≤ len ∧ len ≤ 4 + 8 * capCount s.dp.ip s.dp.ipEnd ∧
      2 ≤ op ∧ op ≤ s.dstCap ∧ s.DstWritten m) := by
  have hjoin : s.joinRun.Writing := hs.of_csr rfl hs.op_le hs.mem
  have hrun := flushRun_all_emitted hs hpatch
  unfold State.hitStep
  cases hr : s.flushRun with
  | raise e u =>
    have hu : Emitted s.joinRun u := by simpa [hr] using hrun
    exact .inl ⟨e, u, rfl, hu.worked.of_dp, hs.mem.trans (u := s.joinRun) hu.mem rfl⟩
  | ok u =>
    have hu : Emitted s.joinRun u := by simpa [hr] using hrun
    have hmem : s.DstWritten u.mem := hs.mem.trans (u := s.joinRun) hu.mem rfl
    have hpass : u.extendMatch.passMatch.Writing := (hu.writing hjoin).of_csr rfl (hu.writing hjoin).op_le (hu.writing hjoin).mem
    have hcsr : u.csr = s.csr := hu.csr
    rw [Res.ok_andThen, emitMatch_eq]
    rcases emitAll_emitted (matchBytes u.extendMatch.passMatch.dp.mLen u.extendMatch.passMatch.dp.mOff) hpass with
      ⟨w, he, hw, hop⟩ | ⟨w, he, hw⟩ <;> rw [he]
    · refine .inr ⟨u.extendMatch.dp.mLen, w.dp.op, w.mem, ?_, Nat.le_add_right _ _, ?_, ?_, ?_, hmem.trans (u := u.extendMatch.passMatch) hw.mem hcsr⟩
      · rw [Res.ok_andThen, hw.shape]
        simp only [State.setFsm, State.passMatch, State.extendMatch, State.afterMatch]
        rw [hu.shape]
        rfl
      · have hdp := hu.dp
        have hle := equalRun_le u (8 * capCount u.dp.ip u.dp.ipEnd) (u.dp.ip + 4) (u.dp.mPos + 4)
        have hcap : capCount u.dp.ip u.dp.ipEnd = capCount s.dp.ip s.dp.ipEnd := by rw [hdp]; rfl
        rw [← hcap]
        exact Nat.add_le_add_left hle 4
      · have hlen := matchBytes_length_ge u.extendMatch.passMatch.dp.mLen u.extendMatch.passMatch.dp.mOff
        omega
      · have hle := hw.op_le
        rwa [dstCap_congr (s := s) (u := u.extendMatch.passMatch) hcsr] at hle
    · refine .inl ⟨_, w, rfl, ?_, hmem.trans (u := u.extendMatch.passMatch) hw.mem hcsr⟩
      exact (Worked.of_dp hu.worked).trans (Worked.of_dp hw.worked)

/-- Before the first token the pending run is too long for `Patch2` (R133, R155). -/
theorem joinRun_patch {s : State} {bound : Nat} (hst : s.CompressStarted) (hb : s.InBlock bound)
    (hfirst : 0 < s.dp.op ∨ s.dp.ii + 4 ≤ s.dp.ip + s.dp.ti) (ht : s.joinRun.dp.t ≤ 3) : 2 ≤ s.dp.op := by
  have hti := hb.ti_le
  have hii := hb.ii_le
  have hp := hst.patch
  change s.dp.ip - (s.dp.ii - s.dp.ti) ≤ 3 at ht
  omega

theorem hitStep_kept {s : State} (hs : s.Inv) (hf : s.fsm = .runCompress .hit) : Kept s s.hitStep.settle := by
  obtain ⟨hst, hb, hfirst, hip, -, -⟩ := (stageOk_hit hf).mp (stageOk_of_inv hs)
  have htbl := tableOk_of_inv hs
  have hw := writing_of_started hst.toStarted (dstWritten_of_inv hs)
  rcases hitStep_cases hw fun h3 _ => joinRun_patch hst hb hfirst h3 with ⟨e, u, he, hu, hm⟩ | ⟨len, op, m, he, hlen4, hlen, hop, hcap, hm⟩ <;>
    rw [he]
  · exact terminate_kept htbl hu hm (fun _ => hst.inSpace) e
  · refine compress_kept hs hf (ph' := .next) rfl hm htbl ((stageOk_next rfl).mpr ⟨?_, ?_, .inl (Nat.lt_of_lt_of_le (by decide) hop)⟩)
    · exact hst.of_csr rfl hcap (.inr hop)
    · have hend := matchEnd_le hip hlen
      have hipEnd := hb.ipEnd_eq
      have htail := hb.tail_lt
      have hblk := hb.blk_lt
      refine ⟨hb.p_eq, hb.p_add_l, hb.ll_le_l, hb.ll_le, hb.tail_lt, hb.ipEnd_eq, Nat.zero_le _, ?_, Nat.le_refl _, ?_, ?_, ?_⟩
      · change s.dp.blk ≤ s.dp.ip + len
        omega
      · change s.dp.ip + len ≤ s.dp.blk + s.dp.ll
        omega
      · change s.dp.blk < s.dp.ip + len
        omega
      · intro e he
        have hslot := hb.slots e he
        change s.dp.blk + e.2.toNat < s.dp.ip + len
        omega

/-! ## The flush -/

theorem flushHeader_all_emitted {t : Nat} {s : State} (hs : s.Writing) (hpatch : s.dp.op = 0 ∨ 2 ≤ s.dp.op) :
    (flushHeader t s).All (Emitted s) := by
  unfold flushHeader
  split
  · exact emitAll_all_emitted _ hs
  · next hfirst =>
    split
    · next h3 =>
      refine patch2_emitted t hs (hpatch.resolve_left fun h0 => hfirst ⟨h0, ?_⟩)
      simp only [Config.firstLitMax]
      omega
    · exact emitAll_all_emitted _ hs

theorem flushTail_all_emitted {s : State} (hs : s.Writing) (hpatch : s.dp.op = 0 ∨ 2 ≤ s.dp.op) :
    s.flushTail.All (Emitted s) := by
  unfold State.flushTail
  split
  · exact Emitted.refl hs
  · exact (flushHeader_all_emitted hs hpatch).then_emitted hs fun _ _ hu => compLiterals_all_emitted _ _ hu

theorem flushStep_kept {s : State} (hs : s.Inv) (hf : s.fsm = .runCompress .flush) : Kept s s.flushStep.settle := by
  obtain ⟨hst, -⟩ := (stageOk_flush hf).mp (stageOk_of_inv hs)
  have hw := writing_of_started hst.toStarted (dstWritten_of_inv hs)
  obtain ⟨e, u, hu, hend⟩ := flushStep_settle_all
    ((flushTail_all_emitted hw hst.patch).then_emitted hw fun _ _ hu => emitAll_all_emitted eosBytes hu)
  rw [hend]
  exact terminate_kept (tableOk_of_inv hs) hu.worked hu.mem (fun _ => hst.inSpace) e

/-! ## The start checks -/

/-- What the start checks establish (R212). -/
theorem startError_none {s : State} {compressing : Bool} (h : s.startError compressing = none) :
    s.csr.initOk = true ∧ s.inSpace = true ∧ s.overlap = false ∧ (compressing = true → s.srcLen ≤ Config.maxInputLen) := by
  unfold State.startError at h
  split at h
  · cases h
  · next hinit =>
    split at h
    · cases h
    · next hspace =>
      split at h
      · cases h
      · next hover =>
        split at h
        · cases h
        · next hlen =>
          refine ⟨by simpa using hinit, by simpa using hspace, by simpa using hover, fun hc => ?_⟩
          exact Nat.le_of_not_lt fun hlt => hlen ⟨hc, hlt⟩

theorem started_of_startError {s u : State} {compressing : Bool} (h : s.startError compressing = none) (hcsr : u.csr = s.csr)
    (hop : u.dp.op = 0) : u.Started := by
  obtain ⟨hinit, hspace, hover, -⟩ := startError_none h
  have h0 : ({ s with dp := { s.dp with op := 0 } } : State).Started := ⟨hinit, hspace, hover, Nat.zero_le _⟩
  exact h0.of_csr hcsr (by rw [hop]; exact Nat.zero_le _)

theorem checkCompress_kept {s : State} (hs : s.Inv) (hf : s.fsm = .runCompress .check) : Kept s s.checkCompress := by
  have hm := dstWritten_of_inv hs
  have htbl := tableOk_of_inv hs
  unfold State.checkCompress
  split
  · exact terminate_kept htbl (.refl s) hm (by simp [State.pastChecks, hf]) _
  · next hnone =>
    obtain ⟨-, -, -, hlen⟩ := startError_none hnone
    refine compress_kept hs hf (ph' := .outer) rfl hm htbl ((stageOk_outer rfl).mpr ⟨?_, Nat.zero_add _, Nat.le_refl 0⟩)
    exact ⟨started_of_startError hnone rfl rfl, hlen rfl, .inl rfl⟩

theorem checkDecompress_kept {s : State} (hs : s.Inv) (hf : s.fsm = .runDecompress .check) : Kept s s.checkDecompress := by
  have hm := dstWritten_of_inv hs
  have htbl := tableOk_of_inv hs
  unfold State.checkDecompress
  split
  · exact terminate_kept htbl (.refl s) hm (by simp [State.pastChecks, hf]) _
  · next hnone =>
    refine ⟨goOn_inv hs rfl rfl (.inr ⟨_, _, hf, rfl⟩) hm htbl ((stageOk_fetch rfl).mpr ⟨?_, Nat.zero_le _⟩), hm⟩
    exact started_of_startError hnone rfl rfl

/-! ## Free results, and every engine step -/

/-- Free DST bytes stay in DST (R85). -/
theorem dstWritten_fill {s : State} (h : s.inSpace = true) (hm : s.DstWritten s.mem) (f : Nat → Byte) :
    s.DstWritten (Memory.fill s.mem s.csr.dstBase.toNat f s.csr.dstCap.toNat) where
  wf := Memory.wf_fill hm.wf _ _ _
  below := Memory.below_fill hm.below _ _ _ (dst_end_le_of_inSpace h)
  frame a ha := by
    rw [inDst_eq_false_iff] at ha
    simp only [State.dstAddr, State.dstCap] at ha
    rw [Memory.read_fill hm.wf, if_neg (by omega)]

theorem raceEnd_kept {s : State} (hs : s.Inv) (hspace : s.inSpace = true) : Kept s s.raceEnd := by
  have hm : s.DstWritten s.raceEnd.mem := dstWritten_fill hspace (dstWritten_of_inv hs) _
  obtain ⟨code, outLen, inUsed, hcsr, hcode, -⟩ := drawResults_csr s s.endFlight
  have herr : s.raceEnd.csr.errcode = code := by simp only [State.raceEnd, hcsr]
  have htbl := tableOk_of_inv hs
  refine ⟨⟨storesOk_iff.mpr ⟨hm.self _, htbl⟩, ?_, rfl, rfl, ?_⟩, hm⟩
  · rw [State.codeOk, herr]
    exact decide_eq_true hcode
  · have hend := dst_end_le_of_inSpace hspace
    simp only [State.dstAddr, State.dstCap] at hend
    simp [State.flightOk, State.raceEnd, State.endFlight, hend]

theorem running_kept {s t : State} (hs : s.Inv) {k : Host.Outcome State Fault Refusal} (h : s.running k = .next t)
    (hk : ∀ t, k = .next t → Kept s t) : Kept s t := by
  obtain ⟨hspace, ⟨-, rfl⟩ | ⟨-, hn⟩⟩ := running_next h
  · exact raceEnd_kept hs hspace
  · exact hk t hn

theorem running_next_kept {s t u : State} (hs : s.Inv) (h : s.running (.next u) = .next t) (hu : Kept s u) : Kept s t :=
  running_kept hs h fun v hv => by
    cases hv
    exact hu

/-- Every engine step keeps the invariant and writes DST only (R61, R63). -/
theorem engineStep_kept {s t : State} (hs : s.Inv) (h : s.engineStep = .next t) : Kept s t := by
  have hm := dstWritten_of_inv hs
  rcases hf : s.fsm with _ | _ | ph | ph
  case idle =>
    rw [engineStep_idle hf] at h
    cases h
    exact ⟨hs, hm⟩
  case runInit =>
    rw [engineStep_init hf] at h
    cases h
    exact terminate_kept (tableOk_of_inv hs) (.refl s) hm (by simp [State.pastChecks, hf]) _
  case runCompress =>
    cases ph with
    | check =>
      rw [engineStep_checkCompress hf] at h
      cases h
      exact checkCompress_kept hs hf
    | outer =>
      rw [engineStep_outer hf] at h
      exact running_next_kept hs h (outerStep_kept hs hf)
    | next =>
      rw [engineStep_next hf] at h
      exact running_next_kept hs h (nextStep_kept hs hf)
    | hit =>
      rw [engineStep_hit hf] at h
      exact running_next_kept hs h (hitStep_kept hs hf)
    | flush =>
      rw [engineStep_flush hf] at h
      exact running_next_kept hs h (flushStep_kept hs hf)
  case runDecompress =>
    cases ph with
    | check =>
      rw [engineStep_checkDecompress hf] at h
      cases h
      exact checkDecompress_kept hs hf
    | fetch =>
      rw [engineStep_fetch hf] at h
      exact running_kept hs h fun _ => fetchStep_kept hs hf

end Sys2Proof.Machine
end

section
/-! PROOFS. The invariant over the host's turns and the reset input, and with them the statements about every step (10_state.md R22, R53,
70_reset_and_hazards.md R261 to R263). -/

namespace Sys2Proof.Machine

/-! ## CSR writes -/

/-- An IDLE block has nothing to keep but its tables, its code and the mark of the command that ended. -/
theorem inv_of_idle {t : State} (hf : t.fsm = .idle) (hst : t.storesOk = true) (hcode : t.codeOk = true) (hraced : t.raced = false)
    (hfl : t.flightOk = true) : t.Inv :=
  ⟨hst, hcode, by simp [State.busyOk, hf, hraced], by simp [State.stageOk, hf], hfl⟩

theorem raced_of_idle {s : State} (hs : s.Inv) (hf : s.fsm = .idle) : s.raced = false := by
  obtain ⟨-, -, hb, -, -⟩ := hs
  simpa [State.busyOk, hf] using hb

/-- An IDLE block keeps the invariant whatever is written to its CSRs, ERRCODE apart. -/
theorem inv_of_idle_csr {s : State} (hs : s.Inv) (hf : s.fsm = .idle) {c : Csr} (hcode : c.errcode = s.csr.errcode) :
    ({ s with csr := c } : State).Inv := by
  have hraced := raced_of_idle hs hf
  obtain ⟨hst, hc, -, -, hfl⟩ := hs
  refine inv_of_idle hf hst ?_ hraced hfl
  rw [State.codeOk] at hc ⊢
  rwa [hcode]

/-- DONE is 0 already while a command runs (R219). -/
theorem clearDone_of_busy {s : State} (hs : s.Inv) (hf : s.fsm ≠ .idle) : s.clearDone = s := by
  unfold State.clearDone
  rw [← done_eq_false_of_busy hs hf]

/-- An accepted START meets the invariant of the FSM value its command moves to (R211, R219). -/
theorem acceptStart_inv {s : State} (hs : s.Inv) {cmd : BitVec 2} {f : Fsm} (ie strict : Bool)
    (hcmd : cmd = 0 ∧ f = .runInit ∨ cmd = 1 ∧ f = .runCompress .check ∨ cmd = 2 ∧ f = .runDecompress .check) :
    (s.acceptStart cmd ie strict f).Inv := by
  obtain ⟨hst, -, -, -, -⟩ := hs
  rcases hcmd with ⟨rfl, rfl⟩ | ⟨rfl, rfl⟩ | ⟨rfl, rfl⟩ <;> exact ⟨hst, rfl, rfl, rfl, rfl⟩

theorem reservedCmd3_inv {s : State} (hs : s.Inv) (ie strict : Bool) :
    ((s.acceptStart 3 ie strict .idle).terminate .invalidArgument).Inv := by
  have hm : (s.acceptStart 3 ie strict .idle).DstWritten s.mem := (dstWritten_of_inv hs).self (s.acceptStart 3 ie strict .idle)
  have htbl : TableOk s.tbl := tableOk_of_inv hs
  exact (terminate_kept (s := s.acceptStart 3 ie strict .idle) htbl (.refl _) hm (by simp [State.pastChecks]) _).1

theorem csrWrite_inv {s t : State} (hs : s.Inv) {off : Nat} {v : Word} (h : s.csrWrite off v = .next t) : t.Inv := by
  by_cases hf : s.fsm = .idle
  · rcases csrWrite_cases h with ⟨-, hw⟩ | ⟨-, rfl⟩ | ⟨-, -, c, rfl⟩
    · rcases ctrlWrite_idle_cases hf v with ⟨-, hc⟩ | ⟨-, cmd, f, ie, strict, hc, hcmd⟩ | ⟨-, ie, strict, -, hc⟩ <;>
        (rw [hc] at hw; cases hw)
      · exact inv_of_idle_csr hs hf rfl
      · exact acceptStart_inv hs ie strict hcmd
      · exact reservedCmd3_inv hs ie strict
    · rw [writeStatus_eq]
      exact inv_of_idle_csr hs hf rfl
    · rw [if_pos hf]
      exact inv_of_idle_csr hs hf rfl
  · rcases csrWrite_busy_cases hf h with rfl | rfl | rfl
    · exact hs
    · rwa [clearDone_of_busy hs hf]
    · exact hs

/-! ## Host stores -/

/-- A host byte keeps the invariant, and starts no race on an IDLE block (R85). -/
theorem storeByte_inv {s : State} (hs : s.Inv) (a : Word) (v : Byte) : (s.storeByte a v).Inv := by
  have hm := dstWritten_of_inv hs
  have htbl := tableOk_of_inv hs
  have hst : (s.storeByte a v).storesOk = true :=
    storesOk_iff.mpr ⟨⟨Store.wf_write hm.wf _ _, Store.below_write hm.below a.isLt _, fun _ _ => rfl⟩, htbl⟩
  by_cases hf : s.fsm = .idle
  · have hraced := raced_of_idle hs hf
    obtain ⟨-, hcode, -, -, hfl⟩ := hs
    refine inv_of_idle hf hst hcode ?_ hfl
    simp [hraced, busy_eq_false_iff.mpr hf]
  · obtain ⟨-, hcode, hb, hstage, hfl⟩ := hs
    refine ⟨hst, hcode, ?_, hstage, hfl⟩
    rcases hf' : s.fsm with _ | _ | ph | ph
    · exact absurd hf' hf
    all_goals
      simp only [State.busyOk, State.storeByte_fsm, hf'] at hb ⊢
      exact hb

/-- Free results of a command that ran and ended unseen keep the invariant: its DST lies in the address space (R74, R78). -/
theorem drawResults_inv {s : State} (hs : s.Inv) {f : Flight} (hflight : s.flight = some f) (hran : f.ran = true) :
    (s.drawResults f).Inv := by
  have hm := dstWritten_of_inv hs
  have htbl := tableOk_of_inv hs
  obtain ⟨-, -, -, -, hfl⟩ := id hs
  obtain ⟨hf, hend⟩ : s.fsm = .idle ∧ f.dstBase.toNat + f.dstCap.toNat ≤ Config.addrSpace := by
    simpa [State.flightOk, hflight, hran] using hfl
  obtain ⟨code, outLen, inUsed, hcsr, hcode, -⟩ := drawResults_csr s f
  have hraced := raced_of_idle hs hf
  refine inv_of_idle hf (storesOk_iff.mpr ⟨⟨?_, ?_, fun _ _ => rfl⟩, htbl⟩) ?_ hraced ?_
  · exact Memory.wf_fill hm.wf _ _ _
  · exact Memory.below_fill hm.below _ _ _ hend
  · rw [State.codeOk, hcsr]
    exact decide_eq_true hcode
  · exact hfl

theorem hostStore_inv {s : State} (hs : s.Inv) (a : Word) (v : Byte) : (s.hostStore a v).Inv := by
  have hst := storeByte_inv hs a v
  rcases hostStore_cases s a v with ⟨-, h⟩ | ⟨f, hf, hran, -, h⟩ <;> rw [h]
  · exact hst
  · exact drawResults_inv hst hf hran

/-! ## The reset input -/

/-- Memory after a reset differs from memory before it in DST only, and only while a command runs (R263). -/
theorem tornMem_dstWritten {s : State} (hs : s.Inv) : s.DstWritten s.tornMem := by
  have hm := dstWritten_of_inv hs
  unfold State.tornMem
  split
  · split
    · next s' k he _ => exact (engineStep_kept hs he).2.splice hm _
    · exact hm
  · exact hm

theorem tornMem_idle {s : State} (h : s.fsm = .idle) : s.tornMem = s.mem := by
  simp [State.tornMem, busy_eq_false_iff.mpr h]

theorem resetInput_inv {s : State} (hs : s.Inv) : s.resetInput.Inv := by
  have hm : s.DstWritten s.resetInput.mem := tornMem_dstWritten hs
  exact ⟨storesOk_iff.mpr ⟨hm.self s.resetInput, tableOk_nil⟩, rfl, rfl, rfl, rfl⟩

theorem step_reset {s : State} {rest : List HostOp} (h : s.host = .reset :: rest) :
    step s = .next ({ s with host := rest } : State).resetInput := by simp [step, State.turn, h]

/-! ## The statements -/

/-- Settles O50: the engine's turns by `engineStep_kept`, the host's one by one. -/
theorem stepKeepsInvariant : Obligations.StepKeepsInvariant := by
  intro s t hs h
  rcases step_next_cases h with ⟨host, he⟩ | ⟨off, v, rest, -, hw⟩ | ⟨a, v, rest, -, rfl⟩ | ⟨rest, -, rfl⟩ |
    ⟨host, rdata, flight, draws, rfl, hflight⟩
  · exact (engineStep_kept (s := { s with host := host }) hs he).1
  · exact csrWrite_inv (s := { s with host := rest }) hs hw
  · exact hostStore_inv (s := { s with host := rest }) hs a v
  · exact resetInput_inv (s := { s with host := rest }) hs
  · obtain ⟨hst, hcode, hb, hstage, hfl⟩ := hs
    refine ⟨hst, hcode, hb, hstage, ?_⟩
    rcases hflight with rfl | rfl
    · rfl
    · exact hfl

/-- Settles O57: the reset values by evaluation, and memory by `tornMem_dstWritten`. -/
theorem resetInput : Obligations.ResetInput := by
  rintro c rfl
  refine ⟨⟨rfl, rfl, rfl, rfl, by decide, by decide⟩, fun s rest hs hh => ?_⟩
  refine ⟨_, step_reset hh, rfl, rfl, rfl, rfl, rfl, fun hf => ?_, fun a ha => ?_⟩
  · exact tornMem_idle (s := { s with host := rest }) hf
  · exact (tornMem_dstWritten (s := { s with host := rest }) hs).frame a ha

end Sys2Proof.Machine
end

section
/-! PROOFS. Noninterference: a running COMPRESS or DECOMPRESS reads no datapath register and no slot of H that it has not written since its
start checks (10_state.md R41, R51, R52, 70_reset_and_hazards.md R273). Two states are alike at a stage when they agree on all but the registers
that are dead there; every engine step leads like states to like states. -/

namespace Sys2Proof.Machine

/-! ## Live registers -/

/-- The registers that the engine may still read at a stage before it writes them; the others are blanked. -/
def Datapath.live (f : Fsm) (d : Datapath) : Datapath :=
  match f with
  | .idle | .runInit | .runCompress .check | .runDecompress .check => Datapath.reset
  | .runCompress .outer => { Datapath.reset with op := d.op, l := d.l, t := d.t, p := d.p }
  | .runCompress .next =>
    { Datapath.reset with
      op := d.op, l := d.l, t := d.t, p := d.p, blk := d.blk, ll := d.ll, ipEnd := d.ipEnd, ii := d.ii, ti := d.ti, ip := d.ip }
  | .runCompress .hit =>
    { Datapath.reset with
      op := d.op, l := d.l, t := d.t, p := d.p, blk := d.blk, ll := d.ll, ipEnd := d.ipEnd, ii := d.ii, ti := d.ti, ip := d.ip
      mPos := d.mPos }
  | .runCompress .flush => { Datapath.reset with op := d.op, t := d.t }
  | .runDecompress .fetch => { Datapath.reset with ip := d.ip, op := d.op, sreg := d.sreg }

/-- H is live inside a block only: each block clears it first (R154). -/
def HashTable.live (f : Fsm) (h : HashTable) : HashTable :=
  match f with
  | .runCompress .next | .runCompress .hit => h
  | .idle | .runInit | .runDecompress _ | .runCompress .check | .runCompress .outer | .runCompress .flush => []

/-- The state with the dead registers of a stage, and H where it is dead, blanked. -/
def State.live (f : Fsm) (s : State) : State := { s with dp := s.dp.live f, tbl := HashTable.live f s.tbl }

/-- Both states are at stage `f` and agree on all that is live there. -/
structure Alike (f : Fsm) (s s' : State) : Prop where
  fsm : s.fsm = f
  live : s.live f = s'.live f

section
variable {f f' : Fsm} {s s' : State}

/-- What depends on live parts only is the same in like states. -/
theorem Alike.congr (h : Alike f s s') {α : Type} (q : State → α) (hq : ∀ u, q (u.live f) = q u) : q s = q s' := by
  rw [← hq s, ← hq s', h.live]

/-- An update whose live part depends on live parts only leads like states to like states. -/
theorem Alike.map (h : Alike f s s') (g : State → State) (hg : ∀ u, (g (u.live f)).live f' = (g u).live f')
    (hf : (g s).fsm = f') : Alike f' (g s) (g s') :=
  ⟨hf, h.congr (fun u => (g u).live f') hg⟩

theorem Alike.csr (h : Alike f s s') : s.csr = s'.csr := h.congr State.csr fun _ => rfl
theorem Alike.mem (h : Alike f s s') : s.mem = s'.mem := h.congr State.mem fun _ => rfl
theorem Alike.host (h : Alike f s s') : s.host = s'.host := h.congr State.host fun _ => rfl
theorem Alike.raced (h : Alike f s s') : s.raced = s'.raced := h.congr State.raced fun _ => rfl
theorem Alike.fsm_eq (h : Alike f s s') : s.fsm = s'.fsm := h.congr State.fsm fun _ => rfl
theorem Alike.srcLen (h : Alike f s s') : s.srcLen = s'.srcLen := h.congr State.srcLen fun _ => rfl
theorem Alike.dstCap (h : Alike f s s') : s.dstCap = s'.dstCap := h.congr State.dstCap fun _ => rfl
theorem Alike.inSpace (h : Alike f s s') : s.inSpace = s'.inSpace := h.congr State.inSpace fun _ => rfl
theorem Alike.src (h : Alike f s s') (i : Nat) : s.src i = s'.src i := h.congr (State.src · i) fun _ => rfl

/-- The end of a command blanks everything but the counts, which are live where they are reported (R217, R238). -/
theorem live_terminate (u : State) (e : ErrorCode) : ((u.live u.fsm).terminate e).live .idle = (u.terminate e).live .idle := by
  obtain ⟨csr, fsm, dp, tbl, mem, raced, flight, host, rdata, draws⟩ := u
  rcases fsm with _ | _ | ph | ph
  · rfl
  · rfl
  · cases ph <;> rfl
  · cases ph <;> rfl

theorem Alike.terminate (h : Alike f s s') (e : ErrorCode) : Alike .idle (s.terminate e) (s'.terminate e) := by
  have hf : s'.fsm = f := h.fsm_eq ▸ h.fsm
  refine ⟨rfl, ?_⟩
  rw [← live_terminate s, ← live_terminate s', h.fsm, hf, h.live]

theorem Alike.raceEnd (h : Alike f s s') : Alike .idle s.raceEnd s'.raceEnd := h.map State.raceEnd (fun _ => rfl) rfl

/-! ## Primitives on like states -/

/-- The same primitive ran twice: both go on, in states related by `P`, or both raise the same error, in states alike at stage `f`. -/
def Res.Twin (f : Fsm) (P : State → State → Prop) : Res → Res → Prop
  | .ok u, .ok u' => P u u'
  | .raise e u, .raise e' u' => e = e' ∧ Alike f u u'
  | .ok _, .raise _ _ | .raise _ _, .ok _ => False

theorem Res.Twin.andThen {P Q : State → State → Prop} {r r' : Res} {g g' : State → Res} (h : Res.Twin f P r r')
    (hg : ∀ u u', P u u' → Res.Twin f Q (g u) (g' u')) : Res.Twin f Q (r.andThen g) (r'.andThen g') := by
  cases r with
  | ok u =>
    cases r' with
    | ok u' => exact hg u u' h
    | raise e' u' => exact False.elim h
  | raise e u =>
    cases r' with
    | ok u' => exact False.elim h
    | raise e' u' => exact h

/-- Like states after a primitive: going on, or at the end of the command. -/
theorem Res.Twin.settle {P : State → State → Prop} {r r' : Res} (h : Res.Twin f P r r') (hP : ∀ u u', P u u' → ∃ f', Alike f' u u') :
    ∃ f', Alike f' r.settle r'.settle := by
  cases r with
  | ok u =>
    cases r' with
    | ok u' => exact hP u u' h
    | raise e' u' => exact False.elim h
  | raise e u =>
    cases r' with
    | ok u' => exact False.elim h
    | raise e' u' =>
      obtain ⟨rfl, hu⟩ := h
      exact ⟨.idle, hu.terminate e⟩

/-! ### The decoder's copies -/

theorem copyLits_alike (n : Nat) (h : Alike (.runDecompress .fetch) s s') :
    Alike (.runDecompress .fetch) (copyLits n s) (copyLits n s') := by
  induction n generalizing s s' with
  | zero => exact h
  | succ n ih => exact ih (h.map (fun u => (u.putDst (u.src u.dp.ip)).setIp (u.dp.ip + 1)) (fun _ => rfl) h.fsm)

theorem copyBack_alike (dist len : Nat) (h : Alike (.runDecompress .fetch) s s') :
    Alike (.runDecompress .fetch) (copyBack dist len s) (copyBack dist len s') := by
  induction len generalizing s s' with
  | zero => exact h
  | succ len ih => exact ih (h.map (fun u => u.putDst (u.dst (u.dp.op - dist))) (fun _ => rfl) h.fsm)

/-- The cursors are live while tokens are read (R43, R45). -/
theorem Alike.cursors (h : Alike (.runDecompress .fetch) s s') : s.dp.ip = s'.dp.ip ∧ s.dp.op = s'.dp.op :=
  ⟨h.congr (fun u => u.dp.ip) fun _ => rfl, h.congr (fun u => u.dp.op) fun _ => rfl⟩

theorem copyLiterals_twin (n : Nat) (h : Alike (.runDecompress .fetch) s s') :
    Res.Twin (.runDecompress .fetch) (Alike (.runDecompress .fetch)) (copyLiterals n s) (copyLiterals n s') := by
  obtain ⟨hip, hop⟩ := h.cursors
  unfold copyLiterals
  rw [← h.dstCap, ← h.srcLen, ← hip, ← hop]
  split
  · exact ⟨rfl, h⟩
  · split
    · exact ⟨rfl, h⟩
    · exact copyLits_alike n h

theorem copyMatch_twin (dist len : Nat) (h : Alike (.runDecompress .fetch) s s') :
    Res.Twin (.runDecompress .fetch) (Alike (.runDecompress .fetch)) (copyMatch dist len s) (copyMatch dist len s') := by
  obtain ⟨-, hop⟩ := h.cursors
  unfold copyMatch
  rw [← h.dstCap, ← hop]
  split
  · exact ⟨rfl, h⟩
  · split
    · exact ⟨rfl, h⟩
    · exact copyBack_alike dist len h

theorem setS_alike (st : DecState) (h : Alike (.runDecompress .fetch) s s') :
    Alike (.runDecompress .fetch) (s.setS st) (s'.setS st) := h.map (State.setS · st) (fun _ => rfl) h.fsm

theorem trail_twin (t : BitVec 2) (h : Alike (.runDecompress .fetch) s s') :
    Res.Twin (.runDecompress .fetch) (Alike (.runDecompress .fetch)) (trail t s) (trail t s') := by
  refine Res.Twin.andThen (P := Alike (.runDecompress .fetch)) ?_ fun u u' hu => setS_alike (.trail t) hu
  split
  · exact h
  · exact copyLiterals_twin _ h

theorem litToken_twin (n : Nat) (st : DecState) (h : Alike (.runDecompress .fetch) s s') :
    Res.Twin (.runDecompress .fetch) (Alike (.runDecompress .fetch)) (litToken n st s) (litToken n st s') :=
  (copyLiterals_twin n (h.map (State.latchCount · n) (fun _ => rfl) h.fsm)).andThen fun _ _ hu => setS_alike st hu

theorem copyToken_twin (len dist : Nat) (t : BitVec 2) (h : Alike (.runDecompress .fetch) s s') :
    Res.Twin (.runDecompress .fetch) (Alike (.runDecompress .fetch)) (copyToken len dist t s) (copyToken len dist t s') :=
  (copyMatch_twin dist len (h.map (State.latchCopy · len dist t) (fun _ => rfl) h.fsm)).andThen fun _ _ hu => trail_twin t hu

/-! ### The compressor's output -/

/-- The stages of COMPRESS that emit bytes. -/
def Emits (f : Fsm) : Prop := f = .runCompress .hit ∨ f = .runCompress .flush

theorem Alike.op (h : Alike f s s') (hf : Emits f) : s.dp.op = s'.dp.op := by
  refine h.congr (fun u => u.dp.op) fun u => ?_
  rcases hf with rfl | rfl <;> rfl

theorem putDst_alike (b : Byte) (h : Alike f s s') (hf : Emits f) : Alike f (s.putDst b) (s'.putDst b) := by
  refine h.map (State.putDst · b) (fun u => ?_) h.fsm
  rcases hf with rfl | rfl <;> rfl

theorem patch2_alike (t : Nat) (h : Alike f s s') (hf : Emits f) : Alike f (patch2 t s) (patch2 t s') := by
  refine h.map (patch2 t) (fun u => ?_) h.fsm
  rcases hf with rfl | rfl <;> rfl

theorem emit_twin (b : Byte) (h : Alike f s s') (hf : Emits f) : Res.Twin f (Alike f) (emit b s) (emit b s') := by
  unfold emit
  rw [← h.op hf, ← h.dstCap]
  split
  · exact ⟨rfl, h⟩
  · exact putDst_alike b h hf

theorem emitAll_twin (bs : List Byte) (h : Alike f s s') (hf : Emits f) : Res.Twin f (Alike f) (emitAll bs s) (emitAll bs s') := by
  induction bs generalizing s s' with
  | nil => exact h
  | cons b bs ih => exact (emit_twin b h hf).andThen fun _ _ hu => ih hu

theorem compLiterals_twin (start n : Nat) (h : Alike f s s') (hf : Emits f) :
    Res.Twin f (Alike f) (compLiterals start n s) (compLiterals start n s') := by
  induction n generalizing start s s' with
  | zero => exact h
  | succ n ih =>
    rw [compLiterals, compLiterals, ← h.src start]
    exact (emit_twin _ h hf).andThen fun _ _ hu => ih (start + 1) hu

theorem emitLitHeader_twin (t : Nat) (h : Alike f s s') (hf : Emits f) :
    Res.Twin f (Alike f) (emitLitHeader t s) (emitLitHeader t s') := by
  unfold emitLitHeader
  split
  · exact patch2_alike t h hf
  · exact emitAll_twin _ h hf

end

/-! ## The stages on like states -/

section
variable {s s' : State}

theorem flushRun_twin (h : Alike (.runCompress .hit) s s') :
    Res.Twin (.runCompress .hit) (Alike (.runCompress .hit)) s.flushRun s'.flushRun := by
  have hjoin : Alike (.runCompress .hit) s.joinRun s'.joinRun := h.map State.joinRun (fun _ => rfl) h.fsm
  rw [flushRun_eq, flushRun_eq, ← hjoin.congr (fun u => u.dp.t) fun _ => rfl, ← hjoin.congr (fun u => u.dp.ii) fun _ => rfl]
  split
  · exact hjoin
  · exact (emitLitHeader_twin _ hjoin (.inl rfl)).andThen fun _ _ hu => compLiterals_twin _ _ hu (.inl rfl)

theorem equalRun_congr (h : ∀ i, s'.src i = s.src i) (fuel i j : Nat) : s'.equalRun fuel i j = s.equalRun fuel i j := by
  induction fuel generalizing i j with
  | zero => rfl
  | succ fuel ih => rw [State.equalRun, State.equalRun, h, h, ih]

/-- The length of a match depends on live registers and SRC only (R160). -/
theorem live_extendMatch_mLen (u : State) : (u.live (.runCompress .hit)).extendMatch.dp.mLen = u.extendMatch.dp.mLen :=
  congrArg (4 + ·) (equalRun_congr (s := u) (s' := u.live (.runCompress .hit)) (fun _ => rfl) _ _ _)

theorem emitMatch_twin (h : Alike (.runCompress .hit) s s') :
    Res.Twin (.runCompress .hit) (Alike (.runCompress .next)) s.extendMatch.emitMatch s'.extendMatch.emitMatch := by
  have hpass : Alike (.runCompress .hit) s.extendMatch.passMatch s'.extendMatch.passMatch := by
    refine h.map (fun u => u.extendMatch.passMatch) (fun u => ?_) h.fsm
    have hlen := live_extendMatch_mLen u
    simp only [State.live, Datapath.live, State.passMatch, State.extendMatch] at hlen ⊢
    rw [hlen]
    rfl
  have hbytes : matchBytes s.extendMatch.passMatch.dp.mLen s.extendMatch.passMatch.dp.mOff =
      matchBytes s'.extendMatch.passMatch.dp.mLen s'.extendMatch.passMatch.dp.mOff :=
    congrArg₂ matchBytes (h.congr (fun u => u.extendMatch.dp.mLen) live_extendMatch_mLen)
      (h.congr (fun u => u.dp.ip - u.dp.mPos) fun _ => rfl)
  rw [emitMatch_eq, emitMatch_eq, ← hbytes]
  exact (emitAll_twin _ hpass (.inl rfl)).andThen fun u u' hu => hu.map (State.setFsm · (.runCompress .next)) (fun _ => rfl) rfl

theorem hitStep_alike (h : Alike (.runCompress .hit) s s') : ∃ f, Alike f s.hitStep.settle s'.hitStep.settle :=
  Res.Twin.settle ((flushRun_twin h).andThen fun _ _ hu => emitMatch_twin hu) fun _ _ hu => ⟨_, hu⟩

theorem flushHeader_twin (t : Nat) (h : Alike (.runCompress .flush) s s') :
    Res.Twin (.runCompress .flush) (Alike (.runCompress .flush)) (flushHeader t s) (flushHeader t s') := by
  unfold flushHeader
  rw [← h.op (.inr rfl)]
  split
  · exact emitAll_twin _ h (.inr rfl)
  · split
    · exact patch2_alike t h (.inr rfl)
    · exact emitAll_twin _ h (.inr rfl)

theorem flushTail_twin (h : Alike (.runCompress .flush) s s') :
    Res.Twin (.runCompress .flush) (Alike (.runCompress .flush)) s.flushTail s'.flushTail := by
  unfold State.flushTail
  rw [← h.congr (fun u => u.dp.t) fun _ => rfl, ← h.srcLen]
  split
  · exact h
  · exact (flushHeader_twin _ h).andThen fun _ _ hu => compLiterals_twin _ _ hu (.inr rfl)

theorem flushStep_alike (h : Alike (.runCompress .flush) s s') : ∃ f, Alike f s.flushStep.settle s'.flushStep.settle := by
  have heos := (flushTail_twin h).andThen fun _ _ hu => emitAll_twin eosBytes hu (.inr rfl)
  exact Res.Twin.settle (heos.andThen (Q := Alike .idle) fun _ _ hu => hu.terminate .ok) fun _ _ hu => ⟨_, hu⟩

theorem outerStep_alike (h : Alike (.runCompress .outer) s s') : ∃ f, Alike f s.outerStep s'.outerStep := by
  unfold State.outerStep
  rw [← h.congr State.anotherBlock fun _ => rfl]
  split
  · exact ⟨.runCompress .next, h.map State.beginBlock (fun _ => rfl) rfl⟩
  · exact ⟨.runCompress .flush, h.map State.endBlocks (fun _ => rfl) rfl⟩

theorem nextStep_alike (h : Alike (.runCompress .next) s s') : ∃ f, Alike f s.nextStep s'.nextStep := by
  unfold State.nextStep State.judge
  rw [← h.congr (fun u => u.dp.ipEnd) fun _ => rfl, ← h.congr (fun u => u.dp.ip) fun _ => rfl]
  split
  · exact ⟨.runCompress .outer, h.map State.endBlock (fun _ => rfl) rfl⟩
  · rw [← h.congr (fun u => u.probe.le32 u.probe.dp.mPos) fun _ => rfl, ← h.congr (fun u => u.probe.dp.dv) fun _ => rfl]
    split
    · exact ⟨.runCompress .hit, h.map (fun u => u.probe.setFsm (.runCompress .hit)) (fun _ => rfl) rfl⟩
    · exact ⟨.runCompress .next, h.map (fun u => u.probe.setIp (skipTo u.probe.dp.ip u.probe.dp.ii)) (fun _ => rfl) h.fsm⟩

theorem checkCompress_alike (h : Alike (.runCompress .check) s s') : ∃ f, Alike f s.checkCompress s'.checkCompress := by
  unfold State.checkCompress
  rw [← h.congr (State.startError · true) fun _ => rfl]
  split
  · exact ⟨.idle, h.terminate _⟩
  · exact ⟨.runCompress .outer, h.map State.beginCompress (fun _ => rfl) rfl⟩

theorem checkDecompress_alike (h : Alike (.runDecompress .check) s s') : ∃ f, Alike f s.checkDecompress s'.checkDecompress := by
  unfold State.checkDecompress
  rw [← h.congr (State.startError · false) fun _ => rfl]
  split
  · exact ⟨.idle, h.terminate _⟩
  · exact ⟨.runDecompress .fetch, h.map State.beginDecompress (fun _ => rfl) rfl⟩

/-- Where the first outcome is a next state, the second is one like it. -/
def OutcomesAlike (o o' : Host.Outcome State Fault Refusal) : Prop :=
  ∀ t, o = .next t → ∃ t', o' = .next t' ∧ ∃ f, Alike f t t'

theorem outcomesAlike_next {u u' : State} (h : ∃ f, Alike f u u') : OutcomesAlike (.next u) (.next u') := by
  intro t ht
  cases ht
  exact ⟨u', rfl, h⟩

theorem guarded_alike {f : Fsm} (h : Alike f s s') {r r' : Res} (hr : Res.Twin f (Alike f) r r') :
    OutcomesAlike (s.guarded r) (s'.guarded r') := by
  intro t ht
  obtain ⟨hspace, rfl⟩ := guarded_next ht
  exact ⟨_, guarded_inSpace (h.inSpace ▸ hspace) r', hr.settle fun _ _ hu => ⟨f, hu⟩⟩

theorem exec_token_alike {i : Instr} (hi : i.isCommand = false) (h : Alike (.runDecompress .fetch) s s') :
    OutcomesAlike (exec i s) (exec i s') := by
  rcases exec_token_cases hi with ⟨n, st, he⟩ | ⟨len, dist, t, he⟩ | ⟨len, he⟩ <;> rw [he, he]
  · exact guarded_alike h (litToken_twin n st h)
  · exact guarded_alike h (copyToken_twin len dist t h)
  · rw [← h.congr State.eosCode fun _ => rfl]
    have hlen := h.map (f' := .runDecompress .fetch) (fun u => { u with dp := { u.dp with len := len } }) (fun _ => rfl) h.fsm
    exact outcomesAlike_next ⟨.idle, hlen.terminate _⟩

theorem fetchStep_alike (h : Alike (.runDecompress .fetch) s s') : OutcomesAlike s.fetchStep s'.fetchStep := by
  have hs : s.dp.sreg = s'.dp.sreg := h.congr (fun u => u.dp.sreg) fun _ => rfl
  have hstream : s.stream = s'.stream := h.congr State.stream fun _ => stream_congr rfl rfl rfl
  rcases fetchStep_cases s with ⟨i, k, hd, -, -, hi, hx⟩ | ⟨hd, hx⟩
  · rw [hx, fetchStep_token (s := s') (by rw [← hs, ← hstream]; exact hd)]
    refine exec_token_alike hi (h.map (State.consumed · i k) (fun u => ?_) h.fsm)
    cases i <;> rfl
  · have hx' : s'.fetchStep = .next s'.overrun := by
      rw [hs, hstream] at hd
      simp [State.fetchStep, hd]
    rw [hx, hx']
    have hip := h.map (f' := .runDecompress .fetch) (fun u => u.setIp u.srcLen) (fun _ => rfl) h.fsm
    exact outcomesAlike_next ⟨.idle, hip.terminate .inputOverrun⟩

theorem running_alike {f : Fsm} (h : Alike f s s') {k k' : Host.Outcome State Fault Refusal} (hk : OutcomesAlike k k') :
    OutcomesAlike (s.running k) (s'.running k') := by
  intro t ht
  obtain ⟨hspace, ⟨hraced, rfl⟩ | ⟨hraced, hn⟩⟩ := running_next ht
  · refine ⟨s'.raceEnd, ?_, .idle, h.raceEnd⟩
    simp [State.running, ← h.inSpace, ← h.raced, hspace, hraced]
  · rw [running_undisturbed (h.inSpace ▸ hspace) (h.raced ▸ hraced)]
    exact hk t hn

/-- Every engine step leads like states to like states (R273). -/
theorem engineStep_alike {f : Fsm} (h : Alike f s s') : OutcomesAlike s.engineStep s'.engineStep := by
  have hf := h.fsm
  have hf' : s'.fsm = f := h.fsm_eq ▸ hf
  rcases f with _ | _ | ph | ph
  case idle =>
    rw [engineStep_idle hf, engineStep_idle hf']
    exact outcomesAlike_next ⟨_, h⟩
  case runInit =>
    rw [engineStep_init hf, engineStep_init hf', State.initStep, State.initStep, ← h.csr]
    exact outcomesAlike_next ⟨_, h.terminate _⟩
  case runCompress =>
    cases ph with
    | check =>
      rw [engineStep_checkCompress hf, engineStep_checkCompress hf']
      exact outcomesAlike_next (checkCompress_alike h)
    | outer =>
      rw [engineStep_outer hf, engineStep_outer hf']
      exact running_alike h (outcomesAlike_next (outerStep_alike h))
    | next =>
      rw [engineStep_next hf, engineStep_next hf']
      exact running_alike h (outcomesAlike_next (nextStep_alike h))
    | hit =>
      rw [engineStep_hit hf, engineStep_hit hf']
      exact running_alike h (outcomesAlike_next (hitStep_alike h))
    | flush =>
      rw [engineStep_flush hf, engineStep_flush hf']
      exact running_alike h (outcomesAlike_next (flushStep_alike h))
  case runDecompress =>
    cases ph with
    | check =>
      rw [engineStep_checkDecompress hf, engineStep_checkDecompress hf']
      exact outcomesAlike_next (checkDecompress_alike h)
    | fetch =>
      rw [engineStep_fetch hf, engineStep_fetch hf']
      exact running_alike h (fetchStep_alike h)

end

/-! ## Runs -/

theorem reaches_zero {s t : State} : Reaches 0 s t ↔ s = t :=
  ⟨fun h => Host.Outcome.next.inj h, fun h => congrArg Host.Outcome.next h⟩

/-- A run of `k + 1` steps is a step and a run of `k`. -/
theorem reaches_succ {k : Nat} {s t : State} : Reaches (k + 1) s t ↔ ∃ u, step s = .next u ∧ Reaches k u t := by
  unfold Reaches
  cases hs : step s with
  | next u =>
    have hstep : Sys2Proof.core.step s = .next u := hs
    simp only [Host.Core.run, hstep]
    exact ⟨fun h => ⟨u, rfl, h⟩, fun ⟨v, hv, h⟩ => by cases hv; exact h⟩
  | fault r =>
    have hstep : Sys2Proof.core.step s = .fault r := hs
    simp only [Host.Core.run, hstep]
    exact ⟨fun h => (nomatch h), fun ⟨v, hv, _⟩ => (nomatch hv)⟩
  | refused r =>
    have hstep : Sys2Proof.core.step s = .refused r := hs
    simp only [Host.Core.run, hstep]
    exact ⟨fun h => (nomatch h), fun ⟨v, hv, _⟩ => (nomatch hv)⟩

/-- With no host turn to come, runs from like states stay alike. -/
theorem reaches_alike {k : Nat} {s s' t : State} {f : Fsm} (h : Alike f s s') (hh : s.host = []) (hr : Reaches k s t) :
    ∃ t', Reaches k s' t' ∧ ∃ f', Alike f' t t' := by
  induction k generalizing s s' f with
  | zero => exact ⟨s', reaches_zero.mpr rfl, f, reaches_zero.mp hr ▸ h⟩
  | succ k ih =>
    obtain ⟨u, hu, hr⟩ := reaches_succ.mp hr
    rw [step_engine hh] at hu
    obtain ⟨u', hu', f', halike⟩ := engineStep_alike h u hu
    have huh : u.host = [] := (engineStep_engineFrame hu).host.trans hh
    obtain ⟨t', ht', ht⟩ := ih halike huh hr
    exact ⟨t', reaches_succ.mpr ⟨u', by rw [step_engine (h.host ▸ hh), hu'], ht'⟩, ht⟩

/-- Settles O31: at the start checks no register and no slot is live, so the two states are alike, and so are their runs. -/
theorem staleDatapathUnobservable : Obligations.StaleDatapathUnobservable := by
  intro s dp tbl hf hh k t hr
  have h : ∃ f, Alike f s { s with dp := dp, tbl := tbl } := by
    rcases hf with hf | hf <;> exact ⟨_, hf, rfl⟩
  obtain ⟨f, h⟩ := h
  obtain ⟨t', ht', f', ht⟩ := reaches_alike h hh hr
  exact ⟨t', ht', ht.csr.symm, ht.mem.symm, ht.fsm_eq.symm⟩

end Sys2Proof.Machine
end

section
/-! PROOFS. What a command asks for and where it starts: the CTRL words of the four commands, the regions, the start checks, and the CSR accesses
that are refused (20_memory.md R69 to R75, 30_encoding.md R110, 43_commands.md R212, R213). -/

namespace Sys2Proof

/-! ## CTRL words -/

/-- Only bits 4:0 of a CTRL write count (R110). -/
theorem decodeCtrl_congr {w w' : Word} (h : ∀ k, k < 5 → w.getLsbD k = w'.getLsbD k) : decodeCtrl w = decodeCtrl w' := by
  simp only [decodeCtrl, h 0 (by decide), h 1 (by decide), h 2 (by decide), h 3 (by decide), h 4 (by decide)]

theorem decodeCtrl_ignores_high (w v : Word) : decodeCtrl (w ||| (v <<< 5)) = decodeCtrl w :=
  decodeCtrl_congr fun k hk => by simp [hk]

/-- The word of a command decodes to it: START in bit 0, CMD in bits 2:1, IE in bit 3 and STRICT in bit 4 (R110). -/
theorem decodeCtrl_encodeCtrl {i : Instr} {w : Word} (h : encodeCtrl i = some w) : decodeCtrl w = .ok i := by
  cases i with
  | init ie strict | compress ie strict | decompress ie strict | reservedCmd3 ie strict =>
    cases h
    cases ie <;> cases strict <;> decide
  | litf | litShort | litLong | m1s | m1l | m2 | m3 | m4 | eos => cases h

/-- A command is laid out as the four bytes of its CTRL word (R69, R110). -/
theorem encode_command {i : Instr} (hi : i.isCommand = true) : ∃ w, encodeCtrl i = some w ∧ encode i = wordBytes w := by
  cases i with
  | init | compress | decompress | reservedCmd3 => exact ⟨_, rfl, rfl⟩
  | litf | litShort | litLong | m1s | m1l | m2 | m3 | m4 | eos => cases hi

/-- Settles O3: the word of each command decodes to it, and bits 31:5 are ignored. -/
theorem commandDecodeOfEncode : Obligations.CommandDecodeOfEncode := by
  intro i hi
  obtain ⟨w, hw, hbytes⟩ := encode_command hi
  exact ⟨w, hw, hbytes, fun v => (decodeCtrl_ignores_high w v).trans (decodeCtrl_encodeCtrl hw)⟩

end Sys2Proof

namespace Sys2Proof.Machine

/-! ## The regions -/

theorem inSrc_iff {s : State} {a : Nat} :
    s.inSrc a = true ↔ s.csr.srcBase.toNat ≤ a ∧ a < s.csr.srcBase.toNat + s.srcLen := by
  rw [State.inSrc, Bool.and_eq_true, decide_eq_true_iff, decide_eq_true_iff]
  rfl

theorem inDst_iff {s : State} {a : Nat} :
    s.inDst a = true ↔ s.csr.dstBase.toNat ≤ a ∧ a < s.csr.dstBase.toNat + s.dstCap := by
  rw [State.inDst, Bool.and_eq_true, decide_eq_true_iff, decide_eq_true_iff]
  rfl

theorem inSpace_eq_false_iff {s : State} : s.inSpace = false ↔
    2 ^ 32 < s.csr.srcBase.toNat + s.srcLen ∨ 2 ^ 32 < s.csr.dstBase.toNat + s.dstCap := by
  simp only [State.inSpace, State.srcLen, State.dstCap, Bool.and_eq_false_iff, decide_eq_false_iff_not, Nat.not_le]
  rfl

theorem overlap_iff {s : State} : s.overlap = true ↔
    0 < s.srcLen ∧ 0 < s.dstCap ∧ s.csr.srcBase.toNat < s.csr.dstBase.toNat + s.dstCap ∧
      s.csr.dstBase.toNat < s.csr.srcBase.toNat + s.srcLen := by
  simp [State.overlap, State.srcAddr, State.dstAddr, and_assoc]

/-- Settles O40: two non-empty intervals that overlap share the higher of their two first addresses. -/
theorem overlapMeansSharedByte : Obligations.OverlapMeansSharedByte := by
  intro s
  simp only [overlap_iff, inSrc_iff, inDst_iff]
  constructor
  · intro h
    exact ⟨max s.csr.srcBase.toNat s.csr.dstBase.toNat, by omega, by omega⟩
  · rintro ⟨a, hsrc, hdst⟩
    omega

/-! ## The start checks -/

/-- A command that fails its start checks ends with both counts 0 (R217). -/
theorem terminate_check {s : State} (h : s.fsm = .runCompress .check ∨ s.fsm = .runDecompress .check) (e : ErrorCode) :
    s.terminate e = s.endedWith e.code 0 0 := by
  rcases h with h | h <;> simp [State.terminate, State.endedWith, Csr.ended, State.results, h]

/-- INIT ends in its one step with the comparison of HANDSHAKE (R213). -/
theorem initStep_eq {s : State} (h : s.fsm = .runInit) : s.initStep = { s with
    csr := { s.csr.ended (if s.csr.handshake = 7 then 0 else 1) 0 0 with initOk := decide (s.csr.handshake = 7) }
    fsm := .idle, raced := false, flight := some s.endFlight } := by
  unfold State.initStep
  by_cases hc : s.csr.handshake = 7
  · rw [if_pos (show s.csr.handshake = Config.coreVersion from hc)]
    simp [State.terminate, Csr.ended, State.results, ErrorCode.code, h, hc]
  · rw [if_neg (show s.csr.handshake ≠ Config.coreVersion from hc)]
    simp only [State.terminate, Csr.ended, State.results, ErrorCode.code, h, hc, if_true, if_false]
    rfl

/-- The start checks with their tests written out (R74, R75, R212). -/
theorem startError_eq (s : State) (compressing : Bool) : s.startError compressing =
    if s.csr.initOk = false then some .initializationError
    else if 2 ^ 32 < s.csr.srcBase.toNat + s.srcLen ∨ 2 ^ 32 < s.csr.dstBase.toNat + s.dstCap then some .invalidArgument
    else if 0 < s.srcLen ∧ 0 < s.dstCap ∧ s.csr.srcBase.toNat < s.csr.dstBase.toNat + s.dstCap ∧
        s.csr.dstBase.toNat < s.csr.srcBase.toNat + s.srcLen then some .invalidArgument
    else if compressing = true ∧ 2 ^ 30 < s.srcLen then some .inputTooLarge
    else none := by
  simp only [State.startError, inSpace_eq_false_iff, overlap_iff]
  rfl

/-- Settles O39: the check step follows `startError`, and a failed check ends the command with nothing counted. -/
theorem startChecks : Obligations.StartChecks := by
  intro s hh
  rw [step_engine hh]
  refine ⟨fun hf => ?_, fun hf => ?_, fun hf => ?_⟩
  · rw [engineStep_init hf, initStep_eq hf]
  · rw [engineStep_checkCompress hf, State.checkCompress, startError_eq]
    simp only [terminate_check (.inl hf), true_and]
    split_ifs <;> rfl
  · rw [engineStep_checkDecompress hf, State.checkDecompress, startError_eq]
    simp only [terminate_check (.inr hf), Bool.false_eq_true, false_and, if_false]
    split_ifs <;> rfl

/-! ## Refused accesses -/

/-- R71: an offset that is no multiple of 4 is no register of the window. -/
theorem csrRead_odd {off : Nat} (h : off % 4 ≠ 0) (s : State) : s.csrRead off = none := by
  unfold State.csrRead
  split
  case h_17 => rfl
  all_goals exact absurd rfl h

theorem csrWrite_odd {off : Nat} (h : off % 4 ≠ 0) (s : State) (v : Word) : s.csrWrite off v = .refused (.csrAccess off) := by
  unfold State.csrWrite
  split
  case h_17 => rfl
  all_goals exact absurd rfl h

theorem step_csrNarrow {s : State} {off bytes : Nat} {rest : List HostOp} (h : s.host = .csrNarrow off bytes :: rest) :
    step s = .refused (.csrAccess off) := by simp [step, State.turn, h]

/-- Settles O47: the window has no register at such an offset, and no access of another width. -/
theorem oddCsrAccessRefused : Obligations.OddCsrAccessRefused := by
  intro s off bytes v rest
  refine ⟨fun hodd hh => ?_, fun _ hh => step_csrNarrow hh⟩
  rcases hh with hh | hh
  · rw [step_csrw hh, csrWrite_odd hodd]
  · rw [step_csrr hh, State.csrFetch, csrRead_odd hodd]

end Sys2Proof.Machine
end

section
/-! PROOFS. A state with the invariant never faults, and how a raced command ends (20_memory.md R61, R71, R74, R85). -/

namespace Sys2Proof.Machine

/-! ## The stages past the start checks -/

theorem pastChecks_eq_true_iff {s : State} :
    s.pastChecks = true ↔ (∃ ph, s.fsm = .runCompress ph ∧ ph ≠ .check) ∨ s.fsm = .runDecompress .fetch := by
  rcases hf : s.fsm with _ | _ | ph | ph
  · simp [State.pastChecks, hf]
  · simp [State.pastChecks, hf]
  · cases ph <;> simp [State.pastChecks, hf]
  · cases ph <;> simp [State.pastChecks, hf]

/-- Past its checks a command has its regions in the address space (R74). -/
theorem inSpace_of_pastChecks {s : State} (hs : s.Inv) (h : s.pastChecks = true) : s.inSpace = true := by
  have hstage := stageOk_of_inv hs
  rcases pastChecks_eq_true_iff.mp h with ⟨ph, hf, hph⟩ | hf
  · cases ph with
    | check => exact absurd rfl hph
    | outer => exact ((stageOk_outer hf).mp hstage).1.inSpace
    | next => exact ((stageOk_next hf).mp hstage).1.inSpace
    | hit => exact ((stageOk_hit hf).mp hstage).1.inSpace
    | flush => exact ((stageOk_flush hf).mp hstage).1.inSpace
  · exact ((stageOk_fetch hf).mp hstage).1.inSpace

/-- A fetch in the address space neither faults nor is refused: the stream holds tokens only (R91, R182). -/
theorem fetchStep_next_of_inSpace {s : State} (h : s.inSpace = true) : ∃ t, s.fetchStep = .next t := by
  rcases fetchStep_cases s with ⟨i, k, -, -, -, hi, hx⟩ | ⟨-, hx⟩ <;> rw [hx]
  · have hc : (s.consumed i k).inSpace = true := h
    rcases exec_token_cases hi with ⟨n, st, he⟩ | ⟨len, dist, t, he⟩ | ⟨len, he⟩ <;> rw [he]
    · exact ⟨_, guarded_inSpace hc _⟩
    · exact ⟨_, guarded_inSpace hc _⟩
    · exact ⟨_, rfl⟩
  · exact ⟨_, rfl⟩

/-- Past the checks an engine step is a stage behind the test of the regions and of a race (R212, R220). -/
theorem engineStep_pastChecks {s : State} (h : s.pastChecks = true) :
    ∃ k, s.engineStep = s.running k ∧ (s.inSpace = true → ∃ t, k = .next t) := by
  rcases pastChecks_eq_true_iff.mp h with ⟨ph, hf, hph⟩ | hf
  · cases ph with
    | check => exact absurd rfl hph
    | outer => exact ⟨_, engineStep_outer hf, fun _ => ⟨_, rfl⟩⟩
    | next => exact ⟨_, engineStep_next hf, fun _ => ⟨_, rfl⟩⟩
    | hit => exact ⟨_, engineStep_hit hf, fun _ => ⟨_, rfl⟩⟩
    | flush => exact ⟨_, engineStep_flush hf, fun _ => ⟨_, rfl⟩⟩
  · exact ⟨_, engineStep_fetch hf, fetchStep_next_of_inSpace⟩

/-- Before its checks are over a command accesses no memory (R212). -/
theorem engineStep_beforeChecks {s : State} (h : s.pastChecks = false) : ∃ t, s.engineStep = .next t ∧ t.mem = s.mem := by
  rcases hf : s.fsm with _ | _ | ph | ph
  case idle => exact ⟨_, engineStep_idle hf, rfl⟩
  case runInit => exact ⟨_, engineStep_init hf, rfl⟩
  case runCompress =>
    cases ph with
    | check =>
      refine ⟨_, engineStep_checkCompress hf, ?_⟩
      unfold State.checkCompress
      split <;> rfl
    | outer | next | hit | flush => simp [State.pastChecks, hf] at h
  case runDecompress =>
    cases ph with
    | check =>
      refine ⟨_, engineStep_checkDecompress hf, ?_⟩
      unfold State.checkDecompress
      split <;> rfl
    | fetch => simp [State.pastChecks, hf] at h

/-- No engine step faults in a state with the invariant (R61, R74). -/
theorem engineStep_total {s : State} (hs : s.Inv) : ∃ t, s.engineStep = .next t := by
  cases hp : s.pastChecks with
  | false =>
    obtain ⟨t, ht, -⟩ := engineStep_beforeChecks hp
    exact ⟨t, ht⟩
  | true =>
    have hspace := inSpace_of_pastChecks hs hp
    obtain ⟨k, hk, hnext⟩ := engineStep_pastChecks hp
    rcases running_cases s k with ⟨hout, -⟩ | ⟨-, -, hr⟩ | ⟨-, -, hr⟩
    · rw [hspace] at hout
      cases hout
    · exact ⟨_, hk.trans hr⟩
    · rw [hk, hr]
      exact hnext hspace

/-! ## Answers to the host -/

theorem ctrlWrite_total (s : State) (v : Word) : ∃ t, s.ctrlWrite v = .next t := by
  rcases ctrlWrite_cases s v with ⟨-, hw⟩ | ⟨-, i, hi, hw⟩ <;> rw [hw]
  · exact ⟨_, rfl⟩
  · obtain ⟨-, rfl | rfl | rfl | rfl⟩ := decodeCtrl_ok_cases hi <;> exact ⟨_, rfl⟩

/-- A 32-bit CSR write is done, or refused for its offset (R71). -/
theorem csrWrite_answers (s : State) (off : Nat) (v : Word) :
    (∃ t, s.csrWrite off v = .next t) ∨ s.csrWrite off v = .refused (.csrAccess off) := by
  unfold State.csrWrite
  split
  case h_3 => exact .inl (ctrlWrite_total s v)
  case h_17 => exact .inr rfl
  all_goals exact .inl ⟨_, rfl⟩

/-- A 32-bit CSR read is answered, or refused for its offset (R71). -/
theorem csrFetch_answers (s : State) (off : Nat) :
    (∃ t, s.csrFetch off = .next t) ∨ s.csrFetch off = .refused (.csrAccess off) := by
  unfold State.csrFetch
  split
  · exact .inl ⟨_, rfl⟩
  · exact .inr rfl

/-- With the invariant every step goes on, or refuses a CSR access (R61, R71, R74). -/
theorem step_answers {s : State} (hs : s.Inv) : (∃ t, step s = .next t) ∨ ∃ off, step s = .refused (.csrAccess off) := by
  have engine (host : List HostOp) : ∃ t, ({ s with host := host } : State).engineStep = .next t :=
    engineStep_total (s := { s with host := host }) hs
  rcases step_cases s with ⟨-, h⟩ | ⟨rest, -, ⟨-, h⟩ | ⟨-, h⟩⟩ | ⟨rest, -, ⟨-, h⟩ | ⟨-, h⟩⟩ | ⟨rest, -, h⟩ | ⟨off, v, rest, -, h⟩ |
    ⟨off, rest, -, h⟩ | ⟨off, bytes, rest, -, h⟩ | ⟨a, v, rest, -, h⟩ | ⟨a, rest, -, h⟩ |
    ⟨rest, -, h⟩ <;> rw [h]
  · exact .inl (engine s.host)
  · exact .inl ⟨_, rfl⟩
  · exact .inl (engine s.host)
  · exact .inl ⟨_, rfl⟩
  · exact .inl (engine s.host)
  · exact .inl (engine rest)
  · exact (csrWrite_answers _ off v).imp_right fun hr => ⟨off, hr⟩
  · exact (csrFetch_answers _ off).imp_right fun hr => ⟨off, hr⟩
  · exact .inr ⟨off, rfl⟩
  · exact .inl ⟨_, rfl⟩
  · exact .inl ⟨_, rfl⟩
  · exact .inl ⟨_, rfl⟩

/-- Settles O51, by `step_answers`. -/
theorem stepNeverFaults : Obligations.StepNeverFaults := by
  intro s hs
  rcases step_answers hs with ⟨t, h⟩ | ⟨off, h⟩ <;> rw [h]
  · exact ⟨fun _ hr => (nomatch hr), fun _ hr => (nomatch hr)⟩
  · exact ⟨fun _ hr => (nomatch hr), fun r hr => ⟨off, by cases hr; rfl⟩⟩

/-! ## A raced command -/

/-- Settles O58: the step is `raceEnd`, whose results `drawResults_csr` bounds and whose memory `raceEnd_kept` frames. -/
theorem racedCommandEnds : Obligations.RacedCommandEnds := by
  intro s hs hraced hh hcompress hdecompress hinit
  have hpast : s.pastChecks = true := by
    rw [pastChecks_eq_true_iff]
    rcases hf : s.fsm with _ | _ | ph | ph
    · rw [raced_of_idle hs hf] at hraced
      cases hraced
    · exact absurd hf hinit
    · exact .inl ⟨ph, rfl, hcompress ph hf⟩
    · cases ph with
      | check => exact absurd hf hdecompress
      | fetch => exact .inr rfl
  have hspace := inSpace_of_pastChecks hs hpast
  obtain ⟨k, hk, -⟩ := engineStep_pastChecks hpast
  obtain ⟨code, outLen, inUsed, hcsr, hcode, hout, hin⟩ := drawResults_csr s s.endFlight
  have hend : s.raceEnd.csr = { s.csr with errcode := code, outLen := outLen, inUsed := inUsed, done := true } := by
    simp only [State.raceEnd, hcsr]
  refine ⟨s.raceEnd, ?_, rfl, rfl, ?_, ?_, ?_, ?_, (raceEnd_kept hs hspace).2.frame⟩
  · rw [step_engine hh, hk]
    simp [State.running, hspace, hraced]
  · rw [hend]
    exact hcode
  · rw [hend]
    exact hout
  · rw [hend]
    exact hin
  · rw [hend]

end Sys2Proof.Machine
end

section
/-! PROOFS. The host's accesses to memory, and the mark of a command in flight (20_memory.md R78, R79, R85). -/

namespace Sys2Proof.Machine

/-! ## The host's accesses to memory -/

theorem step_memw {s : State} {a : Word} {v : Byte} {rest : List HostOp} (h : s.host = .memw a v :: rest) :
    step s = .next (({ s with host := rest } : State).hostStore a v) := by simp [step, State.turn, h]

theorem step_memr {s : State} {a : Word} {rest : List HostOp} (h : s.host = .memr a :: rest) :
    step s = .next (({ s with host := rest } : State).hostLoad a) := by simp [step, State.turn, h]

/-- A host write changes no register of the engine, and marks a race exactly where a running command's regions hold the byte (R85). -/
theorem hostStore_block (s : State) (a : Word) (v : Byte) :
    ((s.hostStore a v).raced = true ↔
      s.raced = true ∨ (s.fsm ≠ .idle ∧ (s.inSrc a.toNat = true ∨ s.inDst a.toNat = true))) ∧
    (s.hostStore a v).fsm = s.fsm ∧ (s.hostStore a v).dp = s.dp ∧ (s.hostStore a v).tbl = s.tbl ∧
    (s.hostStore a v).flight = s.flight := by
  have hraced : (s.storeByte a v).raced = true ↔
      s.raced = true ∨ (s.fsm ≠ .idle ∧ (s.inSrc a.toNat = true ∨ s.inDst a.toNat = true)) := by
    rw [State.storeByte_raced, Bool.or_eq_true, Bool.and_eq_true, Bool.or_eq_true, busy_eq_true_iff]
  rcases hostStore_cases s a v with ⟨-, h⟩ | ⟨f, -, -, -, h⟩ <;> rw [h] <;> exact ⟨hraced, rfl, rfl, rfl, rfl⟩

/-- A drawn result leaves every byte outside the command's DST alone (R85). -/
theorem drawResults_frame {s : State} (hwf : Store.wf s.mem = true) {f : Flight} {b : Nat} (hb : f.inDst b = false) :
    Store.read (s.drawResults f).mem b = Store.read s.mem b := by
  rw [State.drawResults_mem, Memory.read_fill hwf, if_neg]
  rintro ⟨hlo, hhi⟩
  simp [Flight.inDst, hlo, hhi] at hb

/-- A read of a byte that no command in flight owns is not free (R78, R85). -/
theorem dstInFlight_eq_false {s : State} {a : Nat} (hrun : s.fsm = .idle ∨ s.inDst a = false)
    (hended : ∀ f, s.flight = some f → f.inDst a = false) : s.dstInFlight a = false := by
  have hbusy : (s.busy && s.inDst a) = false := by
    rcases hrun with hf | hdst
    · simp [busy_eq_false_iff.mpr hf]
    · simp [hdst]
  have hflight : (s.flight.any fun f => f.inDst a) = false := by
    cases hfl : s.flight with
    | none => rfl
    | some f => exact hended f hfl
  rw [State.dstInFlight, hbusy, hflight]
  rfl

/-- The host's write races with an ended command exactly where `endedRace` says so (R78). -/
theorem racesEnded_iff {s : State} {a : Word} {v : Byte} {rest : List HostOp} (hh : s.host = .memw a v :: rest) :
    s.RacesEnded ↔ s.endedRace a.toNat = true := by
  simp only [State.endedRace, Option.any_eq_true, Bool.and_eq_true, Bool.or_eq_true]
  constructor
  · rintro ⟨a', v', rest', f, hh', hf, hran, hin⟩
    obtain ⟨⟨rfl, -⟩, -⟩ : (a = a' ∧ v = v') ∧ rest = rest' := by simpa [hh] using hh'
    exact ⟨f, hf, hran, hin⟩
  · rintro ⟨f, hf, hran, hin⟩
    exact ⟨a, v, rest, f, hh, hf, hran, hin⟩

/-- A host write that races with no ended command changes its byte and no CSR (R78). -/
theorem hostStore_of_no_race {s : State} (hwf : Store.wf s.mem = true) {a : Word} (h : s.endedRace a.toNat = false) (v : Byte) :
    (s.hostStore a v).csr = s.csr ∧
      ∀ b, Store.read (s.hostStore a v).mem b = if b = a.toNat then v else Store.read s.mem b := by
  have hs : s.hostStore a v = s.storeByte a v := by
    unfold State.hostStore
    rw [h]
    split <;> rfl
  rw [hs]
  exact ⟨rfl, fun b => Store.read_write hwf _ b _⟩

/-- A host write that races with an ended command draws its results, and memory outside its DST holds the byte written (R78, R85). -/
theorem hostStore_of_race {s : State} (hwf : Store.wf s.mem = true) {a : Word} (h : s.endedRace a.toNat = true) (v : Byte)
    {f : Flight} (hf : s.flight = some f) :
    (∃ (code : Byte) (outLen inUsed : Word),
      (s.hostStore a v).csr = { s.csr with errcode := code, outLen := outLen, inUsed := inUsed } ∧
        code.toNat ≤ 9 ∧ outLen.toNat ≤ f.dstCap.toNat ∧ inUsed.toNat ≤ f.srcLen.toNat) ∧
    ∀ b, f.inDst b = false → Store.read (s.hostStore a v).mem b = if b = a.toNat then v else Store.read s.mem b := by
  have hs : s.hostStore a v = (s.storeByte a v).drawResults f := by simp [State.hostStore, hf, h]
  rw [hs]
  refine ⟨drawResults_csr (s.storeByte a v) f, fun b hb => ?_⟩
  rw [drawResults_frame (Store.wf_write hwf _ _) hb]
  exact Store.read_write hwf _ b _

/-- A host read changes nothing but what the host holds, and returns the byte where no command in flight owns it (R78, R85). -/
theorem hostLoad_eq (s : State) (a : Word) : ∃ w draws, s.hostLoad a = { s with rdata := w, draws := draws } ∧
    (s.dstInFlight a.toNat = false → w = (Store.read s.mem a.toNat).setWidth 32) := by
  rcases hostLoad_cases s a with ⟨hfree, w, h⟩ | ⟨-, h⟩
  · exact ⟨w, _, h, fun hno => by simp [hfree] at hno⟩
  · exact ⟨_, _, h, fun _ => rfl⟩

/-- Settles O59: the write by whether it races with an ended command, the read by `hostLoad_eq`. -/
theorem hostMemoryAccess : Obligations.HostMemoryAccess := by
  intro s a v rest hs
  have hwf := mem_wf_of_inv hs
  refine ⟨fun hh => ?_, fun hh => ?_⟩
  · obtain ⟨hraced, hfsm, hdp, htbl, hflight⟩ := hostStore_block { s with host := rest } a v
    refine ⟨_, step_memw hh, hraced, hfsm, hdp, htbl, hflight, fun hno => ?_, fun hrace f hf => ?_⟩
    · rw [racesEnded_iff hh, Bool.not_eq_true] at hno
      exact hostStore_of_no_race (s := { s with host := rest }) hwf hno v
    · obtain ⟨⟨code, outLen, inUsed, hcsr, hcode, hout, hused⟩, hframe⟩ :=
        hostStore_of_race (s := { s with host := rest }) hwf ((racesEnded_iff hh).mp hrace) v hf
      rw [hcsr]
      exact ⟨rfl, hcode, hout, hused, hframe⟩
  · obtain ⟨w, draws, hload, hread⟩ := hostLoad_eq { s with host := rest } a
    refine ⟨_, (step_memr hh).trans (congrArg Host.Outcome.next hload), rfl, rfl, rfl, rfl, rfl, rfl, rfl, fun hrun hended => ?_⟩
    exact hread (dstInFlight_eq_false (s := { s with host := rest }) hrun hended)

/-! ## The mark of a command in flight -/

theorem Worked.flight {s u : State} (h : Worked s u) : u.flight = s.flight := by rw [h]

/-- A primitive's state keeps the mark, or the command ends with it (R238). -/
theorem settle_flight {s : State} {r : Res} (h : r.All (Worked s)) : r.settle.flight = s.flight ∨ r.settle.fsm = .idle := by
  cases r with
  | ok u => exact .inl (Worked.flight h)
  | raise e u => exact .inr rfl

theorem fetchStep_flight {s t : State} (h : s.fetchStep = .next t) : t.flight = s.flight ∨ t.fsm = .idle := by
  rcases fetchStep_cases s with ⟨i, k, -, -, -, hi, hx⟩ | ⟨-, hx⟩ <;> rw [hx] at h
  · have hc : Worked s (s.consumed i k) := rfl
    rcases exec_token_cases hi with ⟨n, st, he⟩ | ⟨len, dist, tr, he⟩ | ⟨len, he⟩ <;> rw [he] at h
    · rw [(guarded_next h).2]
      exact settle_flight ((litToken_worked n st _).mono fun _ => hc.trans)
    · rw [(guarded_next h).2]
      exact settle_flight ((copyToken_worked len dist tr _).mono fun _ => hc.trans)
    · cases h
      exact .inr rfl
  · cases h
    exact .inr rfl

theorem outerStep_flight (s : State) : s.outerStep.flight = s.flight := by
  unfold State.outerStep
  split <;> rfl

theorem nextStep_flight (s : State) : s.nextStep.flight = s.flight := by
  unfold State.nextStep State.judge
  split
  · rfl
  · split <;> rfl

/-- Past the checks an engine step keeps the mark or ends the command. -/
theorem running_flight {s t : State} {k : Host.Outcome State Fault Refusal} (h : s.running k = .next t)
    (hk : ∀ t, k = .next t → t.flight = s.flight ∨ t.fsm = .idle) : t.flight = s.flight ∨ t.fsm = .idle := by
  rcases (running_next h).2 with ⟨-, rfl⟩ | ⟨-, hn⟩
  · exact .inr rfl
  · exact hk t hn

theorem running_next_flight {s t u : State} (h : s.running (.next u) = .next t) (hu : u.flight = s.flight ∨ u.fsm = .idle) :
    t.flight = s.flight ∨ t.fsm = .idle :=
  running_flight h fun v hv => by
    cases hv
    exact hu

/-- The engine changes the mark only at the end of a command (R78, R238). -/
theorem engineStep_flight {s t : State} (h : s.engineStep = .next t) : t.flight = s.flight ∨ (s.fsm ≠ .idle ∧ t.fsm = .idle) := by
  by_cases hidle : s.fsm = .idle
  · rw [engineStep_idle hidle] at h
    cases h
    exact .inl rfl
  · refine Or.imp_right (⟨hidle, ·⟩) ?_
    rcases hf : s.fsm with _ | _ | ph | ph
    case idle => exact absurd hf hidle
    case runInit =>
      rw [engineStep_init hf] at h
      cases h
      exact .inr rfl
    case runCompress =>
      cases ph with
      | check =>
        rw [engineStep_checkCompress hf, State.checkCompress] at h
        split at h <;> cases h
        · exact .inr rfl
        · exact .inl rfl
      | outer =>
        rw [engineStep_outer hf] at h
        exact running_next_flight h (.inl (outerStep_flight s))
      | next =>
        rw [engineStep_next hf] at h
        exact running_next_flight h (.inl (nextStep_flight s))
      | hit =>
        rw [engineStep_hit hf] at h
        exact running_next_flight h (settle_flight (hitStep_worked s))
      | flush =>
        rw [engineStep_flush hf] at h
        obtain ⟨e, u, -, hend⟩ := flushStep_settle_all ((flushTail_worked s).then_worked (emitAll_worked eosBytes))
        exact running_next_flight h (.inr (hend ▸ rfl))
    case runDecompress =>
      cases ph with
      | check =>
        rw [engineStep_checkDecompress hf, State.checkDecompress] at h
        split at h <;> cases h
        · exact .inr rfl
        · exact .inl rfl
      | fetch =>
        rw [engineStep_fetch hf] at h
        exact running_flight h fun _ => fetchStep_flight

/-- A CSR write changes the mark only where it is an accepted START (R78, R211). -/
theorem csrWrite_flight {s t : State} {off : Nat} {v : Word} (h : s.csrWrite off v = .next t) :
    t.flight = s.flight ∨ (off = 0x08 ∧ v.getLsbD 0 = true ∧ s.fsm = .idle) := by
  by_cases hf : s.fsm = .idle
  · rcases csrWrite_cases h with ⟨hoff, hw⟩ | ⟨-, rfl⟩ | ⟨-, -, c, rfl⟩
    · rcases ctrlWrite_idle_cases hf v with ⟨-, hc⟩ | ⟨hv, -⟩ | ⟨hv, -⟩
      · rw [hc] at hw
        cases hw
        exact .inl rfl
      · exact .inr ⟨hoff, hv, hf⟩
      · exact .inr ⟨hoff, hv, hf⟩
    · rw [writeStatus_eq]
      exact .inl rfl
    · exact .inl rfl
  · rcases csrWrite_busy_cases hf h with rfl | rfl | rfl <;> exact .inl rfl

theorem hostLoad_flight (s : State) (a : Word) : (s.hostLoad a).flight = s.flight := by
  obtain ⟨w, draws, h, -⟩ := hostLoad_eq s a
  rw [h]

theorem step_waitDone {s : State} {rest : List HostOp} (h : s.host = .waitDone :: rest) (hd : s.csr.done = true) :
    step s = .next { s with host := rest, flight := none } := by simp [step, State.turn, State.seeDone, h, hd]

theorem step_waitIrq {s : State} {rest : List HostOp} (h : s.host = .waitIrq :: rest) (hd : s.csr.done = true)
    (hie : s.csr.ie = true) : step s = .next { s with host := rest, flight := none } := by
  simp [step, State.turn, State.seeDone, State.irq, h, hd, hie]

/-- A read of STATUS that shows DONE = 1 closes the mark (R78). -/
theorem step_readStatus {s : State} {rest : List HostOp} (h : s.host = .csrr 0x0C :: rest) (hd : s.csr.done = true) :
    step s = .next { s with host := rest, rdata := s.status, flight := none } := by
  have hread : ({ s with host := rest } : State).csrRead 0x0C = some s.status := rfl
  rw [step_csrr h, csrFetch_eq hread, if_pos ⟨rfl, hd⟩]

/-- Settles O60: the mark's regions by `terminate`, its closing by the three observations, and what else changes it turn by turn. -/
theorem commandInFlight : Obligations.CommandInFlight := by
  refine ⟨fun s e => ⟨s.pastChecks, rfl, pastChecks_eq_true_iff⟩, fun s rest hd => ?_, fun s t h hne => ?_⟩
  · exact ⟨fun hh => step_readStatus hh hd, fun hh => step_waitDone hh hd, fun hh hie => step_waitIrq hh hd hie⟩
  · have engine {host : List HostOp} (he : ({ s with host := host } : State).engineStep = .next t) :
        s.fsm ≠ .idle ∧ t.fsm = .idle := (engineStep_flight he).resolve_left hne
    rcases step_cases s with ⟨-, hs⟩ | ⟨rest, hh, ⟨hd, hs⟩ | ⟨-, hs⟩⟩ | ⟨rest, hh, ⟨hirq, hs⟩ | ⟨-, hs⟩⟩ | ⟨rest, -, hs⟩ |
      ⟨off, v, rest, hh, hs⟩ | ⟨off, rest, hh, hs⟩ | ⟨off, bytes, rest, -, hs⟩ | ⟨a, v, rest, -, hs⟩ | ⟨a, rest, -, hs⟩ |
      ⟨rest, hh, hs⟩ <;> rw [hs] at h
    · exact .inl (engine h)
    · cases h
      exact .inr (.inr ⟨rfl, .inr ⟨hd, rest, .inr (.inl hh)⟩⟩)
    · exact .inl (engine h)
    · cases h
      obtain ⟨hd, -⟩ := Bool.and_eq_true_iff.mp hirq
      exact .inr (.inr ⟨rfl, .inr ⟨hd, rest, .inr (.inr hh)⟩⟩)
    · exact .inl (engine h)
    · exact .inl (engine h)
    · obtain ⟨rfl, hv, hf⟩ := (csrWrite_flight h).resolve_left hne
      exact .inr (.inl ⟨v, rest, hh, hv, hf⟩)
    · obtain ⟨w, rfl⟩ := csrFetch_next h
      by_cases hseen : off = 0x0C ∧ s.csr.done = true
      · obtain ⟨rfl, hd⟩ := hseen
        exact .inr (.inr ⟨if_pos ⟨rfl, hd⟩, .inr ⟨hd, rest, .inl hh⟩⟩)
      · exact absurd (if_neg hseen) hne
    · cases h
    · cases h
      obtain ⟨-, -, -, -, hflight⟩ := hostStore_block { s with host := rest } a v
      exact absurd hflight hne
    · cases h
      exact absurd (hostLoad_flight _ a) hne
    · cases h
      exact .inr (.inr ⟨rfl, .inl ⟨rest, hh⟩⟩)

end Sys2Proof.Machine
end

section
/-! PROOFS. What a step writes: a copy that overlaps its source repeats it, the token loop and COMPRESS write DST from the old output cursor to the
new, and COMPRESS patches at most the byte two before it (20_memory.md R62, R63, R77, 40_primitives.md R139, R141). -/

namespace Sys2Proof.Machine

/-! ## Overlapping copies -/

/-- A copy repeats the `dist` bytes before `op` over and over (R77, R141). -/
theorem copyBack_repeats {s : State} {dist len : Nat} (hwf : Store.wf s.mem = true) (h1 : 1 ≤ dist) (hd : dist ≤ s.dp.op) (j : Nat)
    (hj : j < len) :
    Store.read (copyBack dist len s).mem (s.dstAddr (s.dp.op + j)) = s.dst (s.dp.op - dist + j % dist) := by
  obtain ⟨hw, -⟩ := copyBack_wrote dist len s
  induction j using Nat.strong_induction_on with
  | _ j ih =>
    rw [copyBack_reads dist len s hwf h1 hd j hj]
    by_cases hlt : j < dist
    · rw [Nat.mod_eq_of_lt hlt, show s.dp.op + j - dist = s.dp.op - dist + j by omega]
      refine hw.frame hwf _ (.inl ?_)
      simp only [State.dstAddr]
      omega
    · rw [Nat.mod_eq_sub_mod (Nat.le_of_not_lt hlt), show s.dp.op + j - dist = s.dp.op + (j - dist) by omega]
      exact ih (j - dist) (by omega) (by omega)

/-- A copy token with T = 0 that fits DST copies and leaves S at 0 (R192, R193). -/
theorem copyToken_zero_fits {s : State} {len dist : Nat} (hd : dist ≤ s.dp.op) (hfit : s.dp.op + len ≤ s.dstCap) :
    copyToken len dist 0 s = .ok ((copyBack dist len (s.latchCopy len dist 0)).setS (.trail 0)) := by
  have hcopy : copyMatch dist len (s.latchCopy len dist 0) = .ok (copyBack dist len (s.latchCopy len dist 0)) := by
    have hroom : ¬ s.dstCap - s.dp.op < len := by omega
    simp [copyMatch, Nat.not_lt.mpr hd, hroom]
  rw [copyToken, hcopy]
  rfl

/-- Settles O12, by `copyBack_repeats`. -/
theorem overlappingCopyRepeats : Obligations.OverlappingCopyRepeats := by
  rintro s len dist ⟨hs, hf, -⟩ h1 hd hfit
  obtain ⟨hstarted, -⟩ := decoding_started hs hf
  have hexec : exec (.m3 len dist 0) s = s.guarded (copyToken len dist 0 s) := rfl
  refine ⟨_, by rw [hexec, guarded_inSpace hstarted.inSpace, copyToken_zero_fits hd hfit, Res.settle_ok], fun j hj => ?_⟩
  obtain ⟨hw, -⟩ := copyBack_wrote dist len (s.latchCopy len dist 0)
  have hcopied := copyBack_repeats (s := s.latchCopy len dist 0) (mem_wf_of_inv hs) h1 hd j hj
  rw [State.dst, State.setS_mem, State.setS_dstAddr, hw.dstAddr]
  exact hcopied

/-! ## Bytes written from the output cursor on -/

/-- From `s` to `u` the output cursor has not gone back, and of DST only the bytes from the old cursor to the new have changed (R63). -/
structure Appended (s u : State) : Prop where
  base : u.csr.dstBase = s.csr.dstBase
  wf : Store.wf u.mem = true
  op_le : s.dp.op ≤ u.dp.op
  frame : ∀ j, j < s.dp.op ∨ u.dp.op ≤ j → Store.read u.mem (s.dstAddr j) = Store.read s.mem (s.dstAddr j)

/-- Nothing is appended where DST's base, memory and `op` stay. -/
theorem appended_of_eq {s u : State} (hwf : Store.wf s.mem = true) (hbase : u.csr.dstBase = s.csr.dstBase) (hmem : u.mem = s.mem)
    (hop : u.dp.op = s.dp.op) : Appended s u :=
  ⟨hbase, hmem ▸ hwf, hop.ge, fun _ _ => by rw [hmem]⟩

theorem dstAddr_congr {s u : State} (h : u.csr.dstBase = s.csr.dstBase) (j : Nat) : u.dstAddr j = s.dstAddr j := by
  rw [State.dstAddr, State.dstAddr, h]

theorem Appended.trans {s u v : State} (h : Appended s u) (h' : Appended u v) : Appended s v where
  base := h'.base.trans h.base
  wf := h'.wf
  op_le := h.op_le.trans h'.op_le
  frame j hj := by
    have hle := h.op_le
    have hle' := h'.op_le
    have hframe := h'.frame j (by omega)
    rw [dstAddr_congr h.base] at hframe
    exact hframe.trans (h.frame j (by omega))

theorem Wrote.appended {s u : State} (h : Wrote s u) (hwf : Store.wf s.mem = true) : Appended s u where
  base := by rw [h.csr]
  wf := h.wf hwf
  op_le := h.le
  frame j hj := h.frame hwf _ (by simp only [State.dstAddr]; omega)

/-- The end of a command touches neither memory nor the cursor (R238). -/
theorem Appended.terminate {s u : State} (h : Appended s u) (e : ErrorCode) : Appended s (u.terminate e) :=
  ⟨h.base, h.wf, h.op_le, h.frame⟩

theorem Res.All.settle_appended {s : State} {r : Res} (h : r.All (Appended s)) : Appended s r.settle := by
  cases r with
  | ok u => exact h
  | raise e u => exact Appended.terminate h e

theorem Res.All.then_appended {s : State} {r : Res} {f : State → Res} (h : r.All (Appended s))
    (hf : ∀ u, Store.wf u.mem = true → (f u).All (Appended u)) : (r.andThen f).All (Appended s) :=
  h.andThen (fun _ hu => hu) fun u hu => (hf u hu.wf).mono fun _ hv => hu.trans hv

/-! ### Tokens -/

theorem copyLiterals_appended (n : Nat) {s : State} (hwf : Store.wf s.mem = true) : (copyLiterals n s).All (Appended s) := by
  have hself : Appended s s := appended_of_eq hwf rfl rfl rfl
  rcases copyLiterals_cases n s with ⟨-, h⟩ | ⟨-, -, h⟩ | ⟨-, -, h⟩ <;> rw [h]
  · exact hself
  · exact hself
  · obtain ⟨m, hm, hwf', -, hframe, -⟩ := copyLits_spec n s hwf
    rw [hm]
    refine ⟨rfl, hwf', Nat.le_add_right _ _, fun j hj => hframe _ fun k hk => ?_⟩
    have hj' : j < s.dp.op ∨ s.dp.op + n ≤ j := hj
    simp only [State.dstAddr]
    omega

theorem copyMatch_appended (dist len : Nat) {s : State} (hwf : Store.wf s.mem = true) : (copyMatch dist len s).All (Appended s) := by
  have hself : Appended s s := appended_of_eq hwf rfl rfl rfl
  rcases copyMatch_cases dist len s with ⟨-, h⟩ | ⟨-, -, h⟩ | ⟨-, -, h⟩ <;> rw [h]
  · exact hself
  · exact hself
  · exact (copyBack_wrote dist len s).1.appended hwf

theorem setS_appended (st : DecState) {s : State} (hwf : Store.wf s.mem = true) : (Res.ok (s.setS st)).All (Appended s) :=
  appended_of_eq hwf rfl rfl rfl

theorem trail_appended (t : BitVec 2) {s : State} (hwf : Store.wf s.mem = true) : (trail t s).All (Appended s) := by
  refine Res.All.then_appended ?_ fun _ => setS_appended (.trail t)
  split
  · exact appended_of_eq hwf rfl rfl rfl
  · exact copyLiterals_appended _ hwf

theorem copyToken_appended (len dist : Nat) (t : BitVec 2) {s : State} (hwf : Store.wf s.mem = true) :
    (copyToken len dist t s).All (Appended s) := by
  have hlatch : Appended s (s.latchCopy len dist t) := appended_of_eq hwf rfl rfl rfl
  exact ((copyMatch_appended dist len hlatch.wf).mono fun _ => hlatch.trans).then_appended fun _ => trail_appended t

theorem litToken_appended (n : Nat) (st : DecState) {s : State} (hwf : Store.wf s.mem = true) :
    (litToken n st s).All (Appended s) := by
  have hlatch : Appended s (s.latchCount n) := appended_of_eq hwf rfl rfl rfl
  exact ((copyLiterals_appended n hlatch.wf).mono fun _ => hlatch.trans).then_appended fun _ => setS_appended st

/-- A step of the token loop only appends to the output (R63, R182). -/
theorem fetchStep_appended {s t : State} (hwf : Store.wf s.mem = true) (h : s.fetchStep = .next t) : Appended s t := by
  rcases fetchStep_cases s with ⟨i, k, -, -, -, hi, hx⟩ | ⟨-, hx⟩ <;> rw [hx] at h
  · have hc : Appended s (s.consumed i k) := appended_of_eq hwf rfl rfl (consumed_op s i k)
    rcases exec_token_cases hi with ⟨n, st, he⟩ | ⟨len, dist, tr, he⟩ | ⟨len, he⟩ <;> rw [he] at h
    · rw [(guarded_next h).2]
      exact hc.trans (litToken_appended n st hc.wf).settle_appended
    · rw [(guarded_next h).2]
      exact hc.trans (copyToken_appended len dist tr hc.wf).settle_appended
    · cases h
      exact hc.trans (appended_of_eq hc.wf rfl rfl rfl)
  · cases h
    exact appended_of_eq hwf rfl rfl rfl

/-! ### The compressor's output -/

theorem emit_appended (b : Byte) {s : State} (hwf : Store.wf s.mem = true) : (emit b s).All (Appended s) := by
  rcases emit_cases b s with ⟨-, h⟩ | ⟨-, h⟩ <;> rw [h]
  · exact appended_of_eq hwf rfl rfl rfl
  · exact (putDst_wrote s b).appended hwf

theorem emitAll_appended (bs : List Byte) {s : State} (hwf : Store.wf s.mem = true) : (emitAll bs s).All (Appended s) := by
  induction bs generalizing s with
  | nil => exact appended_of_eq hwf rfl rfl rfl
  | cons b bs ih => exact (emit_appended b hwf).then_appended fun _ => ih

theorem compLiterals_appended (start n : Nat) {s : State} (hwf : Store.wf s.mem = true) :
    (compLiterals start n s).All (Appended s) := by
  induction n generalizing start s with
  | zero => exact appended_of_eq hwf rfl rfl rfl
  | succ n ih => exact (emit_appended _ hwf).then_appended fun _ => ih (start + 1)

theorem emitMatch_appended {s : State} (hwf : Store.wf s.mem = true) : s.extendMatch.emitMatch.All (Appended s) := by
  have hpass : Appended s s.extendMatch.passMatch := appended_of_eq hwf rfl rfl rfl
  rw [emitMatch_eq]
  exact ((emitAll_appended _ hpass.wf).mono fun _ => hpass.trans).then_appended fun _ hu => appended_of_eq hu rfl rfl rfl

/-! ## Bytes appended, with `Patch2` before them -/

/-- From `s` to `u` bytes were appended, after `Patch2` of a count up to 3 or without it (R139). -/
def PatchAppended (s u : State) : Prop :=
  Appended s u ∨ ∃ t, t ≤ 3 ∧ 2 ≤ s.dp.op ∧ Appended (patch2 t s) u

theorem PatchAppended.then_appended {s u v : State} (h : PatchAppended s u) (h' : Appended u v) : PatchAppended s v :=
  h.imp (fun h => h.trans h') fun ⟨t, ht, hop, h⟩ => ⟨t, ht, hop, h.trans h'⟩

theorem PatchAppended.wf {s u : State} (h : PatchAppended s u) : Store.wf u.mem = true := by
  rcases h with h | ⟨t, -, -, h⟩ <;> exact h.wf

theorem patch2_patchAppended {t : Nat} {s : State} (hwf : Store.wf s.mem = true) (ht : t ≤ 3) (hop : 2 ≤ s.dp.op) :
    PatchAppended s (patch2 t s) := by
  obtain ⟨m, hm, hwf', -⟩ := patch2_spec t s hwf
  refine .inr ⟨t, ht, hop, appended_of_eq ?_ rfl rfl rfl⟩
  rw [hm]
  exact hwf'

theorem Res.All.then_patchAppended {s : State} {r : Res} {f : State → Res} (h : r.All (PatchAppended s))
    (hf : ∀ u, Store.wf u.mem = true → (f u).All (Appended u)) : (r.andThen f).All (PatchAppended s) :=
  h.andThen (fun _ hu => hu) fun u hu => (hf u hu.wf).mono fun _ => hu.then_appended

theorem Res.All.settle_patchAppended {s : State} {r : Res} (h : r.All (PatchAppended s)) : PatchAppended s r.settle := by
  cases r with
  | ok u => exact h
  | raise e u => exact PatchAppended.then_appended h (appended_of_eq (PatchAppended.wf h) rfl rfl rfl)

/-- What is written below the old cursor: nothing but a count of at most 3 ORed into the byte at `op - 2` (R139). -/
theorem PatchAppended.frame {s u : State} (hwf : Store.wf s.mem = true) (h : PatchAppended s u) (j : Nat)
    (hj : j < s.dp.op ∧ j ≠ s.dp.op - 2 ∨ u.dp.op ≤ j) : Store.read u.mem (s.dstAddr j) = Store.read s.mem (s.dstAddr j) := by
  rcases h with h | ⟨t, -, hop, h⟩
  · exact h.frame j (by omega)
  · have hle : s.dp.op ≤ u.dp.op := h.op_le
    obtain ⟨m, hm, -, -, hother⟩ := patch2_spec t s hwf
    have hframe := h.frame j (by rw [hm]; change j < s.dp.op ∨ _; omega)
    rw [hm] at hframe
    refine hframe.trans (hother _ ?_)
    simp only [State.dstAddr]
    omega

theorem PatchAppended.patched {s u : State} (hwf : Store.wf s.mem = true) (h : PatchAppended s u) (h2 : 2 ≤ s.dp.op) :
    ∃ n : BitVec 2, u.dst (s.dp.op - 2) = s.dst (s.dp.op - 2) ||| n.setWidth 8 := by
  rcases h with h | ⟨t, ht, -, h⟩
  · refine ⟨0, ?_⟩
    rw [State.dst, dstAddr_congr h.base, h.frame _ (by omega)]
    simp [State.dst]
  · refine ⟨BitVec.ofNat 2 t, ?_⟩
    obtain ⟨m, hm, -, hpatched, -⟩ := patch2_spec t s hwf
    have hcount : (BitVec.ofNat 2 t).setWidth 8 = BitVec.ofNat 8 t := by
      interval_cases t <;> rfl
    have hframe := h.frame (s.dp.op - 2) (.inl (by rw [hm]; change s.dp.op - 2 < s.dp.op; omega))
    rw [State.dst, dstAddr_congr (u := u) (s := patch2 t s) h.base, hframe, hcount, ← hpatched, hm]
    rfl

/-! ### The stages of COMPRESS -/

/-- Joining the carried literals to the run changes neither memory nor `op` (R159). -/
theorem PatchAppended.of_joinRun {s u : State} (hwf : Store.wf s.mem = true) (h : PatchAppended s.joinRun u) : PatchAppended s u := by
  rcases h with h | ⟨t, ht, hop, h⟩
  · have hjoin : Appended s s.joinRun := appended_of_eq hwf rfl rfl rfl
    exact .inl (hjoin.trans h)
  · have hjoin : Appended (patch2 t s) (patch2 t s.joinRun) :=
      appended_of_eq (patch2_patchAppended hwf ht hop).wf rfl rfl rfl
    exact .inr ⟨t, ht, hop, hjoin.trans h⟩

theorem emitLitHeader_patchAppended {t : Nat} {s : State} (hwf : Store.wf s.mem = true) (hop : t ≤ 3 → 2 ≤ s.dp.op) :
    (emitLitHeader t s).All (PatchAppended s) := by
  unfold emitLitHeader
  split
  · next ht => exact patch2_patchAppended hwf ht (hop ht)
  · exact (emitAll_appended _ hwf).mono fun _ => .inl

theorem flushRun_patchAppended {s : State} (hwf : Store.wf s.mem = true) (hpatch : s.joinRun.dp.t ≤ 3 → 2 ≤ s.dp.op) :
    s.flushRun.All (PatchAppended s) := by
  have hjoin : Store.wf s.joinRun.mem = true := hwf
  rw [flushRun_eq]
  split
  · exact .inl (appended_of_eq hwf rfl rfl rfl)
  · exact ((emitLitHeader_patchAppended hjoin hpatch).then_patchAppended fun _ => compLiterals_appended _ _).mono
      fun _ => PatchAppended.of_joinRun hwf

theorem hitStep_patchAppended {s : State} (hwf : Store.wf s.mem = true) (hpatch : s.joinRun.dp.t ≤ 3 → 2 ≤ s.dp.op) :
    s.hitStep.All (PatchAppended s) :=
  (flushRun_patchAppended hwf hpatch).then_patchAppended fun _ => emitMatch_appended

theorem flushHeader_patchAppended {t : Nat} {s : State} (hwf : Store.wf s.mem = true) (hpatch : s.dp.op = 0 ∨ 2 ≤ s.dp.op) :
    (flushHeader t s).All (PatchAppended s) := by
  unfold flushHeader
  split
  · exact (emitAll_appended _ hwf).mono fun _ => .inl
  · next hfirst =>
    split
    · next h3 =>
      refine patch2_patchAppended hwf h3 (hpatch.resolve_left fun h0 => hfirst ⟨h0, ?_⟩)
      simp only [Config.firstLitMax]
      omega
    · exact (emitAll_appended _ hwf).mono fun _ => .inl

theorem flushTail_patchAppended {s : State} (hwf : Store.wf s.mem = true) (hpatch : s.dp.op = 0 ∨ 2 ≤ s.dp.op) :
    s.flushTail.All (PatchAppended s) := by
  unfold State.flushTail
  split
  · exact .inl (appended_of_eq hwf rfl rfl rfl)
  · exact (flushHeader_patchAppended hwf hpatch).then_patchAppended fun _ => compLiterals_appended _ _

theorem outerStep_appended {s : State} (hwf : Store.wf s.mem = true) : Appended s s.outerStep := by
  unfold State.outerStep
  split <;> exact appended_of_eq hwf rfl rfl rfl

theorem nextStep_appended {s : State} (hwf : Store.wf s.mem = true) : Appended s s.nextStep := by
  unfold State.nextStep State.judge
  split
  · exact appended_of_eq hwf rfl rfl rfl
  · split <;> exact appended_of_eq hwf rfl rfl rfl

/-- Where the host has not interfered, what `running` answers is the stage's own answer. -/
theorem running_next_undisturbed {s t : State} {k : Host.Outcome State Fault Refusal} (hraced : s.raced = false)
    (h : s.running k = .next t) : k = .next t := by
  obtain ⟨hspace, -⟩ := running_next h
  rwa [running_undisturbed hspace hraced] at h

/-- A step of COMPRESS past its checks appends to the output, and patches at most the last copy token before it (R139, R143). -/
theorem compressStep_patchAppended {s t : State} (hs : s.Inv) (hraced : s.raced = false) {ph : CompressPhase}
    (hf : s.fsm = .runCompress ph) (hph : ph ≠ .check) (h : s.engineStep = .next t) : PatchAppended s t := by
  have hwf := mem_wf_of_inv hs
  have hstage := stageOk_of_inv hs
  cases ph with
  | check => exact absurd rfl hph
  | outer =>
    rw [engineStep_outer hf] at h
    cases running_next_undisturbed hraced h
    exact .inl (outerStep_appended hwf)
  | next =>
    rw [engineStep_next hf] at h
    cases running_next_undisturbed hraced h
    exact .inl (nextStep_appended hwf)
  | hit =>
    obtain ⟨hst, hb, hfirst, -⟩ := (stageOk_hit hf).mp hstage
    rw [engineStep_hit hf] at h
    cases running_next_undisturbed hraced h
    exact (hitStep_patchAppended hwf (joinRun_patch hst hb hfirst)).settle_patchAppended
  | flush =>
    obtain ⟨hst, -⟩ := (stageOk_flush hf).mp hstage
    obtain ⟨e, u, hu, hend⟩ := flushStep_settle_all
      ((flushTail_patchAppended hwf hst.patch).then_patchAppended fun _ => emitAll_appended eosBytes)
    rw [engineStep_flush hf] at h
    cases running_next_undisturbed hraced h
    rw [hend]
    exact hu.then_appended (appended_of_eq hu.wf rfl rfl rfl)

/-- A step of the token loop of an undisturbed DECOMPRESS appends to the output (R63, R182). -/
theorem decompressStep_appended {s t : State} (hs : s.Inv) (hraced : s.raced = false) (hf : s.fsm = .runDecompress .fetch)
    (h : s.engineStep = .next t) : Appended s t := by
  rw [engineStep_fetch hf] at h
  exact fetchStep_appended (mem_wf_of_inv hs) (running_next_undisturbed hraced h)

/-- An undisturbed engine step changes no DST byte from the output cursor it leaves on (R63). -/
theorem engineStep_above_op {s t : State} (hs : s.Inv) (hraced : s.raced = false) (h : s.engineStep = .next t) (j : Nat)
    (hj : t.dp.op ≤ j) : Store.read t.mem (s.dstAddr j) = Store.read s.mem (s.dstAddr j) := by
  cases hp : s.pastChecks with
  | false =>
    obtain ⟨u, hu, hmem⟩ := engineStep_beforeChecks hp
    obtain rfl : t = u := Host.Outcome.next.inj (h.symm.trans hu)
    rw [hmem]
  | true =>
    rcases pastChecks_eq_true_iff.mp hp with ⟨ph, hf, hph⟩ | hf
    · exact (compressStep_patchAppended hs hraced hf hph h).frame (mem_wf_of_inv hs) j (.inr hj)
    · exact (decompressStep_appended hs hraced hf h).frame j (.inr hj)

/-- Settles O52: outside DST by `engineStep_kept`, and within it by what the stages append and patch. -/
theorem engineWritesOnlyAtOp : Obligations.EngineWritesOnlyAtOp := by
  intro s t hs hraced hh h
  have hwf := mem_wf_of_inv hs
  rw [step_engine hh] at h
  refine ⟨(engineStep_kept hs h).2.frame, engineStep_above_op hs hraced h, fun hf j hj => ?_, fun ph hf hph => ?_⟩
  · exact (decompressStep_appended hs hraced hf h).frame j (.inl hj)
  · have hpatch := compressStep_patchAppended hs hraced hf hph h
    exact ⟨fun j hj hne => hpatch.frame hwf j (.inl ⟨hj, hne⟩), hpatch.patched hwf⟩

end Sys2Proof.Machine
end

section
/-! PROOFS. The fields of a token's header, one by one: the decode map, the extension and length fields, T, and the distance bytes, each as the
decoder reads it and as the encoder writes it (30_encoding.md R93 to R106). -/

namespace Sys2Proof

/-! ## Bytes and their fields -/

theorem ofNat_eq_of_toNat {c : Byte} {n : Nat} (h : c.toNat = n) : BitVec.ofNat 8 n = c := by
  subst h
  simp

theorem toNat_ofNat_byte {n : Nat} (h : n < 256) : (BitVec.ofNat 8 n).toNat = n := by
  rw [BitVec.toNat_ofNat, Nat.mod_eq_of_lt h]

theorem trailField_toNat (b : Byte) : (trailField b).toNat = b.toNat % 4 := by
  simp [trailField, bits]

theorem trailField_eq_iff {b : Byte} {t : BitVec 2} : trailField b = t ↔ b.toNat % 4 = t.toNat := by
  rw [← BitVec.toNat_inj, trailField_toNat]

theorem distField_eq (b0 b1 : Byte) : distField b0 b1 = b0.toNat / 4 + 64 * b1.toNat := by
  have := b0.isLt
  simp only [distField, bits, Nat.reducePow, Nat.reduceAdd, Nat.reduceSub]
  omega

theorem bits_3_2 (b : Byte) : bits b 3 2 = b.toNat / 4 % 4 := rfl
theorem bits_4_2 (b : Byte) : bits b 4 2 = b.toNat / 4 % 8 := rfl
theorem bits_3_3 (b : Byte) : bits b 3 3 = b.toNat / 8 % 2 := rfl
theorem bits_4_0 (b : Byte) : bits b 4 0 = b.toNat % 32 := by simp [bits]
theorem bits_2_0 (b : Byte) : bits b 2 0 = b.toNat % 8 := by simp [bits]
theorem bits_7_5 (b : Byte) : bits b 7 5 = b.toNat / 32 := by
  have := b.isLt
  simp only [bits]
  omega

/-! ## The decode map (R93) -/

theorem kindOf_eq_litFirst_iff {st : DecState} {c : Byte} : kindOf st c = .litFirst ↔ st = .start ∧ 0x12 ≤ c.toNat := by
  cases st with
  | start => simp only [kindOf]; split_ifs <;> simp <;> omega
  | trail | run => simp only [kindOf]; split_ifs <;> simp

theorem kindOf_eq_litRun_iff {st : DecState} {c : Byte} :
    kindOf st c = .litRun ↔ (st = .start ∨ st = .trail 0) ∧ c.toNat ≤ 0x0F := by
  cases st with
  | start | trail => simp only [kindOf]; split_ifs <;> simp_all
  | run => simp only [kindOf]; split_ifs <;> simp

theorem ne_zero_iff_one_two_three (t : BitVec 2) : t ≠ 0 ↔ t = 1 ∨ t = 2 ∨ t = 3 := by
  revert t
  decide

theorem kindOf_eq_m1s_iff {st : DecState} {c : Byte} :
    kindOf st c = .m1s ↔ (st = .trail 1 ∨ st = .trail 2 ∨ st = .trail 3) ∧ c.toNat ≤ 0x0F := by
  cases st with
  | trail t =>
    simp only [kindOf, DecState.trail.injEq, ← ne_zero_iff_one_two_three]
    split_ifs <;> simp_all
  | start | run => simp only [kindOf]; split_ifs <;> simp

theorem kindOf_eq_m1l_iff {st : DecState} {c : Byte} : kindOf st c = .m1l ↔ st = .run ∧ c.toNat ≤ 0x0F := by
  cases st with
  | run => simp only [kindOf]; split_ifs <;> simp_all
  | start | trail => simp only [kindOf]; split_ifs <;> simp

theorem kindOf_eq_m2_iff {st : DecState} {c : Byte} : kindOf st c = .m2 ↔ st ≠ .start ∧ 0x40 ≤ c.toNat := by
  cases st with
  | start => simp only [kindOf]; split_ifs <;> simp
  | trail | run => simp only [kindOf]; split_ifs <;> simp <;> omega

theorem kindOf_eq_m3_iff {st : DecState} {c : Byte} :
    kindOf st c = .m3 ↔ st ≠ .start ∧ 0x20 ≤ c.toNat ∧ c.toNat ≤ 0x3F := by
  cases st with
  | start => simp only [kindOf]; split_ifs <;> simp
  | trail | run => simp only [kindOf]; split_ifs <;> simp <;> omega

theorem kindOf_eq_m4OrEos_iff {st : DecState} {c : Byte} :
    kindOf st c = .m4OrEos ↔ 0x10 ≤ c.toNat ∧ c.toNat ≤ 0x1F ∧ (st = .start → c.toNat ≤ 0x11) := by
  cases st with
  | start | trail | run => simp only [kindOf]; split_ifs <;> simp <;> omega

/-! ## Extension fields (R102) -/

theorem decodeExt_zero (base : Nat) (bs : List Byte) :
    decodeExt base (0 :: bs) = (decodeExt (base + 255) bs).map fun r => (r.1, r.2 + 1) := by
  rw [decodeExt, if_pos rfl]
  cases decodeExt (base + 255) bs <;> rfl

theorem decodeExt_nonzero {b : Byte} (h : b ≠ 0) (base : Nat) (bs : List Byte) :
    decodeExt base (b :: bs) = .ok (base + b.toNat, 1) := by
  rw [decodeExt, if_neg h]

/-- R102, R131, R132: the decoder reads back the value of every extension field. -/
theorem decodeExt_extBytes (base v : Nat) (rest : List Byte) (hv : 1 ≤ v) :
    decodeExt base (extBytes v ++ rest) = .ok (base + v, (extBytes v).length) := by
  induction v using Nat.strong_induction_on generalizing base with
  | _ v ih =>
    rcases Nat.lt_or_ge 255 v with hlong | hshort
    · rw [extBytes_step v hlong, List.cons_append, decodeExt_zero, ih (v - 255) (by omega) _ (by omega)]
      simp only [Except.map, List.length_cons, show base + 255 + (v - 255) = base + v by omega]
    · have hb : (BitVec.ofNat 8 v).toNat = v := toNat_ofNat_byte (by omega)
      have hne : BitVec.ofNat 8 v ≠ 0 := fun h0 => by simp [h0] at hb; omega
      rw [extBytes_small v hshort, List.cons_append, decodeExt_nonzero hne, hb]
      rfl

/-- R102: an extension field has one spelling. -/
theorem extBytes_of_decodeExt {base v k : Nat} {bs : List Byte} (h : decodeExt base bs = .ok (v, k)) :
    k = (extBytes (v - base)).length ∧ ∃ rest, bs = extBytes (v - base) ++ rest := by
  induction bs generalizing base v k with
  | nil => cases h
  | cons b bs ih =>
    by_cases hb : b = 0
    · subst hb
      rw [decodeExt_zero] at h
      cases hd : decodeExt (base + 255) bs with
      | error e => simp [hd, Except.map] at h
      | ok r =>
        obtain ⟨v', k'⟩ := r
        obtain ⟨rfl, rfl⟩ : v' = v ∧ k' + 1 = k := by simpa [hd, Except.map] using h
        obtain ⟨-, -, hv⟩ := decodeExt_ok hd
        obtain ⟨hk, rest, hrest⟩ := ih hd
        rw [extBytes_step _ (by omega), show v' - base - 255 = v' - (base + 255) by omega, hk]
        exact ⟨rfl, rest, by rw [hrest]; rfl⟩
    · rw [decodeExt_nonzero hb] at h
      cases h
      have hlt := b.isLt
      rw [Nat.add_sub_cancel_left, extBytes_small _ (by omega)]
      exact ⟨rfl, bs, by simp⟩

/-! ## Length fields (R100, R101, R106) -/

theorem lenField_le (len max : Nat) : lenField len max ≤ max - 2 := by
  unfold lenField
  split <;> omega

/-- R106: the decoder reads back every length of at least 3, held in the field or extended. -/
theorem decodeLen_lenField {len max : Nat} (hlen : 3 ≤ len) (rest : List Byte) :
    decodeLen (lenField len max) max (lenExt len max ++ rest) = .ok (len, (lenExt len max).length) := by
  unfold lenField lenExt decodeLen
  by_cases hfit : len ≤ max
  · simp only [hfit, if_true]
    rw [if_neg (by omega), show len - 2 + 2 = len by omega]
    rfl
  · simp only [hfit, if_false, if_true]
    rw [decodeExt_extBytes _ _ _ (by omega), show max + (len - max) = len by omega]

/-- R106: a length the decoder reads is at least 3 and is spelled as the encoder spells it. -/
theorem lenField_of_decodeLen {field max len k : Nat} {bs : List Byte} (hfield : field + 2 ≤ max)
    (h : decodeLen field max bs = .ok (len, k)) :
    3 ≤ len ∧ field = lenField len max ∧ k = (lenExt len max).length ∧ ∃ rest, bs = lenExt len max ++ rest := by
  unfold decodeLen at h
  by_cases h0 : field = 0
  · rw [if_pos h0] at h
    obtain ⟨-, -, hv⟩ := decodeExt_ok h
    have hlong : ¬ len ≤ max := by omega
    simp only [lenField, lenExt, hlong, if_false]
    exact ⟨by omega, h0, extBytes_of_decodeExt h⟩
  · rw [if_neg h0] at h
    cases h
    simp only [lenField, lenExt, hfield, if_true]
    exact ⟨by omega, rfl, rfl, bs, rfl⟩

/-! ## Operand ranges (R94 to R106) -/

theorem wf_litf_iff {n : Nat} : (Instr.litf n).wf = true ↔ 1 ≤ n ∧ n ≤ 238 := by simp [Instr.wf]
theorem wf_litShort_iff {n : Nat} : (Instr.litShort n).wf = true ↔ 4 ≤ n ∧ n ≤ 18 := by simp [Instr.wf]
theorem wf_litLong_iff {n : Nat} : (Instr.litLong n).wf = true ↔ 19 ≤ n := by simp [Instr.wf]
theorem wf_m1s_iff {dist : Nat} {t : BitVec 2} : (Instr.m1s dist t).wf = true ↔ 1 ≤ dist ∧ dist ≤ 1024 := by
  simp [Instr.wf]
theorem wf_m1l_iff {dist : Nat} {t : BitVec 2} : (Instr.m1l dist t).wf = true ↔ 2049 ≤ dist ∧ dist ≤ 3072 := by
  simp [Instr.wf]
theorem wf_m2_iff {len dist : Nat} {t : BitVec 2} :
    (Instr.m2 len dist t).wf = true ↔ 3 ≤ len ∧ len ≤ 8 ∧ 1 ≤ dist ∧ dist ≤ 2048 := by simp [Instr.wf, and_assoc]
theorem wf_m3_iff {len dist : Nat} {t : BitVec 2} :
    (Instr.m3 len dist t).wf = true ↔ 3 ≤ len ∧ 1 ≤ dist ∧ dist ≤ 16384 := by simp [Instr.wf, and_assoc]
theorem wf_m4_iff {len dist : Nat} {t : BitVec 2} :
    (Instr.m4 len dist t).wf = true ↔ 3 ≤ len ∧ 16384 < dist ∧ dist ≤ 49151 := by simp [Instr.wf, and_assoc]
theorem wf_eos_iff {len : Nat} {t : BitVec 2} : (Instr.eos len t).wf = true ↔ 3 ≤ len := by simp [Instr.wf]

/-! ## A byte with a T field, and the distance byte after it (R97 to R101, R104) -/

/-- The two bytes that hold a distance field `d` in `m` and 256 parts, `t`, and the bits `top` above them. -/
def pairBytes (top m d : Nat) (t : BitVec 2) : List Byte :=
  [BitVec.ofNat 8 (top + 4 * (d % m) + t.toNat), BitVec.ofNat 8 (d / m)]

theorem exists_pairBytes {top m d : Nat} (t : BitVec 2) (htop : top + 4 * m ≤ 256) (hd : d < m * 256) :
    ∃ b0 b1, pairBytes top m d t = [b0, b1] ∧ b0.toNat = top + 4 * (d % m) + t.toNat ∧ b1.toNat = d / m := by
  have ht := t.isLt
  have hmod := Nat.mod_lt d (show 0 < m by omega)
  have hdiv := Nat.div_lt_of_lt_mul hd
  exact ⟨_, _, rfl, toNat_ofNat_byte (by omega), toNat_ofNat_byte hdiv⟩

theorem pairBytes_of_toNat {top m d : Nat} {t : BitVec 2} {b0 b1 : Byte} (h0 : b0.toNat = top + 4 * (d % m) + t.toNat)
    (h1 : b1.toNat = d / m) : pairBytes top m d t = [b0, b1] := by
  rw [pairBytes, ofNat_eq_of_toNat h0, ofNat_eq_of_toNat h1]

/-- The decoder reads back the 14-bit field and T of two distance bytes (R67, R100). -/
theorem exists_distBytes {d : Nat} (hd : d < 16384) (t : BitVec 2) :
    ∃ b0 b1, pairBytes 0 64 d t = [b0, b1] ∧ distField b0 b1 = d ∧ trailField b0 = t := by
  have ht := t.isLt
  obtain ⟨b0, b1, hbytes, h0, h1⟩ := exists_pairBytes (top := 0) (m := 64) t (by omega) hd
  refine ⟨b0, b1, hbytes, ?_, trailField_eq_iff.mpr (by omega)⟩
  rw [distField_eq]
  omega

theorem pairBytes_distField (b0 b1 : Byte) : pairBytes 0 64 (distField b0 b1) (trailField b0) = [b0, b1] := by
  have h0 := b0.isLt
  have ht := trailField_toNat b0
  have hd := distField_eq b0 b1
  exact pairBytes_of_toNat (by omega) (by omega)

theorem distField_lt (b0 b1 : Byte) : distField b0 b1 < 16384 := by
  have h0 := b0.isLt
  have h1 := b1.isLt
  rw [distField_eq]
  omega

/-! ## Headers with a length field and two distance bytes (R100, R101, R103) -/

/-- A length the decoder reads with two bytes after it: the string is the length's extension bytes and the two bytes. -/
theorem lenExt_of_decodeLen {field max len k : Nat} {bs rest : List Byte} {b0 b1 : Byte} (hfield : field + 2 ≤ max)
    (h : decodeLen field max bs = .ok (len, k)) (hd : bs.drop k = b0 :: b1 :: rest) :
    3 ≤ len ∧ field = lenField len max ∧ bs = lenExt len max ++ b0 :: b1 :: rest ∧ k = (lenExt len max).length := by
  obtain ⟨hlen, hf, rfl, more, rfl⟩ := lenField_of_decodeLen hfield h
  rw [List.drop_left] at hd
  exact ⟨hlen, hf, by rw [hd], rfl⟩

/-- R100: what an M3 header holds. -/
theorem decodeM3_eq_ok_iff {c : Byte} {bs : List Byte} {i : Instr} {k : Nat} : decodeM3 c bs = .ok (i, k) ↔
    ∃ len b0 b1 rest, 3 ≤ len ∧ bits c 4 0 = lenField len Config.m3MaxLen ∧
      bs = lenExt len Config.m3MaxLen ++ b0 :: b1 :: rest ∧ i = .m3 len (1 + distField b0 b1) (trailField b0) ∧
      k = 3 + (lenExt len Config.m3MaxLen).length := by
  constructor
  · intro h
    unfold decodeM3 at h
    split at h
    · cases h
    · next len n hlen =>
      split at h
      · next b0 b1 rest hd =>
        cases h
        have hbits : bits c 4 0 < 32 := bits_lt c 4 0
        obtain ⟨h3, hfield, hbs, rfl⟩ := lenExt_of_decodeLen (show bits c 4 0 + 2 ≤ 33 by omega) hlen hd
        exact ⟨len, b0, b1, rest, h3, hfield, hbs, rfl, rfl⟩
      · cases h
  · rintro ⟨len, b0, b1, rest, h3, hfield, rfl, rfl, rfl⟩
    simp only [decodeM3, hfield, decodeLen_lenField h3, List.drop_left]

/-- The instruction of an M4 header's fields, H = `h` and D = `d`: the end marker where both are 0 (R101, R103). -/
def m4OrEos (len h d : Nat) (t : BitVec 2) : Instr :=
  if h = 0 ∧ d = 0 then .eos len t else .m4 len (16384 + 16384 * h + d) t

/-- R101, R103: what an M4 header holds. -/
theorem decodeM4_eq_ok_iff {c : Byte} {bs : List Byte} {i : Instr} {k : Nat} : decodeM4 c bs = .ok (i, k) ↔
    ∃ len b0 b1 rest, 3 ≤ len ∧ bits c 2 0 = lenField len Config.m4MaxLen ∧
      bs = lenExt len Config.m4MaxLen ++ b0 :: b1 :: rest ∧
      i = m4OrEos len (bits c 3 3) (distField b0 b1) (trailField b0) ∧ k = 3 + (lenExt len Config.m4MaxLen).length := by
  constructor
  · intro h
    unfold decodeM4 at h
    split at h
    · cases h
    · next len n hlen =>
      split at h
      · next b0 b1 rest hd =>
        have hbits : bits c 2 0 < 8 := bits_lt c 2 0
        obtain ⟨h3, hfield, hbs, rfl⟩ := lenExt_of_decodeLen (show bits c 2 0 + 2 ≤ 9 by omega) hlen hd
        refine ⟨len, b0, b1, rest, h3, hfield, hbs, ?_⟩
        unfold m4OrEos
        split at h <;> next hcond =>
          cases h
          simp [hcond]
      · cases h
  · rintro ⟨len, b0, b1, rest, h3, hfield, rfl, rfl, rfl⟩
    simp only [decodeM4, hfield, decodeLen_lenField h3, List.drop_left, m4OrEos]
    split <;> rfl

/-! ## The encoder, header by header (R97 to R103) -/

theorem encode_m1s (dist : Nat) (t : BitVec 2) : encode (.m1s dist t) = pairBytes 0 4 (dist - 1) t := by
  simp [encode, pairBytes]

theorem encode_m1l (dist : Nat) (t : BitVec 2) : encode (.m1l dist t) = pairBytes 0 4 (dist - 2049) t := by
  simp [encode, pairBytes]

theorem encode_m2 (len dist : Nat) (t : BitVec 2) : encode (.m2 len dist t) = pairBytes (32 * (len - 1)) 8 (dist - 1) t := rfl

theorem encode_m3 (len dist : Nat) (t : BitVec 2) : encode (.m3 len dist t) =
    BitVec.ofNat 8 (0x20 + lenField len Config.m3MaxLen) :: (lenExt len Config.m3MaxLen ++ pairBytes 0 64 (dist - 1) t) := by
  simp [encode, pairBytes]

theorem encode_m4OrEos {h d : Nat} (hd : d < 16384) (len : Nat) (t : BitVec 2) : encode (m4OrEos len h d t) =
    BitVec.ofNat 8 (0x10 + 8 * h + lenField len Config.m4MaxLen) :: (lenExt len Config.m4MaxLen ++ pairBytes 0 64 d t) := by
  unfold m4OrEos
  split
  · next h0 =>
    obtain ⟨rfl, rfl⟩ := h0
    simp [encode, pairBytes]
  · have hh : (16384 + 16384 * h + d - 16384) / 16384 = h := by omega
    have hlow : (16384 + 16384 * h + d - 16384) % 64 = d % 64 := by omega
    have hmod : (16384 + 16384 * h + d - 16384) % 16384 = d := by omega
    simp only [encode, hh, hlow, hmod, pairBytes, Nat.zero_add]

/-! ## M4 and the end marker, where they exist and where they can be read (R101) -/

/-- R101, R105, R106: every M4 header of a length from 3 on is well formed. -/
theorem m4OrEos_wf {len h d : Nat} (t : BitVec 2) (hlen : 3 ≤ len) (hh : h ≤ 1) (hd : d < 16384) :
    (m4OrEos len h d t).wf = true := by
  unfold m4OrEos
  split
  · exact wf_eos_iff.mpr hlen
  · exact wf_m4_iff.mpr (by omega)

theorem readIn_m4_iff {st : DecState} {len dist : Nat} {t : BitVec 2} :
    (Instr.m4 len dist t).readIn st = true ↔ (st = .start → (len = 3 ∨ 10 ≤ len) ∧ dist < 32768) := by
  simp [Instr.readIn, imp_iff_not_or]

theorem readIn_eos_iff {st : DecState} {len : Nat} {t : BitVec 2} :
    (Instr.eos len t).readIn st = true ↔ (st = .start → len = 3 ∨ 10 ≤ len) := by
  simp [Instr.readIn, imp_iff_not_or, or_assoc]

theorem lenField_le_one_iff {len : Nat} (hlen : 3 ≤ len) : lenField len Config.m4MaxLen ≤ 1 ↔ len = 3 ∨ 10 ≤ len := by
  simp only [lenField, Config.m4MaxLen]
  split <;> omega

/-- R101: an M4 header can be read anywhere but at START, and there with L ≤ 1 and H = 0: its control byte is 0x10 or 0x11. -/
theorem m4OrEos_readIn_iff {st : DecState} {len h d : Nat} (t : BitVec 2) (hlen : 3 ≤ len) (hd : d < 16384) :
    (m4OrEos len h d t).readIn st = true ↔ (st = .start → lenField len Config.m4MaxLen ≤ 1 ∧ h = 0) := by
  rw [lenField_le_one_iff hlen, m4OrEos]
  split
  · next h0 => simp [readIn_eos_iff, h0]
  · have hfar : 16384 + 16384 * h + d < 32768 ↔ h = 0 := by omega
    rw [readIn_m4_iff, hfar]

/-- Every well-formed M4 or end marker is the instruction of an M4 header's fields. -/
theorem exists_m4OrEos {i : Instr} (hwf : i.wf = true) (hi : (∃ len dist t, i = .m4 len dist t) ∨ ∃ len t, i = .eos len t) :
    ∃ len h d t, i = m4OrEos len h d t ∧ 3 ≤ len ∧ h ≤ 1 ∧ d < 16384 := by
  rcases hi with ⟨len, dist, t, rfl⟩ | ⟨len, t, rfl⟩
  · rw [wf_m4_iff] at hwf
    refine ⟨len, (dist - 16384) / 16384, (dist - 16384) % 16384, t, ?_, by omega, by omega, by omega⟩
    rw [m4OrEos, if_neg (by omega)]
    rw [show 16384 + 16384 * ((dist - 16384) / 16384) + (dist - 16384) % 16384 = dist by omega]
  · exact ⟨len, 0, 0, t, rfl, wf_eos_iff.mp hwf, by omega, by omega⟩

end Sys2Proof
end

section
/-! PROOFS. The decoder reads a token exactly where its encoding stands, kind by kind, and what follows from it (30_encoding.md R91 to R108,
42_decompressor.md R182). -/

namespace Sys2Proof

/-! ## From bytes to tokens -/

/-- `bs` begins with the encoding of a well-formed token that can be read in `st`, of `k` bytes. -/
structure Spelled (st : DecState) (bs : List Byte) (i : Instr) (k : Nat) : Prop where
  wf : i.wf = true
  readIn : i.readIn st = true
  length : k = (encode i).length
  bytes : ∃ rest, bs = encode i ++ rest

theorem litFirst_spelled {st : DecState} {c : Byte} (hk : kindOf st c = .litFirst) (rest : List Byte) :
    Spelled st (c :: rest) (.litf (c.toNat - 17)) 1 := by
  obtain ⟨rfl, hc⟩ := kindOf_eq_litFirst_iff.mp hk
  have := c.isLt
  refine ⟨wf_litf_iff.mpr (by omega), rfl, rfl, rest, ?_⟩
  rw [encode, ofNat_eq_of_toNat (c := c) (by omega)]
  rfl

theorem decodeLit_spelled {st : DecState} {c : Byte} {rest : List Byte} {i : Instr} {k : Nat} (hk : kindOf st c = .litRun)
    (h : decodeLit c rest = .ok (i, k)) : Spelled st (c :: rest) i k := by
  obtain ⟨hst, hc⟩ := kindOf_eq_litRun_iff.mp hk
  unfold decodeLit at h
  split at h
  · next h0 =>
    split at h
    · next n k' hext =>
      cases h
      obtain ⟨-, -, hn⟩ := decodeExt_ok hext
      obtain ⟨rfl, more, rfl⟩ := extBytes_of_decodeExt hext
      refine ⟨wf_litLong_iff.mpr (by omega), by simpa [Instr.readIn] using hst, ?_, more, by rw [h0]; rfl⟩
      rw [encode, List.length_cons, Nat.add_comm]
    · cases h
  · next h0 =>
    cases h
    have hpos : c.toNat ≠ 0 := fun hz => h0 (BitVec.eq_of_toNat_eq hz)
    refine ⟨wf_litShort_iff.mpr (by omega), by simpa [Instr.readIn] using hst, rfl, rest, ?_⟩
    rw [encode, ofNat_eq_of_toNat (c := c) (by omega)]
    rfl

theorem decodeM1s_spelled {st : DecState} {c : Byte} {rest : List Byte} {i : Instr} {k : Nat} (hk : kindOf st c = .m1s)
    (h : decodeM1s c rest = .ok (i, k)) : Spelled st (c :: rest) i k := by
  obtain ⟨hst, hc⟩ := kindOf_eq_m1s_iff.mp hk
  cases rest with
  | nil => cases h
  | cons b1 rest =>
    cases h
    have h1 := b1.isLt
    have ht := trailField_toNat c
    have hb := bits_3_2 c
    refine ⟨wf_m1s_iff.mpr (by omega), by simpa [Instr.readIn, or_assoc] using hst, rfl, rest, ?_⟩
    rw [encode_m1s, pairBytes_of_toNat (b0 := c) (b1 := b1) (by omega) (by omega)]
    rfl

theorem decodeM1l_spelled {st : DecState} {c : Byte} {rest : List Byte} {i : Instr} {k : Nat} (hk : kindOf st c = .m1l)
    (h : decodeM1l c rest = .ok (i, k)) : Spelled st (c :: rest) i k := by
  obtain ⟨rfl, hc⟩ := kindOf_eq_m1l_iff.mp hk
  cases rest with
  | nil => cases h
  | cons b1 rest =>
    cases h
    have h1 := b1.isLt
    have ht := trailField_toNat c
    have hb := bits_3_2 c
    refine ⟨wf_m1l_iff.mpr (by omega), rfl, rfl, rest, ?_⟩
    rw [encode_m1l, pairBytes_of_toNat (b0 := c) (b1 := b1) (by omega) (by omega)]
    rfl

theorem decodeM2_spelled {st : DecState} {c : Byte} {rest : List Byte} {i : Instr} {k : Nat} (hk : kindOf st c = .m2)
    (h : decodeM2 c rest = .ok (i, k)) : Spelled st (c :: rest) i k := by
  obtain ⟨hst, hc⟩ := kindOf_eq_m2_iff.mp hk
  cases rest with
  | nil => cases h
  | cons b1 rest =>
    cases h
    have h0 := c.isLt
    have h1 := b1.isLt
    have ht := trailField_toNat c
    have hdist := bits_4_2 c
    have hlen := bits_7_5 c
    refine ⟨wf_m2_iff.mpr (by omega), by simpa [Instr.readIn] using hst, rfl, rest, ?_⟩
    rw [encode_m2, pairBytes_of_toNat (b0 := c) (b1 := b1) (by omega) (by omega)]
    rfl

theorem decodeM3_spelled {st : DecState} {c : Byte} {rest : List Byte} {i : Instr} {k : Nat} (hk : kindOf st c = .m3)
    (h : decodeM3 c rest = .ok (i, k)) : Spelled st (c :: rest) i k := by
  obtain ⟨hst, hlo, hhi⟩ := kindOf_eq_m3_iff.mp hk
  obtain ⟨len, b0, b1, more, hlen, hfield, rfl, rfl, rfl⟩ := decodeM3_eq_ok_iff.mp h
  have hd := distField_lt b0 b1
  have hb := bits_4_0 c
  have henc : encode (.m3 len (1 + distField b0 b1) (trailField b0)) = c :: (lenExt len Config.m3MaxLen ++ [b0, b1]) := by
    rw [encode_m3, ofNat_eq_of_toNat (c := c) (by omega), Nat.add_sub_cancel_left, pairBytes_distField]
  refine ⟨wf_m3_iff.mpr (by omega), by simpa [Instr.readIn] using hst, ?_, more, ?_⟩
  · simp only [henc, List.length_cons, List.length_append, List.length_nil]
    omega
  · simp [henc]

theorem decodeM4_spelled {st : DecState} {c : Byte} {rest : List Byte} {i : Instr} {k : Nat} (hk : kindOf st c = .m4OrEos)
    (h : decodeM4 c rest = .ok (i, k)) : Spelled st (c :: rest) i k := by
  obtain ⟨hlo, hhi, hst⟩ := kindOf_eq_m4OrEos_iff.mp hk
  obtain ⟨len, b0, b1, more, hlen, hfield, rfl, rfl, rfl⟩ := decodeM4_eq_ok_iff.mp h
  have hd := distField_lt b0 b1
  have hb := bits_2_0 c
  have hh := bits_3_3 c
  have henc : encode (m4OrEos len (bits c 3 3) (distField b0 b1) (trailField b0)) =
      c :: (lenExt len Config.m4MaxLen ++ [b0, b1]) := by
    rw [encode_m4OrEos hd, ofNat_eq_of_toNat (c := c) (by omega), pairBytes_distField]
  refine ⟨m4OrEos_wf _ hlen (by omega) hd, (m4OrEos_readIn_iff _ hlen hd).mpr fun hs => ?_, ?_, more, ?_⟩
  · have := hst hs
    omega
  · simp only [henc, List.length_cons, List.length_append, List.length_nil]
    omega
  · simp [henc]

/-- What the decoder reads is spelled as the encoder spells it. -/
theorem spelled_of_decodeToken {st : DecState} {bs : List Byte} {i : Instr} {k : Nat} (h : decodeToken st bs = .ok (i, k)) :
    Spelled st bs i k := by
  cases bs with
  | nil => cases h
  | cons c rest =>
    simp only [decodeToken] at h
    cases hk : kindOf st c <;> simp only [hk] at h
    case litFirst => cases h; exact litFirst_spelled hk rest
    case litRun => exact decodeLit_spelled hk h
    case m1s => exact decodeM1s_spelled hk h
    case m1l => exact decodeM1l_spelled hk h
    case m2 => exact decodeM2_spelled hk h
    case m3 => exact decodeM3_spelled hk h
    case m4OrEos => exact decodeM4_spelled hk h

/-! ## From tokens to bytes -/

section
variable {st : DecState} (rest : List Byte)

theorem decodeToken_encode_litf {n : Nat} (hwf : (Instr.litf n).wf = true) (hread : (Instr.litf n).readIn st = true) :
    decodeToken st (encode (.litf n) ++ rest) = .ok (.litf n, (encode (.litf n)).length) := by
  rw [wf_litf_iff] at hwf
  have hc : (BitVec.ofNat 8 (17 + n)).toNat = 17 + n := toNat_ofNat_byte (by omega)
  have hk : kindOf st (BitVec.ofNat 8 (17 + n)) = .litFirst :=
    kindOf_eq_litFirst_iff.mpr ⟨by simpa [Instr.readIn] using hread, by omega⟩
  simp only [encode, List.cons_append, decodeToken, hk, hc, Nat.add_sub_cancel_left]
  rfl

theorem decodeToken_encode_litShort {n : Nat} (hwf : (Instr.litShort n).wf = true)
    (hread : (Instr.litShort n).readIn st = true) :
    decodeToken st (encode (.litShort n) ++ rest) = .ok (.litShort n, (encode (.litShort n)).length) := by
  rw [wf_litShort_iff] at hwf
  have hc : (BitVec.ofNat 8 (n - 3)).toNat = n - 3 := toNat_ofNat_byte (by omega)
  have hk : kindOf st (BitVec.ofNat 8 (n - 3)) = .litRun :=
    kindOf_eq_litRun_iff.mpr ⟨by simpa [Instr.readIn] using hread, by omega⟩
  have h0 : BitVec.ofNat 8 (n - 3) ≠ 0 := fun hz => by simp [hz] at hc; omega
  simp only [encode, List.cons_append, decodeToken, hk, decodeLit, h0, if_false, hc, show n - 3 + 3 = n by omega]
  rfl

theorem decodeToken_encode_litLong {n : Nat} (hwf : (Instr.litLong n).wf = true)
    (hread : (Instr.litLong n).readIn st = true) :
    decodeToken st (encode (.litLong n) ++ rest) = .ok (.litLong n, (encode (.litLong n)).length) := by
  rw [wf_litLong_iff] at hwf
  have hk : kindOf st 0 = .litRun := kindOf_eq_litRun_iff.mpr ⟨by simpa [Instr.readIn] using hread, by decide⟩
  simp only [encode, List.cons_append, decodeToken, hk, decodeLit, if_true, decodeExt_extBytes 18 (n - 18) rest (by omega),
    show 18 + (n - 18) = n by omega, List.length_cons, Nat.add_comm 1]

theorem decodeToken_encode_m1s {dist : Nat} {t : BitVec 2} (hwf : (Instr.m1s dist t).wf = true)
    (hread : (Instr.m1s dist t).readIn st = true) :
    decodeToken st (encode (.m1s dist t) ++ rest) = .ok (.m1s dist t, (encode (.m1s dist t)).length) := by
  rw [wf_m1s_iff] at hwf
  have ht := t.isLt
  obtain ⟨c, b1, hbytes, hc, hb1⟩ := exists_pairBytes (top := 0) (m := 4) (d := dist - 1) t (by omega) (by omega)
  have hk : kindOf st c = .m1s := kindOf_eq_m1s_iff.mpr ⟨by simpa [Instr.readIn, or_assoc] using hread, by omega⟩
  have htrail : trailField c = t := trailField_eq_iff.mpr (by omega)
  have hdist : 1 + c.toNat / 4 % 4 + 4 * b1.toNat = dist := by omega
  rw [encode_m1s, hbytes]
  simp only [List.cons_append, decodeToken, hk, decodeM1s, bits_3_2, hdist, htrail]
  rfl

theorem decodeToken_encode_m1l {dist : Nat} {t : BitVec 2} (hwf : (Instr.m1l dist t).wf = true)
    (hread : (Instr.m1l dist t).readIn st = true) :
    decodeToken st (encode (.m1l dist t) ++ rest) = .ok (.m1l dist t, (encode (.m1l dist t)).length) := by
  rw [wf_m1l_iff] at hwf
  have ht := t.isLt
  obtain ⟨c, b1, hbytes, hc, hb1⟩ := exists_pairBytes (top := 0) (m := 4) (d := dist - 2049) t (by omega) (by omega)
  have hk : kindOf st c = .m1l := kindOf_eq_m1l_iff.mpr ⟨by simpa [Instr.readIn] using hread, by omega⟩
  have htrail : trailField c = t := trailField_eq_iff.mpr (by omega)
  have hdist : 2049 + c.toNat / 4 % 4 + 4 * b1.toNat = dist := by omega
  rw [encode_m1l, hbytes]
  simp only [List.cons_append, decodeToken, hk, decodeM1l, bits_3_2, hdist, htrail]
  rfl

theorem decodeToken_encode_m2 {len dist : Nat} {t : BitVec 2} (hwf : (Instr.m2 len dist t).wf = true)
    (hread : (Instr.m2 len dist t).readIn st = true) :
    decodeToken st (encode (.m2 len dist t) ++ rest) = .ok (.m2 len dist t, (encode (.m2 len dist t)).length) := by
  rw [wf_m2_iff] at hwf
  have ht := t.isLt
  obtain ⟨c, b1, hbytes, hc, hb1⟩ := exists_pairBytes (top := 32 * (len - 1)) (m := 8) (d := dist - 1) t (by omega) (by omega)
  have hk : kindOf st c = .m2 := kindOf_eq_m2_iff.mpr ⟨by simpa [Instr.readIn] using hread, by omega⟩
  have htrail : trailField c = t := trailField_eq_iff.mpr (by omega)
  have hlen : c.toNat / 32 + 1 = len := by omega
  have hdist : 1 + c.toNat / 4 % 8 + 8 * b1.toNat = dist := by omega
  rw [encode_m2, hbytes]
  simp only [List.cons_append, decodeToken, hk, decodeM2, bits_7_5, bits_4_2, hlen, hdist, htrail]
  rfl

theorem decodeToken_encode_m3 {len dist : Nat} {t : BitVec 2} (hwf : (Instr.m3 len dist t).wf = true)
    (hread : (Instr.m3 len dist t).readIn st = true) :
    decodeToken st (encode (.m3 len dist t) ++ rest) = .ok (.m3 len dist t, (encode (.m3 len dist t)).length) := by
  obtain ⟨hlen, hnear, hfar⟩ := wf_m3_iff.mp hwf
  have hfield : lenField len Config.m3MaxLen ≤ 31 := lenField_le len _
  have hc : (BitVec.ofNat 8 (0x20 + lenField len Config.m3MaxLen)).toNat = 0x20 + lenField len Config.m3MaxLen :=
    toNat_ofNat_byte (by omega)
  have hk : kindOf st (BitVec.ofNat 8 (0x20 + lenField len Config.m3MaxLen)) = .m3 :=
    kindOf_eq_m3_iff.mpr ⟨by simpa [Instr.readIn] using hread, by omega, by omega⟩
  obtain ⟨b0, b1, hbytes, hd, ht⟩ := exists_distBytes (d := dist - 1) (by omega) t
  rw [encode_m3, hbytes]
  simp only [List.cons_append, List.append_assoc, decodeToken, hk]
  refine decodeM3_eq_ok_iff.mpr ⟨len, b0, b1, rest, hlen, ?_, rfl, ?_, ?_⟩
  · rw [bits_4_0]
    omega
  · rw [hd, ht, show 1 + (dist - 1) = dist by omega]
  · simp only [List.length_cons, List.length_append, List.length_nil]
    omega

theorem decodeToken_encode_m4OrEos {len h d : Nat} (t : BitVec 2) (hlen : 3 ≤ len) (hh : h ≤ 1) (hd : d < 16384)
    (hread : (m4OrEos len h d t).readIn st = true) :
    decodeToken st (encode (m4OrEos len h d t) ++ rest) = .ok (m4OrEos len h d t, (encode (m4OrEos len h d t)).length) := by
  rw [m4OrEos_readIn_iff t hlen hd] at hread
  have hfield : lenField len Config.m4MaxLen ≤ 7 := lenField_le len _
  have hc : (BitVec.ofNat 8 (0x10 + 8 * h + lenField len Config.m4MaxLen)).toNat =
      0x10 + 8 * h + lenField len Config.m4MaxLen := toNat_ofNat_byte (by omega)
  have hk : kindOf st (BitVec.ofNat 8 (0x10 + 8 * h + lenField len Config.m4MaxLen)) = .m4OrEos :=
    kindOf_eq_m4OrEos_iff.mpr ⟨by omega, by omega, fun hs => by have := hread hs; omega⟩
  obtain ⟨b0, b1, hbytes, hdist, ht⟩ := exists_distBytes hd t
  rw [encode_m4OrEos hd, hbytes]
  simp only [List.cons_append, List.append_assoc, decodeToken, hk]
  refine decodeM4_eq_ok_iff.mpr ⟨len, b0, b1, rest, hlen, ?_, rfl, ?_, ?_⟩
  · rw [bits_2_0]
    omega
  · rw [bits_3_3, hdist, ht, show _ / 8 % 2 = h by omega]
  · simp only [List.length_cons, List.length_append, List.length_nil]
    omega

/-- R94 to R106: a token that can be read decodes from its encoding, whatever follows. -/
theorem decodeToken_encode {i : Instr} (hwf : i.wf = true) (hread : i.readIn st = true) :
    decodeToken st (encode i ++ rest) = .ok (i, (encode i).length) := by
  cases i with
  | litf => exact decodeToken_encode_litf rest hwf hread
  | litShort => exact decodeToken_encode_litShort rest hwf hread
  | litLong => exact decodeToken_encode_litLong rest hwf hread
  | m1s => exact decodeToken_encode_m1s rest hwf hread
  | m1l => exact decodeToken_encode_m1l rest hwf hread
  | m2 => exact decodeToken_encode_m2 rest hwf hread
  | m3 => exact decodeToken_encode_m3 rest hwf hread
  | m4 len dist t =>
    obtain ⟨len, h, d, t, hi, hlen, hh, hd⟩ := exists_m4OrEos hwf (.inl ⟨_, _, _, rfl⟩)
    rw [hi] at hread ⊢
    exact decodeToken_encode_m4OrEos rest t hlen hh hd hread
  | eos len t =>
    obtain ⟨len, h, d, t, hi, hlen, hh, hd⟩ := exists_m4OrEos hwf (.inr ⟨_, _, rfl⟩)
    rw [hi] at hread ⊢
    exact decodeToken_encode_m4OrEos rest t hlen hh hd hread
  | init | compress | decompress | reservedCmd3 => cases hread

end

/-! ## The statements -/

/-- Settles O1, token by token. -/
theorem tokenDecodeOfEncode : Obligations.TokenDecodeOfEncode := fun _ _ rest hwf hread => decodeToken_encode rest hwf hread

/-- Settles O2, by the kinds of the decode map. -/
theorem tokenHasOneSpelling : Obligations.TokenHasOneSpelling := by
  intro st bs i k h
  obtain ⟨hwf, hread, rfl, rest, rfl⟩ := spelled_of_decodeToken h
  exact ⟨hwf, hread, rfl, List.take_left⟩

/-- Settles O4: a token read from fewer bytes would be read from the whole header too, where only `i` is. -/
theorem headerPrefixOverruns : Obligations.HeaderPrefixOverruns := by
  intro i st j hwf hread hj
  cases hd : decodeToken st ((encode i).take j) with
  | error e => rfl
  | ok r =>
    obtain ⟨i', k⟩ := r
    obtain ⟨-, hk⟩ := decodeToken_length hd
    obtain ⟨hwf', hread', rfl, rest, hrest⟩ := spelled_of_decodeToken hd
    have hsplit : encode i = encode i' ++ (rest ++ (encode i).drop j) := by
      rw [← List.append_assoc, ← hrest, List.take_append_drop]
    have hwhole := decodeToken_encode [] hwf hread
    rw [List.append_nil, hsplit, decodeToken_encode _ hwf' hread', ← hsplit] at hwhole
    have hlen : (encode i').length = (encode i).length := congrArg Prod.snd (Except.ok.inj hwhole)
    rw [List.length_take] at hk
    omega

/-- Three bytes 0x01 hold any length field's extension, where there is one, and two distance bytes after it. -/
theorem decodeLen_ones (field base : Nat) :
    ∃ len k b0 b1 rest, decodeLen field base [1, 1, 1] = .ok (len, k) ∧ [1, 1, 1].drop k = (b0 :: b1 :: rest : List Byte) := by
  unfold decodeLen
  split
  · exact ⟨base + 1, 1, 1, 1, [], decodeExt_nonzero (by decide) _ _, rfl⟩
  · exact ⟨field + 2, 0, 1, 1, [1], rfl, rfl⟩

/-- Three bytes 0x01 complete every header (R93, R108). -/
theorem decodeToken_ones (st : DecState) (c : Byte) : ∃ i k, decodeToken st [c, 1, 1, 1] = .ok (i, k) := by
  simp only [decodeToken]
  cases kindOf st c with
  | litFirst | m1s | m1l | m2 => exact ⟨_, _, rfl⟩
  | litRun =>
    by_cases h0 : c = 0
    · exact ⟨.litLong 19, 2, by rw [h0]; rfl⟩
    · exact ⟨.litShort (c.toNat + 3), 1, if_neg h0⟩
  | m3 =>
    obtain ⟨len, k, b0, b1, rest, hlen, hd⟩ := decodeLen_ones (bits c 4 0) Config.m3MaxLen
    exact ⟨_, _, by simp only [decodeM3, hlen, hd]; rfl⟩
  | m4OrEos =>
    obtain ⟨len, k, b0, b1, rest, hlen, hd⟩ := decodeLen_ones (bits c 2 0) Config.m4MaxLen
    simp only [decodeM4, hlen, hd]
    split <;> exact ⟨_, _, rfl⟩

/-- Settles O6: the token read from the control byte and three bytes 0x01 is read wherever its encoding stands. -/
theorem everyControlByteDecodes : Obligations.EveryControlByteDecodes := by
  intro st c
  obtain ⟨i, k, hd⟩ := decodeToken_ones st c
  obtain ⟨hwf, hread, -, rest, hbytes⟩ := spelled_of_decodeToken hd
  cases henc : encode i with
  | nil =>
    have hlen := decodeToken_length (decodeToken_encode [] hwf hread)
    simp [henc] at hlen
  | cons c' more =>
    rw [henc, List.cons_append] at hbytes
    obtain ⟨rfl, -⟩ := List.cons.inj hbytes
    refine ⟨more, i, fun rest => ?_⟩
    rw [← List.cons_append, ← henc, decodeToken_encode rest hwf hread, henc, List.length_cons, Nat.add_comm]

/-- Settles O7, by evaluation of the decoder on each word. -/
theorem specWordsDecode : Obligations.SpecWordsDecode := by
  unfold Obligations.SpecWordsDecode
  decide

end Sys2Proof

namespace Sys2Proof.Machine

/-- Settles O16: the stream decodes to the token it begins with. -/
theorem stepRunsEncodedToken : Obligations.StepRunsEncodedToken := by
  intro s i rest hs hh hwf hread hstream
  obtain ⟨hstep, -⟩ := stepRunsDecodedToken s i _ hs (hstream ▸ decodeToken_encode rest hwf hread)
  exact hstep hh

end Sys2Proof.Machine
end

section
/-! PROOFS. A whole DECOMPRESS of a first literal run and the end marker, step by step (30_encoding.md R94, R103, 43_commands.md R215). -/

namespace Sys2Proof.Machine

/-! ## The start of a DECOMPRESS -/

/-- The start checks of DECOMPRESS that pass (R212). -/
theorem startError_eq_none {s : State} (hinit : s.csr.initOk = true) (hspace : s.inSpace = true) (hover : s.overlap = false) :
    s.startError false = none := by
  simp [State.startError, hinit, hspace, hover]

/-- On a ready block the first step of DECOMPRESS goes to the first token (R181, R212). -/
theorem step_decompress_of_ready {s : State} (h : s.Ready) (ie strict : Bool) :
    step (s.acceptStart 2 ie strict (.runDecompress .check)) =
      .next (s.acceptStart 2 ie strict (.runDecompress .check)).beginDecompress := by
  obtain ⟨-, -, hh, hinit, hspace, hover⟩ := h
  rw [step_engine (s := s.acceptStart 2 ie strict (.runDecompress .check)) hh, engineStep_checkDecompress rfl,
    State.checkDecompress, startError_eq_none (s := s.acceptStart 2 ie strict (.runDecompress .check)) hinit hspace hover]

/-- The first token of a DECOMPRESS on a ready block is read in an undisturbed command. -/
theorem beginDecompress_decoding {s : State} (h : s.Ready) (ie strict : Bool) :
    (s.acceptStart 2 ie strict (.runDecompress .check)).beginDecompress.Decoding := by
  have hinv := acceptStart_inv h.1 ie strict (.inr (.inr ⟨rfl, rfl⟩))
  exact ⟨stepKeepsInvariant _ _ hinv (step_decompress_of_ready h ie strict), rfl, rfl⟩

/-! ## Tokens of an undisturbed command -/

/-- Consuming a header leaves the command undisturbed. -/
theorem consumed_decoding {s : State} (hs : s.Decoding) {i : Instr} {k : Nat} (hk : s.dp.ip + k ≤ s.srcLen) :
    (s.consumed i k).Decoding := by
  obtain ⟨hinv, hf, hraced⟩ := hs
  obtain ⟨hstarted, hip⟩ := decoding_started hinv hf
  have hw := writing_of_started hstarted (dstWritten_of_inv hinv)
  have hkept := settle_kept_of_decoded hinv hf (r := .ok (s.consumed i k)) (consumed_decoded hw hip (by omega))
  exact ⟨hkept.1, hf, hraced⟩

/-- SRC keeps its bytes where only DST is written (R75). -/
theorem src_of_onlyDst {s u : State} (hover : s.overlap = false) (hcsr : u.csr = s.csr) {lo hi : Nat}
    (h : s.OnlyDst u.mem lo hi) (hcap : hi ≤ s.dstCap) {i : Nat} (hlen : i < s.srcLen) : u.src i = s.src i := by
  have haddr : u.srcAddr i = s.srcAddr i := by rw [State.srcAddr, State.srcAddr, hcsr]
  rw [State.src, State.src, haddr]
  exact h _ fun j _ hj => srcAddr_ne_dstAddr hover hlen (by omega)

/-- A first literal run that fits is copied to DST, and the command goes on past it (R94, R181, R184). -/
theorem step_firstLiterals {s : State} {n : Nat} (hs : s.Decoding) (hh : s.host = []) (hst : s.dp.sreg = .start)
    (hip : s.dp.ip = 0) (hop : s.dp.op = 0) (h1 : 1 ≤ n) (hn : n ≤ 238) (hc : s.src 0 = BitVec.ofNat 8 (17 + n))
    (hhave : 1 + n ≤ s.srcLen) (hfit : n ≤ s.dstCap) :
    ∃ m d, step s = .next { s with mem := m, dp := d } ∧ d.ip = 1 + n ∧ d.op = n ∧
      (∀ j, j < n → Store.read m (s.dstAddr j) = s.src (1 + j)) ∧ s.OnlyDst m 0 n := by
  have hstream : s.stream = encode (.litf n) ++ s.srcFrom (s.srcLen - 1) 1 := by
    rw [State.stream, hip, show s.srcLen - 0 = s.srcLen - 1 + 1 by omega, State.srcFrom, hc]
    rfl
  have hstep := stepRunsEncodedToken s _ _ hs hh (wf_litf_iff.mpr ⟨h1, hn⟩) (by simp [Instr.readIn, hst]) hstream
  obtain ⟨-, -, hcopy⟩ := (literalTokens n).1 _ (consumed_decoding (i := .litf n) (k := 1) hs (by omega))
  have hip' : (s.consumed (.litf n) 1).dp.ip = 1 := congrArg (· + 1) hip
  have hop' : (s.consumed (.litf n) 1).dp.op = 0 := hop
  rw [hip', hop', Nat.zero_add] at hcopy
  obtain ⟨m, hexec, -, hcopied, hframe⟩ := hcopy hfit hhave
  simp only [Nat.zero_add] at hcopied
  exact ⟨m, _, hstep.trans hexec, rfl, rfl, hcopied, hframe⟩

/-- The end marker of a running DECOMPRESS ends it with the code of R191's checks and both cursors as its counts. -/
theorem exec_eos {s : State} (hf : s.fsm = .runDecompress .fetch) (len : Nat) (t : BitVec 2) : exec (.eos len t) s =
    .next (({ s with dp := { s.dp with len := len } } : State).endedWith s.eosCode.code s.dp.op s.dp.ip) :=
  congrArg Host.Outcome.next (terminate_fetch (s := { s with dp := { s.dp with len := len } }) hf s.eosCode)

/-- The end marker with nothing after it, and the length STRICT expects before it, is no error (R191). -/
theorem eosCode_eq_ok {s : State} (hip : s.dp.ip = s.srcLen) (hexp : s.csr.strict = true → s.dp.op = s.csr.expLen.toNat) :
    s.eosCode = .ok := by
  rw [State.eosCode, if_neg (by omega), if_neg]
  exact fun ⟨hstrict, hne⟩ => hne (hexp hstrict)

/-- The bytes `11 00 00` at the end of SRC end the command OK, with the length STRICT expects (R103, R191). -/
theorem step_eos {s : State} (hs : s.Decoding) (hh : s.host = []) (hstream : s.stream = [0x11, 0x00, 0x00])
    (hexp : s.csr.strict = true → s.dp.op = s.csr.expLen.toNat) :
    ∃ d, step s = .next (({ s with dp := d } : State).endedWith 0 s.dp.op s.srcLen) := by
  obtain ⟨-, hf, -⟩ := id hs
  have hleft : s.srcLen - s.dp.ip = 3 := by rw [← stream_length, hstream]; rfl
  have hread : (Instr.eos 3 0).readIn s.dp.sreg = true := readIn_eos_iff.mpr fun _ => .inl rfl
  have hip : (s.consumed (.eos 3 0) 3).dp.ip = s.srcLen := by
    change s.dp.ip + 3 = s.srcLen
    omega
  have hcode := eosCode_eq_ok (s := s.consumed (.eos 3 0) 3) hip hexp
  have hstep := stepRunsEncodedToken s (.eos 3 0) [] hs hh rfl hread hstream
  have hend := exec_eos (s := s.consumed (.eos 3 0) 3) hf 3 0
  rw [hcode, hip] at hend
  exact ⟨_, hstep.trans hend⟩

theorem stream_of_three_left {s : State} (h : s.srcLen = s.dp.ip + 3) :
    s.stream = [s.src s.dp.ip, s.src (s.dp.ip + 1), s.src (s.dp.ip + 2)] := by
  rw [State.stream, h, Nat.add_sub_cancel_left]
  rfl

/-- Settles O21: the checks by `step_decompress_of_ready`, the literals by `step_firstLiterals`, the end by `step_eos`. -/
theorem firstLiteralStreamDecompresses : Obligations.FirstLiteralStreamDecompresses := by
  intro s n ie hready h1 hn hlen hcap hexp hc he0 he1 he2
  obtain ⟨-, hidle, hh, -, -, hover⟩ := id hready
  have hstart : exec (.decompress ie true) s = .next (s.acceptStart 2 ie true (.runDecompress .check)) := by
    rw [exec_decompress, startCommand_idle hidle]
  have hcheck := step_decompress_of_ready hready ie true
  have hdec := beginDecompress_decoding hready ie true
  set u := (s.acceptStart 2 ie true (.runDecompress .check)).beginDecompress
  obtain ⟨m, d, hlit, hip, hop, hcopied, hframe⟩ := step_firstLiterals (s := u) hdec hh rfl rfl rfl h1 hn hc
    (show 1 + n ≤ s.srcLen by omega) hcap
  set v : State := { u with mem := m, dp := d }
  have hsrc (i : Nat) (hi : i < s.srcLen) : v.src i = s.src i := src_of_onlyDst (s := u) (u := v) hover rfl hframe hcap hi
  have hstream : v.stream = [0x11, 0x00, 0x00] := by
    rw [stream_of_three_left (s := v) (show s.srcLen = d.ip + 3 by omega), show v.dp.ip = n + 1 from hip.trans (Nat.add_comm 1 n),
      hsrc _ (by omega), hsrc _ (by omega), hsrc _ (by omega), he0, he1, he2]
  obtain ⟨d', heos⟩ := step_eos (s := v) ⟨stepKeepsInvariant _ _ hdec.1 hlit, rfl, rfl⟩ hh hstream
    fun _ => hop.trans hexp.symm
  refine ⟨_, _, hstart, reaches_succ.mpr ⟨_, hcheck, reaches_succ.mpr ⟨_, hlit, reaches_succ.mpr ⟨_, heos, reaches_zero.mpr rfl⟩⟩⟩,
    rfl, ?_, hcopied, hframe⟩
  have hop' : v.dp.op = n := hop
  have hlen' : v.srcLen = n + 4 := hlen
  rw [hop', hlen']
  rfl

end Sys2Proof.Machine
end

section
/-! PROOFS. What the compressor emits, read as the encoder's bytes, and what the decoder reads back of it (40_primitives.md R132 to R139, R146,
41_compressor.md R162). -/

namespace Sys2Proof

open Sys2Proof.Machine

/-! ## The bits of an emitted byte, as sums -/

/-- Fields that share no bit add up. -/
theorem shiftLeft_or_eq_add {a b i : Nat} (h : b < 2 ^ i) : a <<< i ||| b = 2 ^ i * a + b := by
  rw [← Nat.shiftLeft_add_eq_or_of_lt h, Nat.shiftLeft_eq, Nat.mul_comm]

/-- The bits of a distance in the first byte of M2 (R135). -/
theorem and_seven_shiftLeft (d : Nat) : (d &&& 7) <<< 2 = 4 * (d % 8) := by
  rw [show 7 = 2 ^ 3 - 1 from rfl, Nat.and_two_pow_sub_one_eq_mod, Nat.shiftLeft_eq, Nat.mul_comm]

/-- The bits of a distance in the first distance byte of M3 and M4 (R136, R137). -/
theorem shiftLeft_two_and_byte (d : Nat) : (d <<< 2) &&& 0xFF = 4 * (d % 64) := by
  rw [show 0xFF = 2 ^ 8 - 1 from rfl, Nat.and_two_pow_sub_one_eq_mod, Nat.shiftLeft_eq]
  omega

/-- The bits of a distance in the last byte of M4 (R137). -/
theorem shiftRight_six_and_byte (d : Nat) : (d >>> 6) &&& 0xFF = d % 16384 / 64 := by
  rw [show 0xFF = 2 ^ 8 - 1 from rfl, Nat.and_two_pow_sub_one_eq_mod, Nat.shiftRight_eq_div_pow]
  omega

/-- Bit H of an M4 control byte: the distance is 32768 or more (R137). -/
theorem shiftRight_eleven_and_eight {d : Nat} (hd : d < 32768) : (d >>> 11) &&& 8 = 8 * (d / 16384) := by
  have hbit : ∀ x, x < 16 → x &&& 8 = 8 * (x / 8) := by decide
  rw [Nat.shiftRight_eq_div_pow, hbit _ (by omega), Nat.div_div_eq_div_mul]

theorem or_m3_lenField {f : Nat} (hf : f < 32) : 0x20 ||| f = 0x20 + f := shiftLeft_or_eq_add (a := 1) (i := 5) hf

theorem or_m4_fields {h f : Nat} (hh : h < 2) (hf : f < 8) : 0x10 ||| 8 * h ||| f = 0x10 + 8 * h + f := by
  have hall : ∀ h < 2, ∀ f < 8, 0x10 ||| 8 * h ||| f = 0x10 + 8 * h + f := by decide
  exact hall h hh f hf

/-- T set in a byte whose two low bits are 0 (R104, R139). -/
theorem ofNat_or_setWidth {x : Nat} (h4 : x % 4 = 0) (t : BitVec 2) :
    BitVec.ofNat 8 x ||| t.setWidth 8 = BitVec.ofNat 8 (x + t.toNat) := by
  have ht := t.isLt
  apply BitVec.eq_of_toNat_eq
  rw [BitVec.toNat_or, BitVec.toNat_ofNat, BitVec.toNat_setWidth, Nat.mod_eq_of_lt (a := t.toNat) (by omega),
    BitVec.toNat_ofNat, show x % 2 ^ 8 = (x / 4 % 64) <<< 2 by rw [Nat.shiftLeft_eq]; omega, shiftLeft_or_eq_add (by omega)]
  omega

/-! ## Emitted tokens are encoded ones (R135 to R137) -/

theorem m2Bytes_eq (len dist : Nat) : m2Bytes len dist = encode (.m2 len dist 0) := by
  rw [encode_m2, m2Bytes, and_seven_shiftLeft, shiftLeft_or_eq_add (by omega), Nat.shiftRight_eq_div_pow]
  rfl

theorem m3Bytes_eq {len dist : Nat} (hlen : 3 ≤ len) : m3Bytes len dist = encode (.m3 len dist 0) := by
  rw [encode_m3, m3Bytes, shiftLeft_two_and_byte, Nat.shiftRight_eq_div_pow]
  by_cases hfit : len ≤ 33
  · simp [lenField, lenExt, hfit, or_m3_lenField (f := len - 2) (by omega), pairBytes]
  · simp [lenField, lenExt, hfit, pairBytes]

theorem m4Bytes_eq {len dist : Nat} (hlen : 3 ≤ len) (hdist : dist ≤ 49151) : m4Bytes len dist = encode (.m4 len dist 0) := by
  have hh : (dist - 16384) / 16384 < 2 := by omega
  rw [m4Bytes, shiftLeft_two_and_byte, shiftRight_six_and_byte, shiftRight_eleven_and_eight (by omega), encode]
  by_cases hfit : len ≤ 9
  · simp [lenField, lenExt, hfit, or_m4_fields hh (f := len - 2) (by omega)]
  · have hctrl := or_m4_fields hh (f := 0) (by decide)
    rw [Nat.or_zero] at hctrl
    simp [lenField, lenExt, hfit, hctrl]

/-- Settles O9, by the bytes of each of the three emitters. -/
theorem tokenChoiceEncodes : Obligations.TokenChoiceEncodes := by
  intro len dist hlen _ hdist
  unfold matchBytes
  split_ifs
  · exact m2Bytes_eq len dist
  · exact m3Bytes_eq (by omega)
  · exact m4Bytes_eq (by omega) hdist

/-! ## `Patch2` on an emitted token (R139) -/

theorem patchBytes_length (bs : List Byte) (t : BitVec 2) : (patchBytes bs t).length = bs.length := List.length_set

/-- `Patch2` sets T in the first of the two bytes that end a token. -/
theorem patchBytes_pairBytes {top : Nat} (htop : top % 4 = 0) (pre : List Byte) (m d : Nat) (t : BitVec 2) :
    patchBytes (pre ++ pairBytes top m d 0) t = pre ++ pairBytes top m d t := by
  have hor := ofNat_or_setWidth (x := top + 4 * (d % m)) (by omega) t
  simp [patchBytes, pairBytes, hor]

theorem patchBytes_m2 (len dist : Nat) (t : BitVec 2) : patchBytes (encode (.m2 len dist 0)) t = encode (.m2 len dist t) := by
  rw [encode_m2, encode_m2]
  exact patchBytes_pairBytes (by omega) [] _ _ t

theorem patchBytes_m3 (len dist : Nat) (t : BitVec 2) : patchBytes (encode (.m3 len dist 0)) t = encode (.m3 len dist t) := by
  rw [encode_m3, encode_m3, ← List.cons_append, ← List.cons_append]
  exact patchBytes_pairBytes rfl _ _ _ t

theorem encode_m4 (len dist : Nat) (t : BitVec 2) : encode (.m4 len dist t) =
    BitVec.ofNat 8 (0x10 + 8 * ((dist - 16384) / 16384) + lenField len Config.m4MaxLen) ::
      (lenExt len Config.m4MaxLen ++ pairBytes 0 64 ((dist - 16384) % 16384) t) := by
  simp [encode, pairBytes]

theorem patchBytes_m4 (len dist : Nat) (t : BitVec 2) : patchBytes (encode (.m4 len dist 0)) t = encode (.m4 len dist t) := by
  rw [encode_m4, encode_m4, ← List.cons_append, ← List.cons_append]
  exact patchBytes_pairBytes rfl _ _ _ t

/-! ## What is emitted decodes (R146) -/

/-- Bytes that `Patch2` makes the encoding of a token decode to it, and are as many as before. -/
theorem decodeToken_patchBytes {st : DecState} {bs : List Byte} {i : Instr} {t : BitVec 2} (h : patchBytes bs t = encode i)
    (hwf : i.wf = true) (hread : i.readIn st = true) (rest : List Byte) :
    decodeToken st (patchBytes bs t ++ rest) = .ok (i, bs.length) := by
  rw [← patchBytes_length bs t, h]
  exact decodeToken_encode rest hwf hread

/-- The header of a run is the encoding of a LIT, short or long (R133). -/
theorem litHeader_eq_encode (n : Nat) : litHeader n = encode (if n ≤ 18 then .litShort n else .litLong n) := by
  unfold litHeader
  split <;> rfl

/-- Settles O8: the emitted bytes are encodings, and those decode. -/
theorem emittedTokensDecode : Obligations.EmittedTokensDecode := by
  refine ⟨decodeExt_extBytes, fun st len dist t rest hst => ⟨fun h3 h8 h1 hd => ?_, fun h3 h1 hd => ?_, fun h3 h1 hd => ?_⟩,
    fun n rest h4 => ?_, fun n rest h1 h238 => ?_⟩
  · exact decodeToken_patchBytes (by rw [m2Bytes_eq, patchBytes_m2]) (wf_m2_iff.mpr ⟨h3, h8, h1, hd⟩)
      (by simpa [Instr.readIn] using hst) rest
  · exact decodeToken_patchBytes (by rw [m3Bytes_eq h3, patchBytes_m3]) (wf_m3_iff.mpr ⟨h3, h1, hd⟩)
      (by simpa [Instr.readIn] using hst) rest
  · exact decodeToken_patchBytes (by rw [m4Bytes_eq h3 hd, patchBytes_m4]) (wf_m4_iff.mpr ⟨h3, h1, hd⟩)
      (readIn_m4_iff.mpr fun h => absurd h hst) rest
  · rw [litHeader_eq_encode]
    split
    · next hshort => exact decodeToken_encode rest (wf_litShort_iff.mpr ⟨h4, hshort⟩) rfl
    · next hlong => exact decodeToken_encode rest (wf_litLong_iff.mpr (by omega)) rfl
  · exact decodeToken_encode rest (wf_litf_iff.mpr ⟨h1, h238⟩) rfl

end Sys2Proof
end

section
/-! PROOFS. The match-finder hash, a stream that ends inside a header, and a probe (40_primitives.md R140, R144, R145, 41_compressor.md R156,
R157). -/

namespace Sys2Proof.Machine

/-! ## The hash (R145) -/

/-- R145: the product modulo 2^32, shifted down to 14 bits. -/
theorem hashIndex_toNat (dv : BitVec 32) : (hashIndex dv).toNat = dv.toNat * 0x1824429D % 2 ^ 32 / 2 ^ 18 := by
  rw [hashIndex, BitVec.extractLsb'_toNat, BitVec.toNat_mul, BitVec.toNat_ofNat, Nat.shiftRight_eq_div_pow]
  exact Nat.mod_eq_of_lt (by omega)

/-- Settles O14, by `hashIndex_toNat`. -/
theorem hashTableValues : Obligations.HashTableValues := by
  refine ⟨?_, ?_, ?_, ?_, ?_, hashIndex_toNat⟩ <;> rw [hashIndex_toNat] <;> rfl

/-! ## A stream that ends inside a header (R140) -/

/-- Settles O17: the fetch finds no whole header, and the command ends with every byte consumed. -/
theorem truncatedHeaderEndsCommand : Obligations.TruncatedHeaderEndsCommand := by
  rintro s ⟨hinv, hf, hraced⟩ hh hd
  have hspace := (decoding_started hinv hf).1.inSpace
  have hfetch : s.fetchStep = .next s.overrun := by simp [State.fetchStep, hd]
  rw [step_engine hh, engineStep_fetch hf, running_undisturbed hspace hraced, hfetch, State.overrun,
    terminate_fetch (s := s.setIp s.srcLen) hf]
  rfl

/-! ## A probe (R144, R156, R157) -/

/-- R68, R144: the probed word, low byte first. -/
theorem le32_toNat (s : State) (p : Nat) : (s.le32 p).toNat =
    (s.src p).toNat + 2 ^ 8 * (s.src (p + 1)).toNat + 2 ^ 16 * (s.src (p + 2)).toNat + 2 ^ 24 * (s.src (p + 3)).toNat := by
  have h0 := (s.src p).isLt
  have h1 := (s.src (p + 1)).isLt
  have h2 := (s.src (p + 2)).isLt
  simp only [State.le32, BitVec.toNat_append]
  rw [shiftLeft_or_eq_add h2, shiftLeft_or_eq_add h1, shiftLeft_or_eq_add h0]
  omega

/-- Before the probe limit the step is a probe and what it leads to. -/
theorem step_probe {s : State} (h : s.Compressing .next) (hip : s.dp.ip < s.dp.ipEnd) : step s = .next s.probe.judge := by
  obtain ⟨hinv, hf, hraced, hh⟩ := h
  have hspace := ((stageOk_next hf).mp (stageOk_of_inv hinv)).1.inSpace
  rw [step_engine hh, engineStep_next hf, running_undisturbed hspace hraced, State.nextStep, if_neg (Nat.not_le.mpr hip)]

/-- What follows a probe changes only `ip` and the stage. -/
theorem judge_eq (s : State) : s.judge =
    if s.le32 s.dp.mPos = s.dp.dv then { s with fsm := .runCompress .hit }
    else { s with dp := { s.dp with ip := s.dp.ip + 1 + (s.dp.ip - s.dp.ii) / 32 } } := rfl

/-- Settles O24: the word by `le32_toNat`, the slot by the law of a table write, the candidate by `probe_mPos`. -/
theorem probeStep : Obligations.ProbeStep := by
  refine ⟨le32_toNat, fun s hs hip => ⟨_, step_probe hs hip, ?_, ?_, fun k => ?_, ?_⟩⟩
  all_goals rw [judge_eq]
  · split <;> rfl
  · split <;> rfl
  · have htbl := Store.read_write (tableOk_of_inv hs.1).wf (hashIndex (s.le32 s.dp.ip)).toNat k (BitVec.ofNat 16 (s.dp.ip - s.dp.blk))
    split <;> exact htbl
  · rintro c rfl
    obtain ⟨hinv, hf, -, -⟩ := hs
    obtain ⟨-, hb, -⟩ := (stageOk_next hf).mp (stageOk_of_inv hinv)
    refine ⟨(probe_mPos hb).2, fun hne => ?_, fun heq => ?_⟩
    · rw [if_neg (show ¬ s.probe.le32 s.probe.dp.mPos = s.probe.dp.dv from hne)]
      exact ⟨hf, rfl⟩
    · rw [if_pos (show s.probe.le32 s.probe.dp.mPos = s.probe.dp.dv from heq)]
      exact ⟨rfl, rfl⟩

end Sys2Proof.Machine
end

section
/-! PROOFS. The copy tokens in every case, and a copy of a match of the input (40_primitives.md R141, R142, R148, 42_decompressor.md R192, R193). -/

namespace Sys2Proof.Machine

/-- The trailing literals of every token are a literal copy, of no bytes where T = 0 (R193). -/
theorem trail_eq (t : BitVec 2) (s : State) :
    trail t s = (copyLiterals t.toNat s).andThen fun u => .ok (u.setS (.trail t)) := by
  unfold trail
  split
  · next h => subst h; rfl
  · rfl

/-- The state after the copy of a copy token, before its trailing literals (R192). -/
def State.copyDone (s : State) (len dist : Nat) (t : BitVec 2) (m : Memory) : State :=
  { s with mem := m, dp := { s.dp with op := s.dp.op + len, len := len, dist := dist, trail := t } }

section
variable (s : State) (len dist : Nat) (t : BitVec 2) (m : Memory)

@[simp] theorem State.copyDone_op : (s.copyDone len dist t m).dp.op = s.dp.op + len := rfl
@[simp] theorem State.copyDone_ip : (s.copyDone len dist t m).dp.ip = s.dp.ip := rfl
@[simp] theorem State.copyDone_dstCap : (s.copyDone len dist t m).dstCap = s.dstCap := rfl
@[simp] theorem State.copyDone_srcLen : (s.copyDone len dist t m).srcLen = s.srcLen := rfl

end

/-- The loop of `CopyMatch` leaves a copy in memory and moves `op` past it, and changes nothing else (R141). -/
theorem copyBack_copied {s : State} (len : Nat) {dist : Nat} (t : BitVec 2) (hwf : Store.wf s.mem = true) (h1 : 1 ≤ dist)
    (hd : dist ≤ s.dp.op) :
    ∃ m, copyBack dist len (s.latchCopy len dist t) = s.copyDone len dist t m ∧ s.Copied m len dist (s.dp.op + len) := by
  obtain ⟨hw, hop⟩ := copyBack_wrote dist len (s.latchCopy len dist t)
  refine ⟨_, ?_, hw.wf hwf, copyBack_reads dist len (s.latchCopy len dist t) hwf h1 hd, fun a ha => hw.frame hwf a ?_⟩
  · rw [hw.shape, hop]
    rfl
  · by_contra hin
    simp only [State.dstAddr, hop, State.latchCopy_csr, State.latchCopy_dp] at hin
    exact ha (a - s.csr.dstBase.toNat) (by omega) (by omega) (by simp only [State.dstAddr]; omega)

/-- Bytes written after a copy leave it in place. -/
theorem State.Copied.extend {s : State} {m m' : Memory} {len dist n : Nat} (h : s.Copied m len dist (s.dp.op + len))
    (hwf : Store.wf m' = true)
    (hframe : ∀ a, (∀ j, j < n → a ≠ s.dstAddr (s.dp.op + len + j)) → Store.read m' a = Store.read m a) :
    s.Copied m' len dist (s.dp.op + len + n) := by
  obtain ⟨-, hcopied, honly⟩ := h
  have hbelow (i : Nat) (hi : i < s.dp.op + len) : Store.read m' (s.dstAddr i) = Store.read m (s.dstAddr i) :=
    hframe _ fun j _ => by simp only [State.dstAddr]; omega
  refine ⟨hwf, fun j hj => ?_, fun a ha => ?_⟩
  · rw [hbelow _ (by omega), hbelow _ (by omega)]
    exact hcopied j hj
  · rw [hframe a fun j hj => ha _ (by omega) (by omega)]
    exact honly a fun j hlo hhi => ha j hlo (by omega)

/-- R192, R193: a token that copies `len` bytes at `dist` and then `t` literals does what the statement asks in every case. -/
theorem copyOutcome_of_exec {i : Instr} {len dist : Nat} {t : BitVec 2}
    (hexec : ∀ s, exec i s = s.guarded (copyToken len dist t s)) : CopyOutcome i len dist t := by
  rintro s ⟨hinv, hf, -⟩ h1
  obtain ⟨hstarted, hip⟩ := decoding_started hinv hf
  have hop := hstarted.op_le
  have hlatch : (s.latchCopy len dist t).fsm = .runDecompress .fetch := hf
  rw [hexec, guarded_inSpace hstarted.inSpace, copyToken]
  have hcases := copyMatch_cases dist len (s.latchCopy len dist t)
  simp only [State.latchCopy_dp, State.latchCopy_dstCap] at hcases
  rcases hcases with ⟨hback, hc⟩ | ⟨hback, hroom, hc⟩ | ⟨hback, hroom, hc⟩ <;> rw [hc]
  · refine ⟨fun _ => ?_, fun _ => by omega, fun _ => by omega, fun _ => by omega, fun _ => by omega⟩
    rw [Res.raise_andThen, Res.settle_raise, terminate_fetch hlatch]
    rfl
  · refine ⟨fun _ => by omega, fun _ _ => ?_, fun _ _ => by omega, fun _ _ => by omega, fun _ _ => by omega⟩
    rw [Res.raise_andThen, Res.settle_raise, terminate_fetch hlatch]
    rfl
  · refine ⟨fun _ => by omega, fun _ _ => by omega, ?_⟩
    obtain ⟨m, hm, hcopied⟩ := copyBack_copied len t (mem_wf_of_inv hinv) h1 hback
    obtain ⟨hwf, -, honly⟩ := id hcopied
    rw [hm, Res.ok_andThen, trail_eq]
    have hdone : (s.copyDone len dist t m).fsm = .runDecompress .fetch := hf
    have hcases := copyLiterals_cases t.toNat (s.copyDone len dist t m)
    simp only [State.copyDone_op, State.copyDone_ip, State.copyDone_dstCap, State.copyDone_srcLen] at hcases
    rcases hcases with ⟨hfull, hl⟩ | ⟨hfit, hshort, hl⟩ | ⟨hfit, hhave, hl⟩ <;> rw [hl]
    · refine ⟨fun _ _ _ => ⟨m, ?_, hcopied⟩, fun _ _ => by omega, fun _ _ => by omega⟩
      rw [Res.raise_andThen, Res.settle_raise, terminate_fetch hdone]
      rfl
    · refine ⟨fun _ _ _ => by omega, fun _ _ _ => ⟨m, ?_, hcopied⟩, fun _ _ _ => by omega⟩
      rw [Res.raise_andThen, Res.settle_raise, terminate_fetch hdone]
      rfl
    · refine ⟨fun _ _ _ => by omega, fun _ _ _ => by omega, fun _ _ _ => ?_⟩
      obtain ⟨m', hm', hwf', -, hframe, hlits⟩ := copyLits_spec t.toNat (s.copyDone len dist t m) hwf
      refine ⟨m', by rw [hm']; rfl, hcopied.extend hwf' hframe, fun j hj => ?_⟩
      rw [← src_of_onlyDst (u := s.copyDone len dist t m) hstarted.overlap rfl honly (by omega) (show s.dp.ip + j < s.srcLen by omega)]
      refine hlits (fun j k hj hk => ?_) j hj
      exact srcAddr_ne_dstAddr hstarted.overlap (i := s.dp.ip + j) (j := s.dp.op + len + k) (by omega) (by omega)

/-- Settles O11: the five copy tokens differ in their lengths only. -/
theorem copyTokens : Obligations.CopyTokens := fun _ _ _ =>
  ⟨copyOutcome_of_exec fun _ => rfl, copyOutcome_of_exec fun _ => rfl, copyOutcome_of_exec fun _ => rfl,
    copyOutcome_of_exec fun _ => rfl, copyOutcome_of_exec fun _ => rfl⟩

/-- R148: where DST holds the first bytes of a string that repeats itself `dist` back, a copy writes the bytes that follow. -/
theorem State.Copied.reads_string {s : State} {m : Memory} {len dist hi : Nat} (h : s.Copied m len dist hi) (h1 : 1 ≤ dist)
    (hd : dist ≤ s.dp.op) {x : Nat → Byte} (hx : ∀ j, j < s.dp.op → s.dst j = x j)
    (hrep : ∀ k, k < len → x (s.dp.op - dist + k) = x (s.dp.op + k)) (j : Nat) (hj : j < s.dp.op + len) :
    Store.read m (s.dstAddr j) = x j := by
  obtain ⟨-, hcopied, honly⟩ := h
  induction j using Nat.strong_induction_on with
  | _ j ih =>
    by_cases hold : j < s.dp.op
    · rw [← hx j hold]
      refine honly _ fun k hlo _ => ?_
      simp only [State.dstAddr]
      omega
    · obtain ⟨k, rfl⟩ := Nat.exists_eq_add_of_le (Nat.le_of_not_lt hold)
      rw [hcopied k (by omega), ih _ (by omega) (by omega), ← hrep k (by omega)]
      congr 1
      omega

/-- Settles O13: the copy of `copyTokens` with T = 0, by `State.Copied.reads_string`. -/
theorem copyReproducesMatch : Obligations.CopyReproducesMatch := by
  intro s x len dist hs h1 hd hfit hx hrep
  obtain ⟨hinv, hf, -⟩ := id hs
  obtain ⟨-, hip⟩ := decoding_started hinv hf
  obtain ⟨-, -, -, -, hm4⟩ := copyTokens len dist 0
  obtain ⟨-, -, -, -, hcopy⟩ := hm4 s hs h1
  obtain ⟨m, hexec, hcopied, -⟩ := hcopy hd hfit hip
  exact ⟨_, hexec, rfl, hcopied.reads_string h1 hd hx hrep⟩

end Sys2Proof.Machine
end

section
/-! PROOFS. The compressor's output as one byte string: a run's header, `Patch2` where it has none, the run's literals and what follows them are
emitted whole where they fit DST, and fill it where they do not (40_primitives.md R133, R139, R143, R147, 41_compressor.md R165, R167). -/

namespace Sys2Proof.Machine

/-! ## Byte strings in DST -/

/-- DST holds a concatenation where it holds the parts one after the other. -/
theorem holds_append {s : State} {i : Nat} {as bs : List Byte} :
    s.Holds i (as ++ bs) ↔ s.Holds i as ∧ s.Holds (i + as.length) bs := by
  constructor
  · refine fun h => ⟨fun j hj => ?_, fun j hj => ?_⟩
    · rw [h j (by rw [List.length_append]; omega), List.getElem_append_left hj]
    · rw [Nat.add_assoc, h (as.length + j) (by rw [List.length_append]; omega), List.getElem_append_right (by omega)]
      simp
  · rintro ⟨ha, hb⟩ j hj
    by_cases hlt : j < as.length
    · rw [ha j hlt, List.getElem_append_left hlt]
    · rw [List.length_append] at hj
      have hbj := hb (j - as.length) (by omega)
      rw [show i + as.length + (j - as.length) = i + j by omega] at hbj
      rw [hbj, List.getElem_append_right (by omega)]

/-- DST holds bytes of SRC. -/
theorem holds_srcFrom {s t : State} {n i k : Nat} : t.Holds i (s.srcFrom n k) ↔ ∀ j, j < n → t.dst (i + j) = s.src (k + j) :=
  ⟨fun h j hj => (h j (by simpa using hj)).trans (srcFrom_getElem s n k j _),
    fun h j hj => (h j (by simpa using hj)).trans (srcFrom_getElem s n k j hj).symm⟩

theorem Wrote.dst_below {s u : State} (h : Wrote s u) (hwf : Store.wf s.mem = true) {j : Nat} (hj : j < s.dp.op) :
    u.dst j = s.dst j := by
  rw [State.dst, h.dstAddr, h.frame hwf _ (.inl (by simp only [State.dstAddr]; omega)), State.dst]

/-! ## Emission -/

theorem emitAll_append (as bs : List Byte) (s : State) : emitAll (as ++ bs) s = (emitAll as s).andThen (emitAll bs) := by
  induction as generalizing s with
  | nil => rfl
  | cons a as ih =>
    rw [List.cons_append, emitAll, emitAll, Res.andThen_assoc, funext ih]

/-- `u` is `s` with `bs` written at the output cursor. -/
structure Put (bs : List Byte) (s u : State) : Prop where
  emitted : Emitted s u
  op_eq : u.dp.op = s.dp.op + bs.length
  holds : u.Holds s.dp.op bs
  below : ∀ j, j < s.dp.op → u.dst j = s.dst j

theorem Emitted.fsm {s u : State} (h : Emitted s u) : u.fsm = s.fsm := by rw [h.shape]

/-- `u` is `s` with DST filled: neither the CSR file, nor the stage, nor H has changed (R143). -/
structure Filled (s u : State) : Prop where
  csr : u.csr = s.csr
  fsm : u.fsm = s.fsm
  tbl : u.tbl = s.tbl
  op_eq : u.dp.op = s.dstCap

theorem Wrote.filled {s u : State} (h : Wrote s u) (hop : u.dp.op = s.dstCap) : Filled s u := ⟨h.csr, h.fsm, h.tbl, hop⟩

theorem Emitted.then_filled {s u v : State} (h : Emitted s u) (h' : Filled u v) : Filled s v where
  csr := h'.csr.trans h.csr
  fsm := by rw [h'.fsm, h.shape]
  tbl := by rw [h'.tbl, h.shape]
  op_eq := h'.op_eq.trans (dstCap_congr h.csr)

/-- A byte string that fits raises no error (R143). -/
theorem emitAll_eq_ok (bs : List Byte) (s : State) (h : s.dp.op + bs.length ≤ s.dstCap) : ∃ u, emitAll bs s = .ok u := by
  induction bs generalizing s with
  | nil => exact ⟨s, rfl⟩
  | cons b bs ih =>
    rw [List.length_cons] at h
    rcases emit_cases b s with ⟨hfull, -⟩ | ⟨-, he⟩
    · omega
    · rw [emitAll, he]
      exact ih (s.putDst b) (by simp only [State.putDst_dp, State.putDst_dstCap]; omega)

/-- A byte string is emitted whole exactly where it fits DST; else DST is filled and the error is BufferOverflow (R143, R167). -/
theorem emitAll_cases (bs : List Byte) {s : State} (hs : s.Writing) :
    (s.dp.op + bs.length ≤ s.dstCap ∧ ∃ u, emitAll bs s = .ok u ∧ Put bs s u) ∨
    (s.dstCap < s.dp.op + bs.length ∧ ∃ u, emitAll bs s = .raise .bufferOverflow u ∧ Filled s u) := by
  rcases emitAll_spec bs s hs.op_le with ⟨u, he, hw, hop, hle⟩ | ⟨u, he, hw, hop⟩
  · refine .inl ⟨hop ▸ hle, u, he, hw.emitted hs hle, hop, fun j hj => ?_, fun j hj => hw.dst_below hs.mem.wf hj⟩
    rw [State.dst, hw.dstAddr]
    exact emitAll_reads bs s u hs.mem.wf he j hj
  · refine .inr ⟨Nat.lt_of_not_le fun hfit => ?_, u, he, hw.filled hop⟩
    obtain ⟨v, hv⟩ := emitAll_eq_ok bs s hfit
    rw [he] at hv
    cases hv

/-! ## Literals of SRC (R147) -/

/-- Bytes of SRC are not changed by what is written in DST (R75). -/
theorem src_of_dstWritten {s u : State} (hover : s.overlap = false) (hcsr : u.csr = s.csr) (hm : s.DstWritten u.mem) {i : Nat}
    (hi : i < s.srcLen) : u.src i = s.src i := by
  have haddr : u.srcAddr i = s.srcAddr i := by rw [State.srcAddr, State.srcAddr, hcsr]
  rw [State.src, haddr]
  refine hm.frame _ (Bool.eq_false_iff.mpr fun hin => ?_)
  rw [inDst_iff] at hin
  refine srcAddr_ne_dstAddr hover (j := s.srcAddr i - s.csr.dstBase.toNat) hi (by omega) ?_
  simp only [State.dstAddr]
  omega

theorem srcFrom_congr_of_lt {s u : State} {k i : Nat} (h : ∀ j, j < i + k → u.src j = s.src j) : u.srcFrom k i = s.srcFrom k i := by
  induction k generalizing i with
  | zero => rfl
  | succ k ih => rw [State.srcFrom, State.srcFrom, h i (by omega), ih fun j hj => h j (by omega)]

/-- What a command that writes DST reads of SRC is what stood there before. -/
theorem Emitted.srcFrom_eq {s u : State} (h : Emitted s u) (hover : s.overlap = false) {n i : Nat} (hlen : i + n ≤ s.srcLen) :
    u.srcFrom n i = s.srcFrom n i :=
  srcFrom_congr_of_lt fun _ hj => src_of_dstWritten hover h.csr h.mem (by omega)

theorem overlap_congr {s u : State} (h : u.csr = s.csr) : u.overlap = s.overlap := by
  unfold State.overlap State.srcLen State.dstCap State.srcAddr State.dstAddr
  rw [h]

/-- Copying literals of SRC emits the bytes that stand there, since SRC and DST are apart (R75, R147). -/
theorem compLiterals_eq_emitAll {start n : Nat} {s : State} (hs : s.Writing) (hover : s.overlap = false)
    (hlen : start + n ≤ s.srcLen) : compLiterals start n s = emitAll (s.srcFrom n start) s := by
  induction n generalizing start s with
  | zero => rfl
  | succ n ih =>
    rw [compLiterals, State.srcFrom, emitAll]
    rcases emit_cases (s.src start) s with ⟨-, he⟩ | ⟨hne, he⟩ <;> rw [he]
    · rfl
    · have hop := hs.op_le
      have hput : Emitted s (s.putDst (s.src start)) := (putDst_wrote s _).emitted hs (Nat.lt_of_le_of_ne hop hne)
      rw [Res.ok_andThen, Res.ok_andThen, ih (hput.writing hs) hover (show start + 1 + n ≤ s.srcLen by omega),
        hput.srcFrom_eq hover (by omega)]

/-! ## A run of literals (R133, R139, R165) -/

/-- `Patch2` where the count of a run of `n` literals rides in the last token: up to 3 literals, and a token before them. -/
def patchRun (n : Nat) (s : State) : State := if 1 ≤ n ∧ n ≤ 3 ∧ s.dp.op ≠ 0 then patch2 n s else s

theorem patchRun_zero (s : State) : patchRun 0 s = s := if_neg (by simp)

theorem patchRun_emitted (n : Nat) {s : State} (hs : s.Writing) (hpatch : s.dp.op = 0 ∨ 2 ≤ s.dp.op) : Emitted s (patchRun n s) := by
  unfold patchRun
  split
  · next h =>
    obtain ⟨-, -, hop⟩ := h
    exact patch2_emitted n hs (hpatch.resolve_left hop)
  · exact Emitted.refl hs

theorem patchRun_op (n : Nat) (s : State) : (patchRun n s).dp.op = s.dp.op := by
  unfold patchRun
  split <;> rfl

theorem patchRun_patched {n : Nat} {s : State} (hwf : Store.wf s.mem = true) (h1 : 1 ≤ n) (h3 : n ≤ 3) (hop : s.dp.op ≠ 0) :
    (patchRun n s).dst (s.dp.op - 2) = s.dst (s.dp.op - 2) ||| BitVec.ofNat 8 n := by
  obtain ⟨m, hm, -, hpatched, -⟩ := patch2_spec n s hwf
  rw [patchRun, if_pos ⟨h1, h3, hop⟩, hm]
  exact hpatched

theorem patchRun_dst {n j : Nat} {s : State} (hwf : Store.wf s.mem = true) (h : n = 0 ∨ 3 < n ∨ j ≠ s.dp.op - 2) :
    (patchRun n s).dst j = s.dst j := by
  unfold patchRun
  split
  · obtain ⟨m, hm, -, -, hother⟩ := patch2_spec n s hwf
    rw [hm]
    refine hother _ ?_
    simp only [State.dstAddr]
    omega
  · rfl

theorem runHeader_of_le {n : Nat} (h : n ≤ 3) : runHeader n = [] := if_pos h

theorem litHeader_eq_runHeader {n : Nat} (h : ¬ n ≤ 3) : litHeader n = runHeader n := by
  rw [runHeader, if_neg h]
  rfl

/-- `EmitLitHeader` emits the run's header, after `Patch2` where there is none (R133). -/
theorem emitLitHeader_eq {n : Nat} {s : State} (h1 : 1 ≤ n) (hop : n ≤ 3 → s.dp.op ≠ 0) :
    emitLitHeader n s = emitAll (runHeader n) (patchRun n s) := by
  unfold emitLitHeader patchRun
  split
  · next h3 => rw [runHeader_of_le h3, if_pos ⟨h1, h3, hop h3⟩]; rfl
  · next h3 => rw [litHeader_eq_runHeader h3, if_neg fun ⟨_, h, _⟩ => h3 h]

theorem finalHeader_of_first {op n : Nat} (h1 : 1 ≤ n) (h : op = 0 ∧ n ≤ 238) : finalHeader op n = [BitVec.ofNat 8 (17 + n)] :=
  if_pos (by omega)

theorem finalHeader_of_not_first {op n : Nat} (h : ¬ (op = 0 ∧ n ≤ 238)) : finalHeader op n = runHeader n :=
  if_neg (by omega)

theorem finalHeader_zero (op : Nat) : finalHeader op 0 = [] := if_neg (by omega)

/-- The final run's header is emitted, after `Patch2` where there is none (R165). -/
theorem flushHeader_eq {n : Nat} {s : State} (h1 : 1 ≤ n) :
    flushHeader n s = emitAll (finalHeader s.dp.op n) (patchRun n s) := by
  by_cases hfirst : s.dp.op = 0 ∧ n ≤ 238
  · rw [finalHeader_of_first h1 hfirst, patchRun, if_neg (by omega)]
    exact if_pos hfirst
  · rw [finalHeader_of_not_first hfirst, ← emitLitHeader_eq h1 fun h3 h0 => hfirst ⟨h0, by omega⟩]
    exact if_neg hfirst

/-- A header and the literals after it are one byte string (R147). -/
theorem emitAll_then_compLiterals {hdr : List Byte} {s u : State} {start n : Nat} (hs : s.Writing) (hu : Emitted s u)
    (hover : s.overlap = false) (hlen : start + n ≤ s.srcLen) :
    (emitAll hdr u).andThen (compLiterals start n) = emitAll (hdr ++ s.srcFrom n start) u := by
  rw [emitAll_append]
  rcases emitAll_emitted hdr (hu.writing hs) with ⟨v, he, hv, -⟩ | ⟨v, he, -⟩ <;> rw [he]
  · have hsv := hu.trans hv
    rw [Res.ok_andThen, Res.ok_andThen, compLiterals_eq_emitAll (hsv.writing hs) ((overlap_congr hsv.csr).trans hover)
      (by rw [srcLen_congr hsv.csr]; exact hlen), hsv.srcFrom_eq hover hlen]
  · rfl

/-! ## The end of a COMPRESS -/

/-- A COMPRESS past its checks ends with `op` as its output count, and all of SRC used where it ends OK (R217). -/
theorem terminate_compress {s : State} {ph : CompressPhase} (hf : s.fsm = .runCompress ph) (hph : ph ≠ .check) (e : ErrorCode) :
    s.terminate e = s.endedWith e.code s.dp.op (if e = .ok then s.srcLen else 0) := by
  cases ph with
  | check => exact absurd rfl hph
  | outer | next | hit | flush => simp [State.terminate, State.endedWith, Csr.ended, State.results, hf]

/-- R167: a command that fills DST ends with BufferOverflow, OUT_LEN = DST_CAP and IN_USED = 0. -/
theorem Filled.terminate {s u : State} {ph : CompressPhase} (h : Filled s u) (hf : s.fsm = .runCompress ph) (hph : ph ≠ .check) :
    (u.terminate .bufferOverflow).csr = s.csr.ended 3 s.dstCap 0 := by
  rw [terminate_compress (h.fsm.trans hf) hph, State.endedWith, h.csr, h.op_eq]
  rfl

/-! ## A run in DST -/

/-- What DST holds in `t` once a run of `n` literals of SRC from `start` on, with header `hdr`, has been emitted from `s`: the header and the
literals at the old cursor, and below it the old bytes, but for the count that `Patch2` sets (R133, R139, R165). -/
structure RunHeld (hdr : List Byte) (n start : Nat) (s t : State) : Prop where
  header : t.Holds s.dp.op hdr
  literals : ∀ j, j < n → t.dst (s.dp.op + hdr.length + j) = s.src (start + j)
  patched : 1 ≤ n → n ≤ 3 → s.dp.op ≠ 0 → t.dst (s.dp.op - 2) = s.dst (s.dp.op - 2) ||| BitVec.ofNat 8 n
  below : ∀ j, j < s.dp.op → n = 0 ∨ 3 < n ∨ j ≠ s.dp.op - 2 → t.dst j = s.dst j

/-- Bytes past a run leave it in place. -/
theorem RunHeld.of_dst {hdr : List Byte} {n start : Nat} {s t u : State} (h : RunHeld hdr n start s t)
    (hdst : ∀ j, j < s.dp.op + hdr.length + n → u.dst j = t.dst j) : RunHeld hdr n start s u where
  header j hj := (hdst _ (by omega)).trans (h.header j hj)
  literals j hj := (hdst _ (by omega)).trans (h.literals j hj)
  patched h1 h3 hop := (hdst _ (by omega)).trans (h.patched h1 h3 hop)
  below j hj hne := (hdst _ (by omega)).trans (h.below j hj hne)

/-- A run, with `Patch2` or its header before it, is emitted whole where it fits DST, and fills DST where it does not (R143). -/
theorem emitRun_cases {hdr : List Byte} {n start : Nat} {s : State} (hs : s.Writing) (hpatch : s.dp.op = 0 ∨ 2 ≤ s.dp.op) :
    (s.dp.op + hdr.length + n ≤ s.dstCap ∧ ∃ u, emitAll (hdr ++ s.srcFrom n start) (patchRun n s) = .ok u ∧ Emitted s u ∧
      u.dp.op = s.dp.op + hdr.length + n ∧ RunHeld hdr n start s u) ∨
    (s.dstCap < s.dp.op + hdr.length + n ∧
      ∃ u, emitAll (hdr ++ s.srcFrom n start) (patchRun n s) = .raise .bufferOverflow u ∧ Filled s u) := by
  have hp := patchRun_emitted n hs hpatch
  have hwf := hs.mem.wf
  have hop := patchRun_op n s
  have hlen : (hdr ++ s.srcFrom n start).length = hdr.length + n := by simp
  rcases emitAll_cases (hdr ++ s.srcFrom n start) (hp.writing hs) with ⟨hfit, u, he, hu, hopu, hholds, hbelow⟩ | ⟨hfull, u, he, hfill⟩
  · rw [hop, holds_append] at hholds
    obtain ⟨hheader, hlits⟩ := hholds
    rw [hop, dstCap_congr hp.csr] at hfit
    rw [hop] at hbelow
    exact .inl ⟨by omega, u, he, hp.trans hu, by omega, hheader, holds_srcFrom.mp hlits,
      fun h1 h3 h0 => (hbelow _ (by omega)).trans (patchRun_patched hwf h1 h3 h0),
      fun j hj hne => (hbelow j hj).trans (patchRun_dst hwf hne)⟩
  · rw [hop, dstCap_congr hp.csr] at hfull
    exact .inr ⟨by omega, u, he, hp.then_filled hfill⟩

end Sys2Proof.Machine
end

section
/-! PROOFS. The flush and a match, with room in DST for what they emit and without (41_compressor.md R159 to R167). -/

namespace Sys2Proof.Machine

/-! ## The flush -/

theorem flushTail_eq_emitAll {s : State} (hs : s.Writing) (hover : s.overlap = false) (hpatch : s.dp.op = 0 ∨ 2 ≤ s.dp.op)
    (ht : s.dp.t ≤ s.srcLen) :
    s.flushTail = emitAll (finalHeader s.dp.op s.dp.t ++ s.srcFrom s.dp.t (s.srcLen - s.dp.t)) (patchRun s.dp.t s) := by
  unfold State.flushTail
  split
  · next h0 => rw [h0, patchRun_zero, finalHeader_zero]; rfl
  · rw [flushHeader_eq (by omega)]
    exact emitAll_then_compLiterals hs (patchRun_emitted _ hs hpatch) hover (by omega)

/-- The final run is emitted whole where it fits DST, and fills DST where it does not (R165). -/
theorem flushTail_cases {s : State} (hs : s.Writing) (hover : s.overlap = false) (hpatch : s.dp.op = 0 ∨ 2 ≤ s.dp.op)
    (ht : s.dp.t ≤ s.srcLen) {hdr : List Byte} (hhdr : hdr = finalHeader s.dp.op s.dp.t) :
    (s.dp.op + hdr.length + s.dp.t ≤ s.dstCap ∧ ∃ u, s.flushTail = .ok u ∧ Emitted s u ∧
      u.dp.op = s.dp.op + hdr.length + s.dp.t ∧ RunHeld hdr s.dp.t (s.srcLen - s.dp.t) s u) ∨
    (s.dstCap < s.dp.op + hdr.length + s.dp.t ∧ ∃ u, s.flushTail = .raise .bufferOverflow u ∧ Filled s u) := by
  rw [flushTail_eq_emitAll hs hover hpatch ht, hhdr]
  exact emitRun_cases hs hpatch

theorem step_flush {s : State} (h : s.Compressing .flush) : step s = .next s.flushStep.settle := by
  obtain ⟨hinv, hf, hraced, hh⟩ := h
  obtain ⟨hst, -⟩ := (stageOk_flush hf).mp (stageOk_of_inv hinv)
  rw [step_engine hh, engineStep_flush hf, running_undisturbed hst.inSpace hraced]

/-- Settles O29: `flushTail_cases` for the run, `emitAll_cases` for the end marker, and the end of the command they lead to. -/
theorem flushStep : Obligations.FlushStep := by
  rintro s n hdr h rfl hhdr
  have hstep := step_flush h
  obtain ⟨hinv, hf, -, -⟩ := h
  obtain ⟨hst, ht⟩ := (stageOk_flush hf).mp (stageOk_of_inv hinv)
  have hs := writing_of_started hst.toStarted (dstWritten_of_inv hinv)
  unfold State.flushStep at hstep
  rcases flushTail_cases hs hst.overlap hst.patch ht hhdr with ⟨hrun, u, he, hu, hopu, hheld⟩ | ⟨hfull, u, he, hfill⟩ <;>
    rw [he] at hstep
  · have hroom := emitAll_cases eosBytes (hu.writing hs)
    rw [hopu, dstCap_congr hu.csr, show eosBytes.length = 3 from rfl] at hroom
    rw [Res.ok_andThen] at hstep
    rcases hroom with ⟨hfit, w, hw, huw, hopw, heos, hkeep⟩ | ⟨hfull, w, hw, hfill⟩ <;> rw [hw] at hstep
    · refine ⟨fun _ => ?_, fun _ => by omega⟩
      have hsw := hu.trans huw
      rw [hopu] at hopw heos hkeep
      obtain ⟨hheader, hlits, hpatched, hbelow⟩ := hheld.of_dst hkeep
      refine ⟨w.mem, _, hstep, ?_, hheader, hlits, heos, hpatched, hbelow⟩
      rw [Res.ok_andThen, Res.settle_ok, terminate_compress (hsw.fsm.trans hf) (by decide), hopw, hsw.shape, hopw]
      rfl
    · exact ⟨fun _ => by omega, fun _ => ⟨_, hstep, rfl, (hu.then_filled hfill).terminate hf (by decide)⟩⟩
  · exact ⟨fun _ => by omega, fun _ => ⟨_, hstep, rfl, hfill.terminate hf (by decide)⟩⟩

/-! ## A match -/

theorem equalRun_congr_of_lt {s u : State} {n fuel i j : Nat} (h : ∀ k, k < n → u.src k = s.src k) (hi : i + fuel ≤ n)
    (hj : j + fuel ≤ n) : u.equalRun fuel i j = s.equalRun fuel i j := by
  induction fuel generalizing i j with
  | zero => rfl
  | succ fuel ih => rw [State.equalRun, State.equalRun, h i (by omega), h j (by omega), ih (by omega) (by omega)]

/-- The length of a match is read from SRC below the block's end only, so output does not change it (R160). -/
theorem extendMatch_mLen_congr {s u : State} (hip : u.dp.ip = s.dp.ip) (hend : u.dp.ipEnd = s.dp.ipEnd)
    (hpos : u.dp.mPos = s.dp.mPos) (hlt : s.dp.ip < s.dp.ipEnd) (hback : s.dp.mPos < s.dp.ip)
    (hsrc : ∀ k, k < s.dp.ipEnd + Config.tail → u.src k = s.src k) : u.extendMatch.dp.mLen = s.extendMatch.dp.mLen := by
  have hmax := matchEnd_le hlt (Nat.le_refl (4 + 8 * capCount s.dp.ip s.dp.ipEnd))
  simp only [State.extendMatch, hip, hend, hpos]
  rw [equalRun_congr_of_lt hsrc (by omega) (by omega)]

/-- The pending run is emitted whole where it fits DST, and fills DST where it does not (R159). -/
theorem flushRun_cases {s : State} {n : Nat} (hs : s.Writing) (hover : s.overlap = false) (hpatch : s.dp.op = 0 ∨ 2 ≤ s.dp.op)
    (hn : n = s.dp.ip - (s.dp.ii - s.dp.ti)) (hfirst : n ≤ 3 → 2 ≤ s.dp.op) (hlen : s.dp.ii - s.dp.ti + n ≤ s.srcLen) :
    (s.dp.op + (runHeader n).length + n ≤ s.dstCap ∧ ∃ u, s.flushRun = .ok u ∧ Emitted s.joinRun u ∧
      u.dp.op = s.dp.op + (runHeader n).length + n ∧ RunHeld (runHeader n) n (s.dp.ii - s.dp.ti) s u) ∨
    (s.dstCap < s.dp.op + (runHeader n).length + n ∧ ∃ u, s.flushRun = .raise .bufferOverflow u ∧ Filled s u) := by
  have hjoin : s.joinRun.Writing := hs.of_csr rfl hs.op_le hs.mem
  have hrun : s.flushRun = emitAll (runHeader n ++ s.joinRun.srcFrom n (s.dp.ii - s.dp.ti)) (patchRun n s.joinRun) := by
    rw [flushRun_eq, show s.joinRun.dp.t = n from hn.symm]
    split
    · next h0 => subst h0; rw [patchRun_zero]; rfl
    · have hop (h3 : n ≤ 3) : s.joinRun.dp.op ≠ 0 := Nat.ne_of_gt (Nat.lt_of_lt_of_le (by decide) (hfirst h3))
      rw [emitLitHeader_eq (by omega) hop]
      exact emitAll_then_compLiterals hjoin (patchRun_emitted _ hjoin hpatch) hover hlen
  rw [hrun]
  rcases emitRun_cases (hdr := runHeader n) (n := n) (start := s.dp.ii - s.dp.ti) hjoin hpatch with
    ⟨hfit, u, he, hu, hop, hheader, hlits, hpatched, hbelow⟩ | ⟨hfull, u, he, hcsr, hfsm, htbl, hop⟩
  · exact .inl ⟨hfit, u, he, hu, hop, hheader, hlits, hpatched, hbelow⟩
  · exact .inr ⟨hfull, u, he, hcsr, hfsm, htbl, hop⟩

/-- Part 3 of `Match` emits the token of the match's length and distance whole, or fills DST (R161, R162). -/
theorem emitMatch_cases {s : State} {len dist : Nat} (hs : s.Writing) (hlen : s.extendMatch.dp.mLen = len)
    (hdist : s.dp.ip - s.dp.mPos = dist) :
    (s.dp.op + (matchBytes len dist).length ≤ s.dstCap ∧ ∃ u, s.extendMatch.emitMatch = .ok (u.setFsm (.runCompress .next)) ∧
      Put (matchBytes len dist) s.extendMatch.passMatch u) ∨
    (s.dstCap < s.dp.op + (matchBytes len dist).length ∧ ∃ u, s.extendMatch.emitMatch = .raise .bufferOverflow u ∧ Filled s u) := by
  have hpass : s.extendMatch.passMatch.Writing := hs.of_csr rfl hs.op_le hs.mem
  rw [emitMatch_eq, show s.extendMatch.passMatch.dp.mLen = len from hlen, show s.extendMatch.passMatch.dp.mOff = dist from hdist]
  rcases emitAll_cases (matchBytes len dist) hpass with ⟨hfit, u, he, hput⟩ | ⟨hfull, u, he, hcsr, hfsm, htbl, hop⟩ <;> rw [he]
  · exact .inl ⟨hfit, u, rfl, hput⟩
  · exact .inr ⟨hfull, u, rfl, hcsr, hfsm, htbl, hop⟩

/-- The registers after a match, in terms of the state before it (R159 to R163). -/
theorem afterMatch_of_emitted {s u w : State} {len : Nat} (hu : Emitted s.joinRun u) (hlen : u.extendMatch.dp.mLen = len)
    (hw : Emitted u.extendMatch.passMatch w) : w.setFsm (.runCompress .next) = s.afterMatch len w.dp.op w.mem := by
  have hext : u.extendMatch = { u with dp := { u.dp with
      k := capCount u.dp.ip u.dp.ipEnd, limit := 4 + 8 * capCount u.dp.ip u.dp.ipEnd, mLen := len } } := by
    rw [← hlen]
    rfl
  rw [hw.shape, hext, hu.shape]
  rfl

theorem step_hit {s : State} (h : s.Compressing .hit) : step s = .next s.hitStep.settle := by
  obtain ⟨hinv, hf, hraced, hh⟩ := h
  obtain ⟨hst, -⟩ := (stageOk_hit hf).mp (stageOk_of_inv hinv)
  rw [step_engine hh, engineStep_hit hf, running_undisturbed hst.inSpace hraced]

/-- Settles O27: `flushRun_cases` for the run, `emitMatch_cases` for the token, whose length the run's output has not changed. -/
theorem matchStep : Obligations.MatchStep := by
  rintro s n len dist h hn rfl rfl
  have hstep := step_hit h
  obtain ⟨hinv, hf, -, -⟩ := h
  obtain ⟨hst, hb, hrun, hip, -, hpos⟩ := (stageOk_hit hf).mp (stageOk_of_inv hinv)
  obtain ⟨hp, hpl, hlll, -, htail, hend, hti, -, hii, -, -, -⟩ := id hb
  have hs := writing_of_started hst.toStarted (dstWritten_of_inv hinv)
  have hjoin : s.joinRun.Writing := hs.of_csr rfl hs.op_le hs.mem
  have hfirst (h3 : n ≤ 3) : 2 ≤ s.dp.op := joinRun_patch hst hb hrun (show s.dp.ip - (s.dp.ii - s.dp.ti) ≤ 3 by omega)
  unfold State.hitStep at hstep
  rcases flushRun_cases hs hst.overlap hst.patch hn hfirst (by omega) with ⟨hfit, u, he, hu, hopu, hheld⟩ | ⟨hfull, u, he, hfill⟩ <;>
    rw [he] at hstep
  · have hudp := hu.dp
    have hcap : u.dstCap = s.dstCap := dstCap_congr hu.csr
    have hlen : u.extendMatch.dp.mLen = s.extendMatch.dp.mLen :=
      extendMatch_mLen_congr (by rw [hudp]; rfl) (by rw [hudp]; rfl) (by rw [hudp]; rfl) hip hpos fun k hk =>
        src_of_dstWritten (s := s.joinRun) hst.overlap hu.csr hu.mem (show k < s.srcLen by omega)
    have htoken := emitMatch_cases (hu.writing hjoin) hlen (show u.dp.ip - u.dp.mPos = s.dp.ip - s.dp.mPos by rw [hudp]; rfl)
    rw [hopu, hcap] at htoken
    rw [Res.ok_andThen] at hstep
    rcases htoken with ⟨hroom, w, hm, hw, hopw, htok, hkeep⟩ | ⟨hfull, w, hm, hfill⟩ <;> rw [hm] at hstep
    · refine ⟨fun _ => ?_, fun _ => by omega⟩
      rw [show u.extendMatch.passMatch.dp.op = u.dp.op from rfl, hopu] at hopw htok hkeep
      obtain ⟨hheader, hlits, hpatched, hbelow⟩ := hheld.of_dst hkeep
      refine ⟨w.mem, _, hstep, ?_, hheader, hlits, htok, fun h1 h3 => ⟨hfirst h3, hpatched h1 h3 ?_⟩, hbelow⟩
      · rw [Res.settle_ok, afterMatch_of_emitted hu hlen hw, hopw, hn]
        rfl
      · have := hfirst h3
        omega
    · have hfill := hu.then_filled hfill
      exact ⟨fun _ => by omega, fun _ => ⟨_, hstep, rfl, hfill.tbl, hfill.terminate hf (by decide)⟩⟩
  · exact ⟨fun _ => by omega, fun _ => ⟨_, hstep, rfl, hfill.tbl, hfill.terminate hf (by decide)⟩⟩

end Sys2Proof.Machine
end

section
/-! PROOFS. The stages of COMPRESS that emit nothing, and the match that is found: the head of the outer loop, a block's end, and the extension
of a match (41_compressor.md R152 to R164). -/

namespace Sys2Proof.Machine

/-! ## The outer loop and a block's end -/

theorem step_outer {s : State} (h : s.Compressing .outer) : step s = .next s.outerStep := by
  obtain ⟨hinv, hf, hraced, hh⟩ := h
  obtain ⟨hst, -⟩ := (stageOk_outer hf).mp (stageOk_of_inv hinv)
  rw [step_engine hh, engineStep_outer hf, running_undisturbed hst.inSpace hraced]

/-- Another block is formed exactly where more than TAIL bytes are left and the span reaches MIN_SPAN (R152, R153). -/
theorem anotherBlock_iff {s : State} : s.anotherBlock = true ↔ 20 < s.dp.l ∧ 32 ≤ s.dp.t + min s.dp.l 49152 := by
  simp only [State.anotherBlock, Config.tail, Config.minSpan, Config.blockMax, Bool.and_eq_true, decide_eq_true_eq]
  omega

/-- Where a block's first probe lies: four bytes past the carried run's start, or one past the block's (R155). -/
theorem firstProbe_eq (blk ti : Nat) : firstProbe blk ti = if ti < 4 then blk + 5 - ti else blk + 1 := by
  unfold firstProbe skipTo
  split <;> omega

/-- Settles O23: `outerStep` decides by `anotherBlock_iff`, and the cleared table has no entry. -/
theorem blockStart : Obligations.BlockStart := by
  intro s h
  rw [step_outer h, State.outerStep]
  refine ⟨fun hl hspan => ?_, fun hend => ?_⟩
  · rw [if_pos (anotherBlock_iff.mpr ⟨hl, hspan⟩)]
    refine ⟨s.beginBlock, rfl, rfl, rfl, rfl, fun _ => rfl, ?_⟩
    rw [State.beginBlock, firstProbe_eq]
  · rw [if_neg fun hblock => ?_]
    · rfl
    · obtain ⟨hl, hspan⟩ := anotherBlock_iff.mp hblock
      omega

theorem step_next {s : State} (h : s.Compressing .next) : step s = .next s.nextStep := by
  obtain ⟨hinv, hf, hraced, hh⟩ := h
  obtain ⟨hst, -⟩ := (stageOk_next hf).mp (stageOk_of_inv hinv)
  rw [step_engine hh, engineStep_next hf, running_undisturbed hst.inSpace hraced]

/-- Settles O25: `Next` tests the probe limit first. -/
theorem blockEnd : Obligations.BlockEnd := by
  intro s h hip
  rw [step_next h, State.nextStep, if_pos hip]
  rfl

/-! ## A match -/

/-- What the invariant says of a match: where it lies in its block (R155, R156, R160). -/
theorem hit_inBlock {s : State} (hs : s.Inv) (hf : s.fsm = .runCompress .hit) :
    s.InBlock (s.dp.ip + 1) ∧ s.dp.ip < s.dp.ipEnd ∧ s.dp.blk ≤ s.dp.mPos ∧ s.dp.mPos < s.dp.ip := by
  obtain ⟨-, hb, -, hip, hpos⟩ := (stageOk_hit hf).mp (stageOk_of_inv hs)
  exact ⟨hb, hip, hpos⟩

/-- Settles O28: both positions lie in the block, the match before the probe limit. -/
theorem matchDistanceBound : Obligations.MatchDistanceBound := by
  intro s hs hf
  obtain ⟨hb, hip, hblk, hpos⟩ := hit_inBlock hs hf
  have hend := hb.ipEnd_eq
  have hll := hb.ll_le
  have htail := hb.tail_lt
  simp only [Config.tail, Config.blockMax] at hend hll htail
  omega

/-- The cap is the first multiple of 8 at which the match reaches the probe limit (R160). -/
theorem capCount_spec (ip ipEnd : Nat) : 1 ≤ capCount ip ipEnd ∧ ipEnd ≤ ip + (4 + 8 * capCount ip ipEnd) ∧
    ∀ k, 1 ≤ k → ipEnd ≤ ip + 4 + 8 * k → capCount ip ipEnd ≤ k := by
  unfold capCount
  exact ⟨by omega, by omega, fun k h1 hk => by omega⟩

theorem equalRun_eq {s : State} {fuel i j k : Nat} (hk : k < s.equalRun fuel i j) : s.src (i + k) = s.src (j + k) := by
  induction fuel generalizing i j k with
  | zero => exact absurd hk (Nat.not_lt_zero k)
  | succ fuel ih =>
    rw [State.equalRun] at hk
    split at hk
    · next h0 =>
      cases k with
      | zero => exact h0
      | succ k =>
        rw [show i + (k + 1) = i + 1 + k by omega, show j + (k + 1) = j + 1 + k by omega]
        exact ih (by omega)
    · exact absurd hk (Nat.not_lt_zero k)

/-- The run of equal bytes ends at the cap or at an unequal pair (R160). -/
theorem equalRun_stops (s : State) (fuel i j : Nat) :
    s.equalRun fuel i j = fuel ∨ s.src (i + s.equalRun fuel i j) ≠ s.src (j + s.equalRun fuel i j) := by
  induction fuel generalizing i j with
  | zero => exact .inl rfl
  | succ fuel ih =>
    rw [State.equalRun]
    split
    · refine (ih (i + 1) (j + 1)).imp (congrArg (· + 1)) fun hne => ?_
      rwa [← Nat.add_assoc, ← Nat.add_assoc, Nat.add_right_comm i, Nat.add_right_comm j]
    · next hne => exact .inr hne

/-- Equal probe words are four equal bytes (R68, R144). -/
theorem src_eq_of_le32 {s : State} {p q : Nat} (h : s.le32 p = s.le32 q) {k : Nat} (hk : k < 4) : s.src (p + k) = s.src (q + k) := by
  have hbyte (r : Nat) : s.src (r + k) = (s.le32 r).extractLsb' (8 * k) 8 := by
    have hsum := le32_toNat s r
    have h0 := (s.src r).isLt
    have h1 := (s.src (r + 1)).isLt
    have h2 := (s.src (r + 2)).isLt
    have h3 := (s.src (r + 3)).isLt
    apply BitVec.eq_of_toNat_eq
    rw [BitVec.extractLsb'_toNat, Nat.shiftRight_eq_div_pow, hsum]
    interval_cases k
    · rw [Nat.add_zero]
      omega
    all_goals omega
  rw [hbyte, hbyte, h]

/-- The bytes of a match: four by the probe, the others by the extension (R160). -/
theorem extendMatch_src {s : State} (h : s.le32 s.dp.mPos = s.le32 s.dp.ip) {k : Nat} (hk : k < s.extendMatch.dp.mLen) :
    s.src (s.dp.ip + k) = s.src (s.dp.mPos + k) := by
  by_cases hprobe : k < 4
  · exact (src_eq_of_le32 h hprobe).symm
  · have hrun : k - 4 < s.equalRun (8 * capCount s.dp.ip s.dp.ipEnd) (s.dp.ip + 4) (s.dp.mPos + 4) := by
      change k < 4 + _ at hk
      omega
    have heq := equalRun_eq hrun
    rwa [show s.dp.ip + 4 + (k - 4) = s.dp.ip + k by omega, show s.dp.mPos + 4 + (k - 4) = s.dp.mPos + k by omega] at heq

/-- A match has at least four bytes and at most its cap (R160). -/
theorem extendMatch_mLen_bounds (s : State) :
    4 ≤ s.extendMatch.dp.mLen ∧ s.extendMatch.dp.mLen ≤ 4 + 8 * capCount s.dp.ip s.dp.ipEnd :=
  ⟨Nat.le_add_right _ _, Nat.add_le_add_left (equalRun_le s _ _ _) 4⟩

/-- A match ends within its block (R160). -/
theorem extendMatch_end_le {s : State} (hs : s.Inv) (hf : s.fsm = .runCompress .hit) :
    s.dp.ip + s.extendMatch.dp.mLen ≤ s.dp.blk + s.dp.ll := by
  obtain ⟨hb, hip, -⟩ := hit_inBlock hs hf
  have hend := matchEnd_le hip (extendMatch_mLen_bounds s).2
  have hipEnd := hb.ipEnd_eq
  have htail := hb.tail_lt
  omega

/-- Settles O26: the cap by `capCount_spec`, the bytes by `extendMatch_src`, what follows them by `equalRun_stops`. -/
theorem matchExtension : Obligations.MatchExtension := by
  rintro s ⟨hs, hf, -, -⟩ hprobe e rfl
  obtain ⟨h1, hreach, hleast⟩ := capCount_spec s.dp.ip s.dp.ipEnd
  obtain ⟨hlen4, hlen⟩ := extendMatch_mLen_bounds s
  refine ⟨rfl, h1, hreach, hleast, hlen4, hlen, fun k => extendMatch_src hprobe, ?_, extendMatch_end_le hs hf⟩
  have hstop := equalRun_stops s (8 * capCount s.dp.ip s.dp.ipEnd) (s.dp.ip + 4) (s.dp.mPos + 4)
  rw [Nat.add_assoc, Nat.add_assoc] at hstop
  exact hstop.imp_left (congrArg (4 + ·))

end Sys2Proof.Machine
end

section
/-! PROOFS. A COMPRESS past its checks, step by step: what each step emits, which stage follows, and the measure that falls, so that every run
ends (41_compressor.md R152 to R167, 70_reset_and_hazards.md R277). -/

namespace Sys2Proof.Machine

/-! ## The pending run, and what a step emits -/

/-- Where in SRC the literals start that a COMPRESS past its checks has read but not emitted (R46, R151, R159, R164). -/
def State.runStart (s : State) : Nat :=
  match s.fsm with
  | .runCompress .outer => s.dp.p - s.dp.t
  | .runCompress .next | .runCompress .hit => s.dp.ii - s.dp.ti
  | .runCompress .flush => s.srcLen - s.dp.t
  | .idle | .runInit | .runCompress .check | .runDecompress _ => 0

/-- The length of the run before a match (R159). -/
def State.pending (s : State) : Nat := s.dp.ip - (s.dp.ii - s.dp.ti)

/-- The bytes of a match's token (R161, R162). -/
def State.token (s : State) : List Byte := matchBytes s.extendMatch.dp.mLen (s.dp.ip - s.dp.mPos)

section
variable {s : State}

theorem runStart_outer (hf : s.fsm = .runCompress .outer) : s.runStart = s.dp.p - s.dp.t := by simp [State.runStart, hf]
theorem runStart_next (hf : s.fsm = .runCompress .next) : s.runStart = s.dp.ii - s.dp.ti := by simp [State.runStart, hf]
theorem runStart_hit (hf : s.fsm = .runCompress .hit) : s.runStart = s.dp.ii - s.dp.ti := by simp [State.runStart, hf]
theorem runStart_flush (hf : s.fsm = .runCompress .flush) : s.runStart = s.srcLen - s.dp.t := by simp [State.runStart, hf]

end

/-- From `s` to `t` nothing is emitted and the pending run starts where it did; a match is met only where the probe found one. -/
structure Quiet (s t : State) : Prop where
  csr : t.csr = s.csr
  mem : t.mem = s.mem
  op : t.dp.op = s.dp.op
  runStart : t.runStart = s.runStart
  probed : t.fsm = .runCompress .hit → t.le32 t.dp.mPos = t.le32 t.dp.ip

/-- From `s` to `t` a match emits its pending run and its token, and the next run starts past it (R159 to R163). -/
structure MatchEmitted (s t : State) : Prop where
  csr : t.csr = s.csr
  mem : s.DstWritten t.mem
  next : t.fsm = .runCompress .next
  op : t.dp.op = s.dp.op + (runHeader s.pending).length + s.pending + s.token.length
  runStart : t.runStart = s.dp.ip + s.extendMatch.dp.mLen
  run : RunHeld (runHeader s.pending) s.pending s.runStart s t
  token : t.Holds (s.dp.op + (runHeader s.pending).length + s.pending) s.token

/-- What a match or the flush of `s` emits does not fit DST (R143). -/
def State.NoRoom (s : State) : Prop :=
  s.fsm = .runCompress .hit ∧ s.dstCap < s.dp.op + (runHeader s.pending).length + s.pending + s.token.length ∨
  s.fsm = .runCompress .flush ∧ s.dstCap < s.dp.op + (finalHeader s.dp.op s.dp.t).length + s.dp.t + 3

/-- In `t` the command of `s` has ended with BufferOverflow, for want of room (R167). -/
structure Overflowed (s t : State) : Prop where
  full : s.NoRoom
  idle : t.fsm = .idle
  csr : t.csr = s.csr.ended 3 s.dstCap 0

/-- In `t` the flush of `s` has emitted the final run and the end marker, and the command has ended OK (R165, R166). -/
structure Flushed (s t : State) : Prop where
  flush : s.fsm = .runCompress .flush
  idle : t.fsm = .idle
  csr : t.csr = s.csr.ended 0 (s.dp.op + (finalHeader s.dp.op s.dp.t).length + s.dp.t + 3) s.srcLen
  op : t.dp.op = s.dp.op + (finalHeader s.dp.op s.dp.t).length + s.dp.t + 3
  room : s.dp.op + (finalHeader s.dp.op s.dp.t).length + s.dp.t + 3 ≤ s.dstCap
  run : RunHeld (finalHeader s.dp.op s.dp.t) s.dp.t s.runStart s t
  eos : t.Holds (s.dp.op + (finalHeader s.dp.op s.dp.t).length + s.dp.t) eosBytes

/-! ## The measure -/

/-- What falls with every step of a COMPRESS past its checks: twice the input not yet blocked, and within a block twice the positions left to
probe (R152, R158, R277). -/
def State.rank (s : State) : Nat :=
  match s.fsm with
  | .runCompress .outer => 2 * s.dp.l + 2
  | .runCompress .next => 2 * (s.dp.l - s.dp.ll) + 2 * (s.dp.ipEnd - s.dp.ip) + 3
  | .runCompress .hit => 2 * (s.dp.l - s.dp.ll) + 2 * (s.dp.ipEnd - s.dp.ip) + 2
  | .runCompress .flush => 1
  | .idle | .runInit | .runCompress .check | .runDecompress _ => 0

section
variable {s : State}

theorem rank_outer (hf : s.fsm = .runCompress .outer) : s.rank = 2 * s.dp.l + 2 := by simp [State.rank, hf]
theorem rank_next (hf : s.fsm = .runCompress .next) :
    s.rank = 2 * (s.dp.l - s.dp.ll) + 2 * (s.dp.ipEnd - s.dp.ip) + 3 := by simp [State.rank, hf]
theorem rank_hit (hf : s.fsm = .runCompress .hit) :
    s.rank = 2 * (s.dp.l - s.dp.ll) + 2 * (s.dp.ipEnd - s.dp.ip) + 2 := by simp [State.rank, hf]
theorem rank_flush (hf : s.fsm = .runCompress .flush) : s.rank = 1 := by simp [State.rank, hf]

end

/-! ## The steps -/

/-- A COMPRESS stays undisturbed where a step of it goes on. -/
theorem compressing_of_step {s t : State} {ph ph' : CompressPhase} (h : s.Compressing ph) (hstep : step s = .next t)
    (hf : t.fsm = .runCompress ph') (hraced : t.raced = s.raced) : t.Compressing ph' := by
  obtain ⟨hinv, -, hr, hh⟩ := h
  refine ⟨stepKeepsInvariant s t hinv hstep, hf, hraced.trans hr, ?_⟩
  rw [step_engine hh] at hstep
  exact (engineStep_engineFrame hstep).host.trans hh

/-- The step from `s` to `t` goes on to a later stage, with the measure down. -/
def GoesOn (s t : State) : Prop := ∃ ph, ph ≠ .check ∧ t.Compressing ph ∧ t.rank < s.rank

theorem step_outer_cases {s : State} (h : s.Compressing .outer) : ∃ t, step s = .next t ∧ GoesOn s t ∧ Quiet s t := by
  have hstep := step_outer h
  obtain ⟨hinv, hf, -, -⟩ := id h
  obtain ⟨-, hpl, ht⟩ := (stageOk_outer hf).mp (stageOk_of_inv hinv)
  unfold State.outerStep at hstep
  split at hstep
  · next hblock =>
    obtain ⟨hl, -⟩ := anotherBlock_iff.mp hblock
    obtain ⟨hfirst, -⟩ := firstProbe_ge s.dp.p s.dp.t
    refine ⟨_, hstep, ⟨.next, by decide, compressing_of_step h hstep rfl rfl, ?_⟩, rfl, rfl, rfl, ?_, fun hhit => nomatch hhit⟩
    · rw [rank_next rfl, rank_outer hf]
      simp only [State.beginBlock, Config.blockMax, Config.tail]
      omega
    · rw [runStart_next rfl, runStart_outer hf]
      rfl
  · refine ⟨_, hstep, ⟨.flush, by decide, compressing_of_step h hstep rfl rfl, ?_⟩, rfl, rfl, rfl, ?_, fun hhit => nomatch hhit⟩
    · rw [rank_flush rfl, rank_outer hf]
      omega
    · rw [runStart_flush rfl, runStart_outer hf]
      change s.srcLen - (s.dp.t + s.dp.l) = s.dp.p - s.dp.t
      omega

/-- A block's end, an unmatched probe, or a match found. -/
theorem step_next_stage_cases {s : State} (h : s.Compressing .next) : ∃ t, step s = .next t ∧ GoesOn s t ∧ Quiet s t := by
  obtain ⟨hinv, hf, -, -⟩ := id h
  obtain ⟨-, hb, -⟩ := (stageOk_next hf).mp (stageOk_of_inv hinv)
  by_cases hip : s.dp.ipEnd ≤ s.dp.ip
  · have hstep := blockEnd s h hip
    refine ⟨_, hstep, ⟨.outer, by decide, compressing_of_step h hstep rfl rfl, ?_⟩, rfl, rfl, rfl, ?_, fun hhit => nomatch hhit⟩
    · rw [rank_outer rfl, rank_next hf]
      change 2 * (s.dp.l - s.dp.ll) + 2 < _
      omega
    · have hp := hb.p_eq
      have hii := hb.ii_le_end
      rw [runStart_outer rfl, runStart_next hf]
      change s.dp.p + s.dp.ll - (s.dp.blk + s.dp.ll - (s.dp.ii - s.dp.ti)) = s.dp.ii - s.dp.ti
      omega
  · have hstep := step_probe h (by omega)
    unfold State.judge at hstep
    split at hstep
    · next hmatch =>
      refine ⟨_, hstep, ⟨.hit, by decide, compressing_of_step h hstep rfl rfl, ?_⟩, rfl, rfl, rfl, ?_, fun _ => hmatch⟩
      · rw [rank_hit rfl, rank_next hf]
        exact Nat.lt_succ_self _
      · rw [runStart_hit rfl, runStart_next hf]
        rfl
    · have hnext : (s.probe.setIp (skipTo s.probe.dp.ip s.probe.dp.ii)).fsm = .runCompress .next := hf
      have hskip := skipTo_gt s.dp.ip s.dp.ii
      refine ⟨_, hstep, ⟨.next, by decide, compressing_of_step h hstep hnext rfl, ?_⟩, rfl, rfl, rfl, ?_, fun hhit => ?_⟩
      · rw [rank_next hnext, rank_next hf]
        change 2 * (s.dp.l - s.dp.ll) + 2 * (s.dp.ipEnd - skipTo s.dp.ip s.dp.ii) + 3 < _
        omega
      · rw [runStart_next hnext, runStart_next hf]
        rfl
      · cases hnext.symm.trans hhit

/-- A match emits its run and its token, or overflows DST. -/
theorem step_hit_cases {s : State} (h : s.Compressing .hit) :
    ∃ t, step s = .next t ∧ (GoesOn s t ∧ MatchEmitted s t ∨ Overflowed s t) := by
  obtain ⟨hinv, hf, -, hh⟩ := id h
  obtain ⟨hfits, hfull⟩ := matchStep s s.pending _ _ h rfl rfl rfl
  by_cases hroom : s.dp.op + (runHeader s.pending).length + s.pending + s.token.length ≤ s.dstCap
  · obtain ⟨m, t, hstep, ht, hheader, hlits, htoken, hpatched, hbelow⟩ := hfits hroom
    have hnext : t.fsm = .runCompress .next := by rw [ht]
    have hrank : t.rank < s.rank := by
      obtain ⟨-, hip, -⟩ := hit_inBlock hinv hf
      obtain ⟨hlen, -⟩ := extendMatch_mLen_bounds s
      rw [rank_next hnext, rank_hit hf, ht]
      change 2 * (s.dp.l - s.dp.ll) + 2 * (s.dp.ipEnd - (s.dp.ip + s.extendMatch.dp.mLen)) + 3 < _
      omega
    have hmem : s.DstWritten t.mem := (engineStep_kept hinv ((step_engine hh).symm.trans hstep)).2
    refine ⟨t, hstep, .inl ⟨⟨.next, by decide, compressing_of_step h hstep hnext (by rw [ht]), hrank⟩, ?_⟩⟩
    refine ⟨by rw [ht], hmem, hnext, by rw [ht]; rfl, ?_, ?_, htoken⟩
    · rw [runStart_next hnext, ht]
      rfl
    · rw [runStart_hit hf]
      exact ⟨hheader, hlits, fun h1 h3 _ => (hpatched h1 h3).2, hbelow⟩
  · obtain ⟨t, hstep, hidle, -, hcsr⟩ := hfull (Nat.lt_of_not_le hroom)
    exact ⟨t, hstep, .inr ⟨.inl ⟨hf, Nat.lt_of_not_le hroom⟩, hidle, hcsr⟩⟩

/-- The flush ends the command. -/
theorem step_flush_cases {s : State} (h : s.Compressing .flush) : ∃ t, step s = .next t ∧ (Overflowed s t ∨ Flushed s t) := by
  obtain ⟨-, hf, -, -⟩ := id h
  obtain ⟨hfits, hfull⟩ := flushStep s s.dp.t _ h rfl rfl
  by_cases hroom : s.dp.op + (finalHeader s.dp.op s.dp.t).length + s.dp.t + 3 ≤ s.dstCap
  · obtain ⟨m, t, hstep, ht, hheader, hlits, heos, hpatched, hbelow⟩ := hfits hroom
    refine ⟨t, hstep, .inr ⟨hf, by rw [ht]; rfl, by rw [ht]; rfl, by rw [ht]; rfl, hroom, ?_, heos⟩⟩
    rw [runStart_flush hf]
    exact ⟨hheader, hlits, hpatched, hbelow⟩
  · obtain ⟨t, hstep, hidle, hcsr⟩ := hfull (Nat.lt_of_not_le hroom)
    exact ⟨t, hstep, .inl ⟨.inr ⟨hf, Nat.lt_of_not_le hroom⟩, hidle, hcsr⟩⟩

/-- Every step of a COMPRESS past its checks goes on, quietly or with a match emitted, or ends the command. -/
theorem compressStep_cases {s : State} {ph : CompressPhase} (h : s.Compressing ph) (hph : ph ≠ .check) :
    ∃ t, step s = .next t ∧ (GoesOn s t ∧ (Quiet s t ∨ ph = .hit ∧ MatchEmitted s t) ∨ Overflowed s t ∨ Flushed s t) := by
  cases ph with
  | check => exact absurd rfl hph
  | outer =>
    obtain ⟨t, hstep, hgo, hq⟩ := step_outer_cases h
    exact ⟨t, hstep, .inl ⟨hgo, .inl hq⟩⟩
  | next =>
    obtain ⟨t, hstep, hgo, hq⟩ := step_next_stage_cases h
    exact ⟨t, hstep, .inl ⟨hgo, .inl hq⟩⟩
  | hit =>
    obtain ⟨t, hstep, ⟨hgo, hm⟩ | hover⟩ := step_hit_cases h
    · exact ⟨t, hstep, .inl ⟨hgo, .inr ⟨rfl, hm⟩⟩⟩
    · exact ⟨t, hstep, .inr (.inl hover)⟩
  | flush =>
    obtain ⟨t, hstep, hend⟩ := step_flush_cases h
    exact ⟨t, hstep, .inr hend⟩

/-! ## Runs -/

/-- The induction over a COMPRESS, packaged: what quiet steps and matches keep holds where the command ends, and it does end. -/
theorem compress_runs {P : State → Prop} (hquiet : ∀ s t, Quiet s t → P s → P t)
    (hmatch : ∀ s t, s.Compressing .hit → MatchEmitted s t → P s → P t) {s : State} {ph : CompressPhase} (h : s.Compressing ph)
    (hph : ph ≠ .check) (hP : P s) :
    ∃ k u t, Reaches k s t ∧ (∃ ph', ph' ≠ .check ∧ u.Compressing ph') ∧ P u ∧ (Overflowed u t ∨ Flushed u t) := by
  induction hn : s.rank using Nat.strong_induction_on generalizing s ph with
  | _ n ih =>
    obtain ⟨t, hstep, ⟨⟨ph', hph', ht, hrank⟩, hkind⟩ | hend⟩ := compressStep_cases h hph
    · have hPt : P t := by
        rcases hkind with hq | ⟨rfl, hm⟩
        · exact hquiet s t hq hP
        · exact hmatch s t h hm hP
      obtain ⟨k, u, v, hreach, hu⟩ := ih t.rank (hn ▸ hrank) ht hph' hPt rfl
      exact ⟨k + 1, u, v, reaches_succ.mpr ⟨t, hstep, hreach⟩, hu⟩
    · exact ⟨1, s, t, reaches_succ.mpr ⟨t, hstep, reaches_zero.mpr rfl⟩, ⟨ph, hph, h⟩, hP, hend⟩

/-- The check step of an undisturbed COMPRESS ends it or leads to the outer loop (R212, R214). -/
theorem step_check_cases {s : State} (h : s.Compressing .check) :
    (∃ e, step s = .next (s.terminate e)) ∨ (step s = .next s.beginCompress ∧ s.beginCompress.Compressing .outer) := by
  obtain ⟨-, hf, -, hh⟩ := id h
  have hstep : step s = .next s.checkCompress := by rw [step_engine hh, engineStep_checkCompress hf]
  unfold State.checkCompress at hstep
  split at hstep
  · exact .inl ⟨_, hstep⟩
  · exact .inr ⟨hstep, compressing_of_step h hstep rfl rfl⟩

/-- Settles O30: `compress_runs` with nothing to keep, after the check step where the run starts there. -/
theorem compressEnds : Obligations.CompressEnds := by
  have past {s : State} {ph : CompressPhase} (h : s.Compressing ph) (hph : ph ≠ .check) : ∃ k t, Reaches k s t ∧ t.fsm = .idle ∧
      t.csr.done = true ∧ (t.csr.errcode = 0 ∨ t.csr.errcode = 3) := by
    obtain ⟨k, u, t, hreach, -, -, hend⟩ := compress_runs (P := fun _ => True) (fun _ _ _ h => h) (fun _ _ _ _ h => h) h hph trivial
    rcases hend with hover | hflush
    · exact ⟨k, t, hreach, hover.idle, by rw [hover.csr]; rfl, .inr (by rw [hover.csr]; rfl)⟩
    · exact ⟨k, t, hreach, hflush.idle, by rw [hflush.csr]; rfl, .inl (by rw [hflush.csr]; rfl)⟩
  intro s ph h
  by_cases hph : ph = .check
  · subst hph
    rcases step_check_cases h with ⟨e, hstep⟩ | ⟨hstep, hbegun⟩
    · exact ⟨1, _, reaches_succ.mpr ⟨_, hstep, reaches_zero.mpr rfl⟩, rfl, rfl, fun hne => absurd rfl hne⟩
    · obtain ⟨k, t, hreach, hidle, hdone, -⟩ := past hbegun (by decide)
      exact ⟨k + 1, t, reaches_succ.mpr ⟨_, hstep, hreach⟩, hidle, hdone, fun hne => absurd rfl hne⟩
  · obtain ⟨k, t, hreach, hidle, hdone, hcode⟩ := past h hph
    exact ⟨k, t, hreach, hidle, hdone, fun _ => hcode⟩

end Sys2Proof.Machine
end

section
/-! PROOFS. A whole COMPRESS on a ready block: its start, a short input, and the bound on its output (41_compressor.md R151 to R153, R165, R169,
43_commands.md R212, R214). -/

namespace Sys2Proof.Machine

/-! ## The start of a COMPRESS -/

/-- The state in which a COMPRESS on `s` has passed its checks. -/
def State.compressBegun (s : State) (ie strict : Bool) : State := (s.acceptStart 1 ie strict (.runCompress .check)).beginCompress

theorem accepted_host {s : State} (h : s.Ready) (cmd : BitVec 2) (ie strict : Bool) (f : Fsm) :
    (s.acceptStart cmd ie strict f).host = [] := by
  obtain ⟨-, -, hh, -, -, -⟩ := h
  exact hh

/-- A ready block accepts a COMPRESS (R211). -/
theorem exec_compress_of_ready {s : State} (h : s.Ready) (ie strict : Bool) :
    exec (.compress ie strict) s = .next (s.acceptStart 1 ie strict (.runCompress .check)) := by
  obtain ⟨-, hidle, -, -, -, -⟩ := h
  rw [exec_compress, startCommand_idle hidle]

/-- On a ready block only the input limit is left to check (R212). -/
theorem startError_of_ready {s : State} (h : s.Ready) (ie strict : Bool) :
    (s.acceptStart 1 ie strict (.runCompress .check)).startError true =
      if Config.maxInputLen < s.srcLen then some .inputTooLarge else none := by
  obtain ⟨-, -, -, hinit, hspace, hover⟩ := h
  simp [State.startError, hinit, hspace, hover]

theorem step_compress_of_ready {s : State} (h : s.Ready) (ie strict : Bool) :
    step (s.acceptStart 1 ie strict (.runCompress .check)) =
      .next (s.acceptStart 1 ie strict (.runCompress .check)).checkCompress := by
  rw [step_engine (accepted_host h _ ie strict _), engineStep_checkCompress rfl]

/-- On a ready block an input within the limit passes the checks (R212, R214). -/
theorem compress_begins {s : State} (h : s.Ready) (hlen : s.srcLen ≤ Config.maxInputLen) (ie strict : Bool) :
    step (s.acceptStart 1 ie strict (.runCompress .check)) = .next (s.compressBegun ie strict) ∧
      (s.compressBegun ie strict).Compressing .outer := by
  have hstep := step_compress_of_ready h ie strict
  rw [State.checkCompress, startError_of_ready h, if_neg (Nat.not_lt.mpr hlen)] at hstep
  obtain ⟨hinv, -, hh, -, -, -⟩ := h
  have hchecked : (s.acceptStart 1 ie strict (.runCompress .check)).Compressing .check :=
    ⟨acceptStart_inv hinv ie strict (.inr (.inl ⟨rfl, rfl⟩)), rfl, rfl, hh⟩
  exact ⟨hstep, compressing_of_step hchecked hstep rfl rfl⟩

/-! ## A short input -/

/-- The flush writes DST only, below the output cursor it leaves (R62, R63). -/
theorem flush_onlyDst {s t : State} (h : s.Compressing .flush) (hstep : step s = .next t) : s.OnlyDst t.mem 0 t.dp.op := by
  obtain ⟨hinv, -, hraced, hh⟩ := h
  obtain ⟨hout, habove, -⟩ := engineWritesOnlyAtOp s t hinv hraced hh hstep
  intro a ha
  cases hin : s.inDst a with
  | false => exact hout a hin
  | true =>
    obtain ⟨j, rfl⟩ := Nat.exists_eq_add_of_le (inDst_iff.mp hin).1
    exact habove j (Nat.le_of_not_lt fun hj => ha j (Nat.zero_le j) hj rfl)

/-- An input below MIN_SPAN forms no block, and is left to the flush whole (R153). -/
theorem step_short_outer {s : State} (h : s.Compressing .outer) (ht : s.dp.t = 0) (hl : s.dp.l ≤ 31) :
    step s = .next s.endBlocks ∧ s.endBlocks.Compressing .flush := by
  have hstep := step_outer h
  rw [State.outerStep, if_neg fun hblock => ?_] at hstep
  · exact ⟨hstep, compressing_of_step h hstep rfl rfl⟩
  · have := anotherBlock_iff.mp hblock
    omega

/-- Settles O22: the span is below MIN_SPAN, so the whole input is the flush's first literal run. -/
theorem shortInputCompresses : Obligations.ShortInputCompresses := by
  rintro s n ie strict hready rfl h1 h31 hcap
  obtain ⟨hcheck, hbegun⟩ := compress_begins hready (Nat.le_trans h31 (by decide)) ie strict
  obtain ⟨houter, hv⟩ := step_short_outer hbegun rfl h31
  set v := (s.compressBegun ie strict).endBlocks
  have ht : v.dp.t = s.srcLen := Nat.zero_add _
  have hop : v.dp.op = 0 := rfl
  have hlen : v.srcLen = s.srcLen := rfl
  have hhdr : finalHeader v.dp.op v.dp.t = [BitVec.ofNat 8 (17 + s.srcLen)] := by
    rw [ht]
    exact finalHeader_of_first h1 ⟨hop, by omega⟩
  have htotal : v.dp.op + (finalHeader v.dp.op v.dp.t).length + v.dp.t + 3 = s.srcLen + 4 := by
    rw [hhdr, hop, ht, List.length_singleton]
    omega
  obtain ⟨t, hstep, hover | ⟨-, hidle, hcsr, hopt, -, ⟨hheader, hlits, -, -⟩, heos⟩⟩ := step_flush_cases hv
  · obtain ⟨hhit, -⟩ | ⟨-, hfull⟩ := hover.full
    · cases hhit
    · rw [htotal] at hfull
      exact absurd hcap (Nat.not_le.mpr hfull)
  · have honly := flush_onlyDst hv hstep
    rw [htotal] at hcsr hopt
    rw [hhdr, hop, ht, List.length_singleton, Nat.zero_add] at hlits heos
    rw [hhdr, hop] at hheader
    rw [runStart_flush rfl, hlen, ht, Nat.sub_self] at hlits
    rw [hopt] at honly
    rw [Nat.add_comm 1 s.srcLen] at heos
    refine ⟨_, t, exec_compress_of_ready hready ie strict, ?_, hidle, hcsr, hheader 0 Nat.one_pos,
      fun j hj => ?_, heos 0 (by decide), heos 1 (by decide), heos 2 (by decide), honly⟩
    · exact reaches_succ.mpr ⟨_, hcheck, reaches_succ.mpr ⟨v, houter, reaches_succ.mpr ⟨t, hstep, reaches_zero.mpr rfl⟩⟩⟩
    · have hlit := hlits j hj
      rw [Nat.zero_add] at hlit
      exact hlit

/-! ## The worst case (R169) -/

/-- A run's header takes no byte up to 3 literals, one up to 18, and from there one more for each 255 (R133). -/
theorem runHeader_length (n : Nat) :
    (runHeader n).length = if n ≤ 3 then 0 else if n ≤ 18 then 1 else 2 + (n - 19) / 255 := by
  unfold runHeader
  split_ifs
  · rfl
  · rfl
  · rw [List.length_cons, extBytes_length, extLength]
    omega

/-- A token is shorter than its match (R99 to R101, R162). -/
theorem matchBytes_length_lt {len : Nat} (h : 4 ≤ len) (dist : Nat) : (matchBytes len dist).length < len := by
  have hext (max : Nat) : extLength (len - max) = (len - max - 1) / 255 + 1 := rfl
  unfold matchBytes m2Bytes m3Bytes m4Bytes
  split_ifs <;> simp only [List.length_cons, List.length_append, List.length_nil, extBytes_length, hext] <;> omega

/-- A final run's header takes at most two bytes and one for each 255 literals (R165). -/
theorem finalHeader_length_le (op n : Nat) : (finalHeader op n).length ≤ 2 + n / 255 := by
  unfold finalHeader
  split
  · rw [List.length_singleton]
    omega
  · rw [runHeader_length]
    split_ifs <;> omega

/-- The output so far is at most 17/16 of the input it stands for: a run's header is paid for by its literals and by the byte its match saves. -/
def State.Thrifty (s : State) : Prop := 16 * s.dp.op ≤ 17 * s.runStart

theorem match_thrifty {op start n len : Nat} (h : 16 * op ≤ 17 * start) (hlen : 4 ≤ len) (dist : Nat) :
    16 * (op + (runHeader n).length + n + (matchBytes len dist).length) ≤ 17 * (start + n + len) := by
  have htoken := matchBytes_length_lt hlen dist
  rw [runHeader_length]
  split_ifs <;> omega

theorem final_thrifty {op n srcLen : Nat} (ht : n ≤ srcLen) (h : 16 * op ≤ 17 * (srcLen - n)) :
    op + (finalHeader op n).length + n + 3 ≤ Config.worstCase srcLen := by
  have hhdr := finalHeader_length_le op n
  simp only [Config.worstCase]
  omega

/-- Where a match lies in SRC: its pending run starts before it, and it ends in SRC. -/
theorem hit_inSrc {s : State} (h : s.Compressing .hit) :
    s.runStart + s.pending = s.dp.ip ∧ s.dp.ip + s.extendMatch.dp.mLen ≤ s.srcLen := by
  obtain ⟨hinv, hf, -, -⟩ := h
  obtain ⟨hb, -⟩ := hit_inBlock hinv hf
  have hend := extendMatch_end_le hinv hf
  have hii := hb.ii_le
  have hlll := hb.ll_le_l
  have hp := hb.p_eq
  have hpl := hb.p_add_l
  rw [runStart_hit hf, State.pending]
  omega

theorem MatchEmitted.thrifty {s t : State} (h : MatchEmitted s t) (hs : s.Compressing .hit) (hthrifty : s.Thrifty) : t.Thrifty := by
  obtain ⟨hlen, -⟩ := extendMatch_mLen_bounds s
  rw [State.Thrifty, h.op, h.runStart, ← (hit_inSrc hs).1]
  exact match_thrifty hthrifty hlen _

/-- A thrifty COMPRESS has room for what it emits next, where DST has the worst case's (R169). -/
theorem not_noRoom {s : State} {ph : CompressPhase} (h : s.Compressing ph) (hthrifty : s.Thrifty)
    (hcap : Config.worstCase s.srcLen ≤ s.dstCap) : ¬ s.NoRoom := by
  obtain ⟨hinv, hf, -, -⟩ := id h
  rintro (⟨hf', hfull⟩ | ⟨hf', hfull⟩) <;> obtain rfl : ph = _ := by simpa [hf'] using hf.symm
  · obtain ⟨hpending, hend⟩ := hit_inSrc h
    obtain ⟨hlen, -⟩ := extendMatch_mLen_bounds s
    have hmatch := match_thrifty (n := s.pending) hthrifty hlen (s.dp.ip - s.dp.mPos)
    rw [State.token] at hfull
    simp only [Config.worstCase] at hcap
    omega
  · obtain ⟨-, ht⟩ := (stageOk_flush hf').mp (stageOk_of_inv hinv)
    rw [State.Thrifty, runStart_flush hf'] at hthrifty
    have hfinal := final_thrifty ht hthrifty
    omega

/-- Settles O32: a COMPRESS stays thrifty, so that nothing overflows, and the flush of a thrifty COMPRESS stays within the bound. -/
theorem worstCaseBound : Obligations.WorstCaseBound := by
  intro s ie strict hready hlen hcap
  obtain ⟨hcheck, hbegun⟩ := compress_begins hready hlen ie strict
  obtain ⟨k, u, t, hreach, ⟨ph, -, hu⟩, ⟨hcsr, hthrifty⟩, hend⟩ := compress_runs
    (P := fun u => u.csr = (s.compressBegun ie strict).csr ∧ u.Thrifty)
    (fun v w hq ⟨hc, hl⟩ => ⟨hq.csr.trans hc, by rw [State.Thrifty, hq.op, hq.runStart]; exact hl⟩)
    (fun v w hv hm ⟨hc, hl⟩ => ⟨hm.csr.trans hc, hm.thrifty hv hl⟩) hbegun (by decide) ⟨rfl, Nat.zero_le _⟩
  have hsrc : u.srcLen = s.srcLen := srcLen_congr (s := s.compressBegun ie strict) hcsr
  have hdst : u.dstCap = s.dstCap := dstCap_congr (s := s.compressBegun ie strict) hcsr
  refine ⟨_, k + 1, t, exec_compress_of_ready hready ie strict, reaches_succ.mpr ⟨_, hcheck, hreach⟩, ?_⟩
  rcases hend with hover | hflush
  · exact absurd hover.full (not_noRoom hu hthrifty (by rw [hsrc, hdst]; exact hcap))
  · obtain ⟨hinv, -, -, -⟩ := id hu
    obtain ⟨-, ht⟩ := (stageOk_flush hflush.flush).mp (stageOk_of_inv hinv)
    rw [State.Thrifty, runStart_flush hflush.flush] at hthrifty
    have hfinal := final_thrifty ht hthrifty
    refine ⟨hflush.idle, by rw [hflush.csr]; rfl, by rw [hflush.csr]; rfl, ?_⟩
    rw [hflush.csr, ← hsrc]
    exact Nat.le_trans (Nat.mod_le _ _) hfinal

end Sys2Proof.Machine
end

section
/-! PROOFS. Byte strings that spell tokens for a given input: what a running DECOMPRESS does with one (30_encoding.md R91 to R101,
42_decompressor.md R182 to R193). -/

namespace Sys2Proof.Machine

/-! ## Runs, one after the other -/

theorem reaches_trans {j k : Nat} {s t u : State} (h : Reaches j s t) (h' : Reaches k t u) : Reaches (j + k) s u := by
  induction j generalizing s with
  | zero =>
    obtain rfl := reaches_zero.mp h
    rwa [Nat.zero_add]
  | succ j ih =>
    obtain ⟨v, hstep, hrest⟩ := reaches_succ.mp h
    rw [Nat.succ_add]
    exact reaches_succ.mpr ⟨v, hstep, ih hrest⟩

theorem reaches_step {s t : State} (h : step s = .next t) : Reaches 1 s t := reaches_succ.mpr ⟨t, h, reaches_zero.mpr rfl⟩

/-! ## Bytes of SRC -/

theorem srcFrom_add (s : State) (a b i : Nat) : s.srcFrom (a + b) i = s.srcFrom a i ++ s.srcFrom b (i + a) := by
  induction a generalizing i with
  | zero => rw [Nat.zero_add]; rfl
  | succ a ih => rw [Nat.succ_add, State.srcFrom, ih, State.srcFrom, List.cons_append, Nat.succ_add_eq_add_succ]

/-- SRC holds a concatenation where it holds the parts one after the other. -/
theorem srcFrom_eq_append {s : State} {as bs : List Byte} {i : Nat} : s.srcFrom (as ++ bs).length i = as ++ bs ↔
    s.srcFrom as.length i = as ∧ s.srcFrom bs.length (i + as.length) = bs := by
  rw [List.length_append, srcFrom_add]
  constructor
  · exact fun h => List.append_inj h (srcFrom_length s _ _)
  · rintro ⟨ha, hb⟩
    rw [ha, hb]

/-! ## Byte strings that spell tokens -/

/-- Where a decoder has written the first `q` bytes of SRC of `r`, the token `i`, with the next `n` of them after its header, takes it to
the first `q'` and leaves it in state `st`: a literal token, or a copy of bytes that come again (R142, R148). -/
inductive Continues (r : State) (q : Nat) (i : Instr) : Nat → DecState → Nat → Prop where
  | literals {n : Nat} {st : DecState} (hlits : LiteralOutcome i n st) : Continues r q i n st (q + n)
  | copy {len dist : Nat} {t : BitVec 2} (hcopy : CopyOutcome i len dist t) (h1 : 1 ≤ dist) (hd : dist ≤ q)
      (hagain : ∀ k, k < len → r.src (q - dist + k) = r.src (q + k)) :
      Continues r q i t.toNat (.trail t) (q + len + t.toNat)

/-- `bs` spells a string of tokens that a decoder reads from START on, which leaves it in decoder state `st` with the first `q` bytes of SRC of
`r` written (R91, R93). -/
inductive Spells (r : State) : List Byte → DecState → Nat → Prop where
  | nil : Spells r [] .start 0
  | token {bs : List Byte} {st st' : DecState} {q q' n : Nat} {i : Instr} (h : Spells r bs st q) (hwf : i.wf = true)
      (hread : i.readIn st = true) (hi : Continues r q i n st' q') : Spells r (bs ++ (encode i ++ r.srcFrom n (q' - n))) st' q'

/-! ## A DECOMPRESS of spelled tokens -/

/-- `v` is the DECOMPRESS that began in `u`, undisturbed, at SRC offset `ip` in decoder state `st`, with the first `q` bytes of SRC of `r` in DST
and nothing else changed. -/
structure Reproduced (r u v : State) (ip : Nat) (st : DecState) (q : Nat) : Prop where
  fsm : v.fsm = .runDecompress .fetch
  raced : v.raced = false
  host : v.host = []
  csr : v.csr = u.csr
  ip : v.dp.ip = ip
  op : v.dp.op = q
  sreg : v.dp.sreg = st
  dst : ∀ j, j < q → v.dst j = r.src j
  only : u.OnlyDst v.mem 0 q

section
variable {r u v : State} {ip q : Nat} {st : DecState}

theorem Reproduced.decoding (h : Reproduced r u v ip st q) (hv : v.Inv) : v.Decoding := ⟨hv, h.fsm, h.raced⟩

theorem Reproduced.srcLen (h : Reproduced r u v ip st q) : v.srcLen = u.srcLen := srcLen_congr h.csr

theorem Reproduced.dstCap (h : Reproduced r u v ip st q) : v.dstCap = u.dstCap := dstCap_congr h.csr

/-- What is written in DST leaves SRC alone (R75). -/
theorem Reproduced.srcFrom (h : Reproduced r u v ip st q) (hover : u.overlap = false) (hcap : q ≤ u.dstCap) {n i : Nat}
    (hn : i + n ≤ u.srcLen) : v.srcFrom n i = u.srcFrom n i :=
  srcFrom_congr_of_lt fun _ hj => src_of_onlyDst hover h.csr h.only hcap (by omega)

/-- The step at a spelled token runs it with its header consumed (R182). -/
theorem Reproduced.step_token (h : Reproduced r u v ip st q) (hv : v.Inv) (hover : u.overlap = false) (hcap : q ≤ u.dstCap)
    {i : Instr} (hwf : i.wf = true) (hread : i.readIn st = true) (hend : ip + (encode i).length ≤ u.srcLen)
    (hsrc : u.srcFrom (encode i).length ip = encode i) :
    ∃ c, step v = exec i c ∧ c.Inv ∧ Reproduced r u c (ip + (encode i).length) st q := by
  have hstream : v.stream = encode i ++ u.srcFrom (u.srcLen - ip - (encode i).length) (ip + (encode i).length) := by
    rw [State.stream, h.ip, h.srcLen, h.srcFrom hover hcap (by omega),
      show u.srcLen - ip = (encode i).length + (u.srcLen - ip - (encode i).length) by omega, srcFrom_add, hsrc]
    congr 2
    omega
  have hstep := stepRunsEncodedToken v i _ (h.decoding hv) h.host hwf (by rw [h.sreg]; exact hread) hstream
  have hc : (v.consumed i (encode i).length).Decoding :=
    consumed_decoding (h.decoding hv) (by rw [h.ip, h.srcLen]; exact hend)
  exact ⟨_, hstep, hc.1, h.fsm, h.raced, h.host, h.csr, congrArg (· + (encode i).length) h.ip, (consumed_op v i _).trans h.op,
    (consumed_sreg v i _).trans h.sreg, h.dst, h.only⟩

/-- Bytes in DST up to `q'`, and the next `n` bytes of the stream after them, are the bytes of SRC of `r`. -/
theorem Reproduced.written (h : Reproduced r u v ip st q) (hover : u.overlap = false) (hcap : q ≤ u.dstCap) {n q' : Nat}
    {st' : DecState} {m : Memory} {d : Datapath} (hip : d.ip = ip + n) (hop : d.op = q' + n) (hsreg : d.sreg = st') (hq : q ≤ q')
    (hdst : ∀ j, j < q' → Store.read m (v.dstAddr j) = r.src j)
    (hlits : ∀ j, j < n → Store.read m (v.dstAddr (q' + j)) = v.src (ip + j)) (hframe : v.OnlyDst m q (q' + n))
    (hend : ip + n ≤ u.srcLen) (hsrc : u.srcFrom n ip = r.srcFrom n q') :
    Reproduced r u { v with mem := m, dp := d } (ip + n) st' (q' + n) := by
  refine ⟨h.fsm, h.raced, h.host, h.csr, hip, hop, hsreg, fun j hj => ?_, fun a ha => ?_⟩
  · by_cases hold : j < q'
    · exact hdst j hold
    · obtain ⟨k, rfl⟩ := Nat.exists_eq_add_of_le (Nat.le_of_not_lt hold)
      have hnext : v.srcFrom n ip = r.srcFrom n q' := (h.srcFrom hover hcap hend).trans hsrc
      have hk : k < n := by omega
      refine (hlits k hk).trans ?_
      rw [← srcFrom_getElem v n ip k (by simpa using hk), ← srcFrom_getElem r n q' k (by simpa using hk)]
      simp only [hnext]
  · have hbase (j : Nat) : v.dstAddr j = u.dstAddr j := dstAddr_congr (by rw [h.csr]) j
    rw [← h.only a fun j _ hj => ha j (Nat.zero_le j) (by omega)]
    exact hframe a fun j _ hj => hbase j ▸ ha j (Nat.zero_le j) hj

/-- A token that continues the bytes reproduces them: a literal token copies them from the stream (R142), a copy from DST (R141, R148). -/
theorem Reproduced.exec_token (h : Reproduced r u v ip st q) (hv : v.Inv) (hover : u.overlap = false) {i : Instr} {n q' : Nat}
    {st' : DecState} (hi : Continues r q i n st' q') (hend : ip + n ≤ u.srcLen) (hcap : q' ≤ u.dstCap)
    (hsrc : u.srcFrom n ip = r.srcFrom n (q' - n)) : ∃ w, exec i v = .next w ∧ Reproduced r u w (ip + n) st' q' := by
  cases hi with
  | literals hlits =>
    obtain ⟨-, -, hfits⟩ := hlits v (h.decoding hv)
    rw [h.op, h.ip, h.dstCap, h.srcLen] at hfits
    obtain ⟨m, hexec, -, hcopied, hframe⟩ := hfits hcap hend
    rw [Nat.add_sub_cancel] at hsrc
    refine ⟨_, hexec, h.written hover (by omega) rfl rfl rfl (Nat.le_refl q) (fun j hj => ?_) hcopied hframe hend hsrc⟩
    rw [← h.dst j hj]
    refine hframe _ fun k hk _ => ?_
    simp only [State.dstAddr]
    omega
  | copy hcopy h1 hd hagain =>
    obtain ⟨-, -, -, -, hfits⟩ := hcopy v (h.decoding hv) h1
    rw [h.op, h.ip, h.dstCap, h.srcLen] at hfits
    obtain ⟨m, hexec, hcopied, hlits⟩ := hfits hd hcap hend
    have hstring := hcopied.reads_string (x := r.src) h1 (by rwa [h.op]) (by rw [h.op]; exact h.dst) (by rwa [h.op])
    obtain ⟨-, -, hframe⟩ := hcopied
    rw [h.op] at hstring hframe
    rw [Nat.add_sub_cancel] at hsrc
    exact ⟨_, hexec, h.written hover (by omega) rfl rfl rfl (Nat.le_add_right q _) hstring hlits hframe hend hsrc⟩

theorem Continues.le {i : Instr} {n q' : Nat} {st' : DecState} (h : Continues r q i n st' q') : q ≤ q' := by
  cases h <;> omega

end

/-- A DECOMPRESS whose SRC begins with spelled tokens reads them all, and writes the bytes they stand for. -/
theorem Spells.decodes {r u : State} {bs : List Byte} {st : DecState} {q : Nat} (h : Spells r bs st q) (hu : u.Inv)
    (hover : u.overlap = false) (h0 : Reproduced r u u 0 .start 0) (hsrc : u.srcFrom bs.length 0 = bs)
    (hend : bs.length ≤ u.srcLen) (hcap : q ≤ u.dstCap) :
    ∃ k v, Reaches k u v ∧ v.Inv ∧ Reproduced r u v bs.length st q := by
  induction h with
  | nil => exact ⟨0, u, reaches_zero.mpr rfl, hu, h0⟩
  | @token bs st st' q q' n i _ hwf hread hi ih =>
    rw [srcFrom_eq_append, Nat.zero_add, srcFrom_eq_append] at hsrc
    obtain ⟨hbs, hheader, hbytes⟩ := hsrc
    simp only [List.length_append, srcFrom_length] at hend hbytes ⊢
    have hq := hi.le
    obtain ⟨k, v, hreach, hv, hrep⟩ := ih hbs (by omega) (by omega)
    obtain ⟨c, hstep, hc, htoken⟩ := hrep.step_token hv hover (by omega) hwf hread (by omega) hheader
    obtain ⟨w, hexec, hw⟩ := htoken.exec_token hc hover hi (by omega) hcap hbytes
    rw [hexec] at hstep
    exact ⟨k + 1, w, reaches_trans hreach (reaches_step hstep), stepKeepsInvariant v w hv hstep, Nat.add_assoc .. ▸ hw⟩

end Sys2Proof.Machine
end

section
/-! PROOFS. What a COMPRESS has written spells its input up to the pending run, at every stage, and so decompresses to it (40_primitives.md R139,
R146, 41_compressor.md R159 to R166, R170). -/

namespace Sys2Proof.Machine

/-! ## The token of a match -/

/-- The token that R162 chooses for a match, with `t` literals after it. -/
def matchToken (len dist : Nat) (t : BitVec 2) : Instr :=
  if len ≤ 8 ∧ dist ≤ 2048 then .m2 len dist t else if dist ≤ 16384 then .m3 len dist t else .m4 len dist t

/-- `Patch2` on the bytes of a match's token sets its T (R139). -/
theorem patchBytes_matchToken (len dist : Nat) (t : BitVec 2) :
    patchBytes (encode (matchToken len dist 0)) t = encode (matchToken len dist t) := by
  unfold matchToken
  split_ifs
  · exact patchBytes_m2 len dist t
  · exact patchBytes_m3 len dist t
  · exact patchBytes_m4 len dist t

theorem matchToken_wf {len dist : Nat} (hlen : 4 ≤ len) (h1 : 1 ≤ dist) (hd : dist ≤ 49151) (t : BitVec 2) :
    (matchToken len dist t).wf = true := by
  unfold matchToken
  split_ifs
  · exact wf_m2_iff.mpr (by omega)
  · exact wf_m3_iff.mpr (by omega)
  · exact wf_m4_iff.mpr (by omega)

theorem matchToken_readIn {st : DecState} (h : st ≠ .start) (len dist : Nat) (t : BitVec 2) :
    (matchToken len dist t).readIn st = true := by
  unfold matchToken
  split_ifs <;> simp [Instr.readIn, h]

theorem matchToken_copies (len dist : Nat) (t : BitVec 2) : CopyOutcome (matchToken len dist t) len dist t := by
  obtain ⟨-, -, hm2, hm3, hm4⟩ := copyTokens len dist t
  unfold matchToken
  split_ifs
  · exact hm2
  · exact hm3
  · exact hm4

/-! ## What a COMPRESS has written -/

/-- `bs` is what a COMPRESS may have written when its pending run starts at `q`: nothing, or tokens that spell the first `q` bytes of SRC of `r`,
the last of them a match's with T = 0, so that a short run can ride in it (R133, R139, R162). -/
inductive Written (r : State) : List Byte → Nat → Prop where
  | nothing : Written r [] 0
  | matched {bs : List Byte} {st : DecState} {q len dist : Nat} (h : Spells r bs st q) (hst : st ≠ .start) (hlen : 4 ≤ len)
      (h1 : 1 ≤ dist) (hd : dist ≤ q) (hfar : dist ≤ 49151) (hagain : ∀ k, k < len → r.src (q - dist + k) = r.src (q + k)) :
      Written r (bs ++ matchBytes len dist) (q + len)

/-- The bytes before a run of `n` literals: up to 3 of them ride in the last token, if there is one (R133, R139). -/
def rideBytes (n : Nat) (bs : List Byte) : List Byte := if n ≤ 3 ∧ bs ≠ [] then patchBytes bs (BitVec.ofNat 2 n) else bs

theorem rideBytes_nil (n : Nat) : rideBytes n [] = [] := if_neg fun ⟨_, hne⟩ => hne rfl

theorem rideBytes_length (n : Nat) (bs : List Byte) : (rideBytes n bs).length = bs.length := by
  unfold rideBytes
  split
  · exact patchBytes_length bs _
  · rfl

/-- `Patch2` reaches only the last token. -/
theorem patchBytes_append {bs cs : List Byte} (h : 2 ≤ cs.length) (t : BitVec 2) :
    patchBytes (bs ++ cs) t = bs ++ patchBytes cs t := by
  have hlast : bs.length + cs.length - 2 = bs.length + (cs.length - 2) := by omega
  simp [patchBytes, hlast, List.set_append_right, List.getElem?_append_right]

/-- A match's token spells the match, and the run of up to 3 literals that rides in it. -/
theorem spells_match {r : State} {bs : List Byte} {st : DecState} {q len dist : Nat} (h : Spells r bs st q) (hst : st ≠ .start)
    (hlen : 4 ≤ len) (h1 : 1 ≤ dist) (hd : dist ≤ q) (hfar : dist ≤ 49151)
    (hagain : ∀ k, k < len → r.src (q - dist + k) = r.src (q + k)) {n : Nat} (h3 : n ≤ 3) :
    Spells r (bs ++ (encode (matchToken len dist (BitVec.ofNat 2 n)) ++ r.srcFrom n (q + len))) (.trail (BitVec.ofNat 2 n))
      (q + len + n) := by
  have hn : (BitVec.ofNat 2 n).toNat = n := by
    rw [BitVec.toNat_ofNat]
    exact Nat.mod_eq_of_lt (by omega)
  have hcopy := Spells.token h (matchToken_wf hlen h1 hfar _) (matchToken_readIn hst _ _ _)
    (.copy (matchToken_copies len dist (BitVec.ofNat 2 n)) h1 hd hagain)
  rwa [hn, Nat.add_sub_cancel] at hcopy

/-- A literal run of 4 or more is a LIT token, short or long, wherever a LIT can be read (R93, R95, R96, R133). -/
theorem spells_run {r : State} {bs : List Byte} {st : DecState} {q n : Nat} (h : Spells r bs st q) (hst : st = .start ∨ st = .trail 0)
    (h4 : 4 ≤ n) : Spells r (bs ++ (runHeader n ++ r.srcFrom n q)) .run (q + n) := by
  obtain ⟨-, hshort, hlong⟩ := literalTokens n
  rw [← litHeader_eq_runHeader (by omega), litHeader_eq_encode]
  split
  · next h18 =>
    have hrun := Spells.token h (wf_litShort_iff.mpr ⟨h4, h18⟩) (by simpa [Instr.readIn] using hst) (.literals hshort)
    rwa [Nat.add_sub_cancel] at hrun
  · next h18 =>
    have hrun := Spells.token h (wf_litLong_iff.mpr (by omega)) (by simpa [Instr.readIn] using hst) (.literals hlong)
    rwa [Nat.add_sub_cancel] at hrun

theorem append_matchBytes_ne_nil (bs : List Byte) (len dist : Nat) : bs ++ matchBytes len dist ≠ [] :=
  List.append_ne_nil_of_right_ne_nil _
    (List.ne_nil_of_length_pos (Nat.lt_of_lt_of_le Nat.two_pos (matchBytes_length_ge len dist)))

theorem Written.start {r : State} {bs : List Byte} {q : Nat} (h : Written r bs q) (hnil : bs = []) : q = 0 := by
  cases h with
  | nothing => rfl
  | matched => exact absurd hnil (append_matchBytes_ne_nil _ _ _)

/-- After a run of literals, with at least 4 of them if they come first, all that is written spells the input up to the run's end, and the next
token is not read at START (R133, R155, R159). -/
theorem Written.run {r : State} {bs : List Byte} {q : Nat} (h : Written r bs q) {n : Nat} (hn : bs = [] → 4 ≤ n) :
    ∃ st, st ≠ .start ∧ Spells r (rideBytes n bs ++ (runHeader n ++ r.srcFrom n q)) st (q + n) := by
  cases h with
  | nothing =>
    rw [rideBytes_nil]
    exact ⟨.run, by decide, spells_run .nil (.inl rfl) (hn rfl)⟩
  | @matched bs st q len dist h hst hlen h1 hd hfar hagain =>
    have hne := append_matchBytes_ne_nil bs len dist
    have hbytes : matchBytes len dist = encode (matchToken len dist 0) := tokenChoiceEncodes len dist hlen h1 hfar
    by_cases h3 : n ≤ 3
    · have hmatch := spells_match h hst hlen h1 hd hfar hagain h3
      rw [rideBytes, if_pos ⟨h3, hne⟩, runHeader_of_le h3, List.nil_append, patchBytes_append (matchBytes_length_ge len dist), hbytes,
        patchBytes_matchToken, List.append_assoc]
      exact ⟨.trail (BitVec.ofNat 2 n), nofun, hmatch⟩
    · have hmatch := spells_match h hst hlen h1 hd hfar hagain (n := 0) (Nat.zero_le 3)
      rw [rideBytes, if_neg fun ⟨h, _⟩ => h3 h, hbytes]
      rw [State.srcFrom, List.append_nil] at hmatch
      exact ⟨.run, by decide, spells_run hmatch (.inr rfl) (by omega)⟩

/-- The final run, in the first-literal form where nothing is written before it, completes the spelling of the input (R165). -/
theorem Written.finalRun {r : State} {bs : List Byte} {q : Nat} (h : Written r bs q) (n : Nat) :
    ∃ st, Spells r (rideBytes n bs ++ (finalHeader bs.length n ++ r.srcFrom n q)) st (q + n) := by
  by_cases hfirst : bs.length = 0 ∧ n ≤ 238
  · obtain ⟨hnil, h238⟩ := hfirst
    obtain rfl := List.length_eq_zero_iff.mp hnil
    obtain rfl := h.start rfl
    rw [rideBytes_nil, List.length_nil]
    by_cases h0 : n = 0
    · subst h0
      rw [finalHeader_zero]
      exact ⟨.start, .nil⟩
    · obtain ⟨hlitf, -⟩ := literalTokens n
      have hrun := Spells.token (r := r) .nil (wf_litf_iff.mpr ⟨by omega, h238⟩) rfl (.literals hlitf)
      rw [Nat.add_sub_cancel] at hrun
      rw [finalHeader_of_first (by omega) ⟨rfl, h238⟩]
      exact ⟨_, hrun⟩
  · obtain ⟨st, -, hrun⟩ := h.run (n := n) fun hnil => by
      subst hnil
      rw [List.length_nil] at hfirst
      omega
    rw [finalHeader_of_not_first hfirst]
    exact ⟨st, hrun⟩

/-! ## The bytes in DST -/

/-- Up to 3 literals ride in the last token's second-to-last byte (R139). -/
theorem RunHeld.ridden {hdr : List Byte} {n start : Nat} {s t : State} (h : RunHeld hdr n start s t) (h3 : n ≤ 3)
    (hop : s.dp.op ≠ 0) : t.dst (s.dp.op - 2) = s.dst (s.dp.op - 2) ||| (BitVec.ofNat 2 n).setWidth 8 := by
  by_cases h0 : n = 0
  · subst h0
    rw [h.below _ (by omega) (.inl rfl)]
    simp
  · have hcount : (BitVec.ofNat 2 n).setWidth 8 = BitVec.ofNat 8 n := by interval_cases n <;> rfl
    rw [hcount]
    exact h.patched (by omega) h3 hop

/-- Where DST held `bs` before a run, it holds them after it, but for the count that rides in them. -/
theorem RunHeld.holds_ride {hdr bs : List Byte} {n start : Nat} {s t : State} (h : RunHeld hdr n start s t) (hbs : s.Holds 0 bs)
    (hop : bs.length = s.dp.op) : t.Holds 0 (rideBytes n bs) := by
  intro j hj
  have hj' : j < bs.length := rideBytes_length n bs ▸ hj
  have hold : s.dst j = bs[j] := by simpa using hbs j hj'
  rw [Nat.zero_add]
  by_cases hride : n ≤ 3 ∧ bs ≠ []
  · have hbytes : rideBytes n bs = bs.set (bs.length - 2) (bs.getD (bs.length - 2) 0 ||| (BitVec.ofNat 2 n).setWidth 8) := if_pos hride
    simp only [hbytes, List.getElem_set]
    split
    · next he =>
      subst he
      rw [hop, h.ridden hride.1 (by omega), ← hop, hold, List.getD_eq_getElem _ _ hj']
    · next he => rw [h.below j (by omega) (.inr (.inr (by omega))), hold]
  · have hbytes : rideBytes n bs = bs := if_neg hride
    have hlong : 3 < n := Nat.lt_of_not_le fun h3 => hride ⟨h3, List.ne_nil_of_length_pos (by omega)⟩
    simp only [hbytes]
    rw [h.below j (by omega) (.inr (.inl hlong)), hold]

/-- DST after a run: the bytes before it, its header, and its literals. -/
theorem RunHeld.holds {hdr bs : List Byte} {n start : Nat} {s t : State} (h : RunHeld hdr n start s t) (hbs : s.Holds 0 bs)
    (hop : bs.length = s.dp.op) : t.Holds 0 (rideBytes n bs ++ (hdr ++ s.srcFrom n start)) := by
  rw [holds_append, holds_append, holds_srcFrom, rideBytes_length, Nat.zero_add, hop]
  exact ⟨h.holds_ride hbs hop, h.header, h.literals⟩

/-! ## The invariant of the round trip -/

/-- A COMPRESS of the input of `r` is at `s`: SRC still holds the input, what is written spells the input up to the pending run, and at a match
the probed bytes are equal. -/
structure Spelled (r s : State) : Prop where
  csr : s.csr = r.csr
  src : ∀ j, j < r.srcLen → s.src j = r.src j
  probed : s.fsm = .runCompress .hit → s.le32 s.dp.mPos = s.le32 s.dp.ip
  written : ∃ bs, Written r bs s.runStart ∧ bs.length = s.dp.op ∧ s.Holds 0 bs

section
variable {r s t : State}

theorem Spelled.quiet (h : Spelled r s) (hq : Quiet s t) : Spelled r t := by
  have hdst (j : Nat) : t.dst j = s.dst j := by rw [State.dst, State.dst, State.dstAddr, State.dstAddr, hq.csr, hq.mem]
  have hsrc (j : Nat) : t.src j = s.src j := by rw [State.src, State.src, State.srcAddr, State.srcAddr, hq.csr, hq.mem]
  obtain ⟨bs, hbs, hop, hholds⟩ := h.written
  refine ⟨hq.csr.trans h.csr, fun j hj => (hsrc j).trans (h.src j hj), hq.probed, bs, ?_, hop.trans hq.op.symm, fun j hj => ?_⟩
  · rwa [hq.runStart]
  · rw [hdst]
    exact hholds j hj

/-- Before the first token a match has at least 4 pending literals (R133, R155). -/
theorem four_le_pending (h : s.Compressing .hit) (hop : s.dp.op = 0) : 4 ≤ s.pending := by
  obtain ⟨hinv, hf, -, -⟩ := h
  obtain ⟨-, hb, hfirst, -⟩ := (stageOk_hit hf).mp (stageOk_of_inv hinv)
  have hti := hb.ti_le
  unfold State.pending
  omega

/-- A run emitted at the output cursor follows what was written, which spelled the input up to it. -/
theorem Spelled.run (h : Spelled r s) {hdr : List Byte} {n : Nat} (hheld : RunHeld hdr n s.runStart s t)
    (hn : s.runStart + n ≤ r.srcLen) : ∃ bs, Written r bs s.runStart ∧ bs.length = s.dp.op ∧
      t.Holds 0 (rideBytes n bs ++ (hdr ++ r.srcFrom n s.runStart)) := by
  obtain ⟨bs, hbs, hop, hholds⟩ := h.written
  have hrun := hheld.holds hholds hop
  rw [srcFrom_congr_of_lt fun j hj => h.src j (by omega)] at hrun
  exact ⟨bs, hbs, hop, hrun⟩

theorem rideBytes_run_length {n i : Nat} {bs hdr : List Byte} (hop : bs.length = s.dp.op) :
    (rideBytes n bs ++ (hdr ++ r.srcFrom n i)).length = s.dp.op + hdr.length + n := by
  rw [List.length_append, rideBytes_length, List.length_append, srcFrom_length, hop, Nat.add_assoc]

/-- The input repeats itself over a match (R148, R160). -/
theorem Spelled.repeats (h : Spelled r s) (hs : s.Compressing .hit) {k : Nat} (hk : k < s.extendMatch.dp.mLen) :
    r.src (s.dp.ip - (s.dp.ip - s.dp.mPos) + k) = r.src (s.dp.ip + k) := by
  obtain ⟨hinv, hf, -, -⟩ := id hs
  obtain ⟨-, -, -, hback⟩ := hit_inBlock hinv hf
  obtain ⟨-, hend⟩ := hit_inSrc hs
  have hsrcLen : s.srcLen = r.srcLen := srcLen_congr h.csr
  rw [Nat.sub_sub_self hback.le, ← h.src _ (by omega), ← h.src _ (by omega)]
  exact (extendMatch_src (h.probed hf) hk).symm

theorem Spelled.matched (h : Spelled r s) (hs : s.Compressing .hit) (hm : MatchEmitted s t) : Spelled r t := by
  obtain ⟨hinv, hf, -, -⟩ := id hs
  obtain ⟨hst, -⟩ := (stageOk_hit hf).mp (stageOk_of_inv hinv)
  obtain ⟨h1, hdist, hll, -⟩ := matchDistanceBound s hinv hf
  obtain ⟨hpending, hend⟩ := hit_inSrc hs
  obtain ⟨hlen, -⟩ := extendMatch_mLen_bounds s
  have hsrcLen : s.srcLen = r.srcLen := srcLen_congr h.csr
  obtain ⟨bs, hbs, hop, hholds⟩ := h.run hm.run (by omega)
  obtain ⟨st, hst', hspells⟩ := hbs.run (n := s.pending) fun hnil => four_le_pending hs (by rw [← hop, hnil]; rfl)
  have hlength := rideBytes_run_length (r := r) (n := s.pending) (i := s.runStart) (hdr := runHeader s.pending) hop
  rw [hpending] at hspells
  refine ⟨hm.csr.trans h.csr, fun j hj => ?_, fun hhit => ?_, _, ?_, ?_, holds_append.mpr ⟨hholds, (?_ : t.Holds _ s.token)⟩⟩
  · rw [src_of_dstWritten hst.overlap hm.csr hm.mem (hsrcLen ▸ hj)]
    exact h.src j hj
  · cases hm.next.symm.trans hhit
  · rw [hm.runStart]
    exact .matched hspells hst' hlen h1 (Nat.sub_le _ _) (by omega) fun k => h.repeats hs
  · rw [List.length_append, hlength, hm.op]
  · rw [hlength, Nat.zero_add]
    exact hm.token

end

/-! ## The whole round trip (R170) -/

/-- An IDLE block without a host turn to come stays as it is. -/
theorem eq_of_reaches_idle {k : Nat} {s t : State} (hf : s.fsm = .idle) (hh : s.host = []) (h : Reaches k s t) : s = t := by
  induction k with
  | zero => exact reaches_zero.mp h
  | succ k ih =>
    obtain ⟨u, hstep, hrest⟩ := reaches_succ.mp h
    rw [step_engine hh, engineStep_idle hf] at hstep
    cases hstep
    exact ih hrest

/-- A run without host turns ends in one IDLE state, however long it is watched. -/
theorem reaches_idle_unique {j k : Nat} {s t t' : State} (hh : s.host = []) (h : Reaches j s t) (hf : t.fsm = .idle)
    (h' : Reaches k s t') (hf' : t'.fsm = .idle) : t = t' := by
  induction j generalizing s k with
  | zero =>
    obtain rfl := reaches_zero.mp h
    exact eq_of_reaches_idle hf hh h'
  | succ j ih =>
    cases k with
    | zero =>
      obtain rfl := reaches_zero.mp h'
      exact (eq_of_reaches_idle hf' hh h).symm
    | succ k =>
      obtain ⟨u, hstep, hrest⟩ := reaches_succ.mp h
      obtain ⟨u', hstep', hrest'⟩ := reaches_succ.mp h'
      cases hstep.symm.trans hstep'
      rw [step_engine hh] at hstep
      exact ih ((engineStep_engineFrame hstep).host.trans hh) hrest hrest'

/-- A COMPRESS that ends OK writes a byte string that spells its input, and the end marker (R165, R166). -/
theorem compress_spells {s t : State} {k : Nat} {ie strict : Bool} (hready : s.Ready)
    (hreach : Reaches k (s.acceptStart 1 ie strict (.runCompress .check)) t) (hidle : t.fsm = .idle) (hcode : t.csr.errcode = 0) :
    ∃ bs st, Spells (s.compressBegun ie strict) bs st s.srcLen ∧ t.csr.outLen.toNat = bs.length + 3 ∧ t.Holds 0 (bs ++ eosBytes) := by
  have hh := accepted_host hready 1 ie strict (.runCompress .check)
  by_cases hlen : s.srcLen ≤ Config.maxInputLen
  · obtain ⟨hcheck, hbegun⟩ := compress_begins hready hlen ie strict
    set r := s.compressBegun ie strict
    have hr : Spelled r r := ⟨rfl, fun _ _ => rfl, nofun, [], .nothing, rfl, fun _ hj => absurd hj (Nat.not_lt_zero _)⟩
    obtain ⟨k', u, t', hrun, ⟨ph, -, hu⟩, hspelled, hend⟩ := compress_runs (P := Spelled r) (fun _ _ hq h => h.quiet hq)
      (fun _ _ hs hm h => h.matched hs hm) hbegun (by decide) hr
    have hrun' := reaches_succ.mpr ⟨r, hcheck, hrun⟩
    rcases hend with hover | hflush
    · obtain rfl := reaches_idle_unique hh hreach hidle hrun' hover.idle
      rw [hover.csr] at hcode
      cases hcode
    · obtain rfl := reaches_idle_unique hh hreach hidle hrun' hflush.idle
      obtain ⟨-, ht⟩ := (stageOk_flush hflush.flush).mp (stageOk_of_inv hu.1)
      have hsrcLen : u.srcLen = s.srcLen := srcLen_congr (s := r) hspelled.csr
      have hstart : u.runStart + u.dp.t = s.srcLen := by
        rw [runStart_flush hflush.flush]
        omega
      obtain ⟨bs, hbs, hop, hholds⟩ := hspelled.run hflush.run hstart.le
      obtain ⟨st, hspells⟩ := hbs.finalRun u.dp.t
      rw [hstart, hop] at hspells
      have hlength := rideBytes_run_length (r := r) (n := u.dp.t) (i := u.runStart) (hdr := finalHeader u.dp.op u.dp.t) hop
      refine ⟨_, st, hspells, ?_, holds_append.mpr ⟨hholds, ?_⟩⟩
      · have hcap := u.csr.dstCap.isLt
        have hroom := hflush.room
        rw [hflush.csr, hlength]
        simp only [State.dstCap] at hroom
        exact Nat.mod_eq_of_lt (by omega)
      · rw [hlength, Nat.zero_add]
        exact hflush.eos
  · have hcheck := step_compress_of_ready hready ie strict
    rw [State.checkCompress, startError_of_ready hready, if_pos (Nat.lt_of_not_le hlen)] at hcheck
    obtain rfl := reaches_idle_unique hh hreach hidle (reaches_step hcheck) rfl
    cases hcode

/-- SRC holds a byte string that another block's DST holds, where it has the same bytes. -/
theorem srcFrom_eq_of_holds {u t : State} {bs : List Byte} (h : t.Holds 0 bs) (hsrc : ∀ j, j < bs.length → u.src j = t.dst j) :
    u.srcFrom bs.length 0 = bs := by
  refine List.ext_getElem (srcFrom_length _ _ _) fun j _ hj => ?_
  have hbyte := h j hj
  rw [srcFrom_getElem, Nat.zero_add, hsrc j hj, ← hbyte, Nat.zero_add]

/-- Settles O33: what COMPRESS wrote spells its input by `compress_spells`, and DECOMPRESS reads it by `Spells.decodes`, up to the end marker. -/
theorem roundTrip : Obligations.RoundTrip := by
  intro s s1 t u k ie strict ie' strict' hready hstart hreach hidle hcode huready hlen hbytes hcap hexp
  rw [exec_compress_of_ready hready] at hstart
  cases hstart
  obtain ⟨bs, st, hspells, hout, hholds⟩ := compress_spells hready hreach hidle hcode
  have hulen : u.srcLen = (bs ++ eosBytes).length := by
    rw [State.srcLen, hlen, hout, List.length_append]
    rfl
  obtain ⟨-, huidle, huh, -, -, huover⟩ := id huready
  have hcheck := step_decompress_of_ready huready ie' strict'
  have hdec := beginDecompress_decoding huready ie' strict'
  have hstream : u.srcFrom (bs ++ eosBytes).length 0 = bs ++ eosBytes :=
    srcFrom_eq_of_holds hholds fun j hj => hbytes j (hulen ▸ hj)
  set v := (u.acceptStart 2 ie' strict' (.runDecompress .check)).beginDecompress
  have hvlen : v.srcLen = bs.length + eosBytes.length := hulen.trans (List.length_append ..)
  have hvstream : v.srcFrom (bs ++ eosBytes).length 0 = bs ++ eosBytes := (srcFrom_congr (s := u) (s' := v) (fun _ => rfl) _ _).trans hstream
  obtain ⟨hbs, heos⟩ := srcFrom_eq_append.mp hvstream
  rw [Nat.zero_add] at heos
  have hbegun : Reproduced (s.compressBegun ie strict) v v 0 .start 0 :=
    ⟨rfl, rfl, huh, rfl, rfl, rfl, rfl, fun _ hj => absurd hj (Nat.not_lt_zero _), fun _ _ => rfl⟩
  obtain ⟨k', w, hrun, hw, hrep⟩ := hspells.decodes hdec.1 huover hbegun hbs (by omega) hcap
  have hwstream : w.stream = [0x11, 0x00, 0x00] := by
    rw [State.stream, hrep.ip, hrep.srcLen, hvlen, Nat.add_sub_cancel_left, hrep.srcFrom huover hcap hvlen.ge]
    exact heos
  obtain ⟨d, hend⟩ := step_eos (hrep.decoding hw) hrep.host hwstream fun hstrict => by
    rw [hrep.csr] at hstrict ⊢
    exact hrep.op.trans (congrArg BitVec.toNat (hexp hstrict)).symm
  refine ⟨_, _, _, by rw [exec_decompress, startCommand_idle huidle], reaches_succ.mpr ⟨v, hcheck, reaches_trans hrun (reaches_step hend)⟩,
    rfl, ?_, hrep.dst, hrep.only⟩
  change w.csr.ended 0 w.dp.op w.srcLen = _
  rw [hrep.csr, hrep.op, hrep.srcLen]
  rfl

end Sys2Proof.Machine
end

section
/-! PROOFS. The decode map row by row, and the end marker (42_decompressor.md R183, R191). -/

namespace Sys2Proof

/-- Settles O5: each row is one kind's condition. -/
theorem decodeMapTable : Obligations.DecodeMapTable := by
  intro c
  refine ⟨fun hc => ⟨?_, ?_, fun t ht => ?_, ?_⟩, fun hlo hhi st => ?_, fun hlo => ?_, fun hlo hhi st hst => ?_,
    fun hlo hhi st hst => ?_, fun hlo st hst => ?_⟩
  · exact kindOf_eq_litRun_iff.mpr ⟨.inl rfl, hc⟩
  · exact kindOf_eq_litRun_iff.mpr ⟨.inr rfl, hc⟩
  · exact kindOf_eq_m1s_iff.mpr ⟨by simpa using (ne_zero_iff_one_two_three t).mp ht, hc⟩
  · exact kindOf_eq_m1l_iff.mpr ⟨rfl, hc⟩
  · exact kindOf_eq_m4OrEos_iff.mpr ⟨hlo, by omega, fun _ => hhi⟩
  · exact kindOf_eq_litFirst_iff.mpr ⟨rfl, hlo⟩
  · exact kindOf_eq_m4OrEos_iff.mpr ⟨by omega, hhi, fun h => absurd h hst⟩
  · exact kindOf_eq_m3_iff.mpr ⟨hst, hlo, hhi⟩
  · exact kindOf_eq_m2_iff.mpr ⟨hst, hlo⟩

end Sys2Proof

namespace Sys2Proof.Machine

/-- The number of the code the end marker ends with (R191, R231). -/
theorem eosCode_code (s : State) : s.eosCode.code =
    if s.dp.ip < s.srcLen then 7 else if s.csr.strict = true ∧ s.dp.op ≠ s.csr.expLen.toNat then 8 else 0 := by
  unfold State.eosCode
  split
  · rfl
  · split <;> rfl

/-- Settles O18, by `exec_eos`. -/
theorem endMarker : Obligations.EndMarker := by
  rintro s len t ⟨-, hf, -⟩
  rw [exec_eos hf, eosCode_code]

end Sys2Proof.Machine
end

section
/-! PROOFS. Every DECOMPRESS ends: a token consumes its header, and no copy takes `ip` back (42_decompressor.md R182, R194,
70_reset_and_hazards.md R277). -/

namespace Sys2Proof.Machine

/-! ## The input cursor of a token -/

theorem copyLits_ip (n : Nat) (s : State) : (copyLits n s).dp.ip = s.dp.ip + n := by
  induction n generalizing s with
  | zero => rfl
  | succ n ih =>
    rw [copyLits, ih]
    exact Nat.succ_add_eq_add_succ s.dp.ip n

/-- The input cursor is at `ip` or past it. -/
def IpFrom (ip : Nat) (s : State) : Prop := ip ≤ s.dp.ip

theorem copyLiterals_ipFrom {ip : Nat} (n : Nat) {s : State} (h : IpFrom ip s) : (copyLiterals n s).All (IpFrom ip) := by
  rcases copyLiterals_cases n s with ⟨-, hc⟩ | ⟨-, -, hc⟩ | ⟨-, -, hc⟩ <;> rw [hc]
  · exact h
  · exact h
  · exact Nat.le_trans h ((copyLits_ip n s).symm ▸ Nat.le_add_right s.dp.ip n)

theorem copyMatch_ipFrom {ip : Nat} (dist len : Nat) {s : State} (h : IpFrom ip s) : (copyMatch dist len s).All (IpFrom ip) := by
  rcases copyMatch_cases dist len s with ⟨-, hc⟩ | ⟨-, -, hc⟩ | ⟨-, -, hc⟩ <;> rw [hc]
  · exact h
  · exact h
  · rw [Res.all_ok, IpFrom, (copyBack_wrote dist len s).1.dp]
    exact h

theorem litToken_ipFrom {ip : Nat} (n : Nat) (st : DecState) {s : State} (h : IpFrom ip s) :
    (litToken n st s).All (IpFrom ip) :=
  (copyLiterals_ipFrom n (s := s.latchCount n) h).andThen (fun _ hu => hu) fun _ hu => hu

theorem copyToken_ipFrom {ip : Nat} (len dist : Nat) (t : BitVec 2) {s : State} (h : IpFrom ip s) :
    (copyToken len dist t s).All (IpFrom ip) := by
  refine (copyMatch_ipFrom dist len (s := s.latchCopy len dist t) h).andThen (fun _ hu => hu) fun u hu => ?_
  rw [trail_eq]
  exact (copyLiterals_ipFrom t.toNat hu).andThen (fun _ hv => hv) fun _ hv => hv

/-! ## A step of the token loop -/

/-- `t` is the running DECOMPRESS `s` past a token: memory and the registers differ, and `ip` is further on within SRC (R43). -/
structure TokenDone (s t : State) : Prop where
  shape : t = { s with mem := t.mem, dp := t.dp }
  ip_lt : s.dp.ip < t.dp.ip
  ip_le : t.dp.ip ≤ s.srcLen

theorem TokenDone.srcLen {s t : State} (h : TokenDone s t) : t.srcLen = s.srcLen := srcLen_congr (by rw [h.shape])

/-- What the token whose `k` header bytes are consumed does, `r`, ends the command or leads past the token. -/
theorem settle_done_or_ended {s : State} {i : Instr} {k : Nat} (h1 : 1 ≤ k) {r : Res}
    (hr : r.All (Decoded (s.consumed i k))) (hip : r.All (IpFrom (s.dp.ip + k))) :
    r.settle.fsm = .idle ∧ r.settle.csr.done = true ∨ TokenDone s r.settle := by
  cases r with
  | ok u =>
    have hu : Decoded (s.consumed i k) u := hr
    have hle : s.dp.ip + k ≤ u.dp.ip := hip
    exact .inr ⟨hu.shape, by rw [Res.settle_ok]; omega, hu.ip_le⟩
  | raise e u => exact .inl ⟨rfl, rfl⟩

/-- A fetch ends the command or leads past a token (R182, R194). -/
theorem fetchStep_done_or_ended {s : State} (hs : s.Inv) (hf : s.fsm = .runDecompress .fetch) :
    ∃ t, s.fetchStep = .next t ∧ (t.fsm = .idle ∧ t.csr.done = true ∨ TokenDone s t) := by
  obtain ⟨hstarted, hip⟩ := decoding_started hs hf
  have hw := writing_of_started hstarted (dstWritten_of_inv hs)
  rcases fetchStep_cases s with ⟨i, k, -, h1, hk, hi, hx⟩ | ⟨-, hx⟩ <;> rw [hx]
  · have hc : Decoded s (s.consumed i k) := consumed_decoded hw hip hk
    have hspace : (s.consumed i k).inSpace = true := hstarted.inSpace
    rcases exec_token_cases hi with ⟨n, st, he⟩ | ⟨len, dist, t, he⟩ | ⟨len, he⟩ <;> rw [he]
    · exact ⟨_, guarded_inSpace hspace _, settle_done_or_ended h1 (litToken_decoded n st (hc.writing hw) hc.ip_le_self)
        (litToken_ipFrom n st (Nat.le_refl _))⟩
    · exact ⟨_, guarded_inSpace hspace _, settle_done_or_ended h1 (copyToken_decoded len dist t (hc.writing hw) hc.ip_le_self)
        (copyToken_ipFrom len dist t (Nat.le_refl _))⟩
    · exact ⟨_, rfl, .inl ⟨rfl, rfl⟩⟩
  · exact ⟨_, rfl, .inl ⟨rfl, rfl⟩⟩

/-- A step of the token loop ends the command, as a race does, or leads past a token. -/
theorem step_done_or_ended {s : State} (hs : s.Inv) (hf : s.fsm = .runDecompress .fetch) (hh : s.host = []) :
    ∃ t, step s = .next t ∧ (t.fsm = .idle ∧ t.csr.done = true ∨ TokenDone s t) := by
  have hspace := (decoding_started hs hf).1.inSpace
  rw [step_engine hh, engineStep_fetch hf]
  rcases running_cases s s.fetchStep with ⟨hout, -⟩ | ⟨-, -, hr⟩ | ⟨-, -, hr⟩
  · exact absurd hspace (by simp [hout])
  · exact ⟨_, hr, .inl ⟨rfl, rfl⟩⟩
  · rw [hr]
    exact fetchStep_done_or_ended hs hf

/-- Settles O19, by induction on the bytes left: every step but the last consumes one. -/
theorem decompressEnds : Obligations.DecompressEnds := by
  intro s hs hf hh
  induction hleft : s.srcLen - s.dp.ip using Nat.strong_induction_on generalizing s with
  | _ left ih =>
    obtain ⟨t, hstep, ⟨hidle, hdone⟩ | ht⟩ := step_done_or_ended hs hf hh
    · exact ⟨1, t, by omega, reaches_step hstep, hidle, hdone⟩
    · have hlen := ht.srcLen
      have hlt := ht.ip_lt
      have hle := ht.ip_le
      obtain ⟨k, u, hk, hreach, hend⟩ := ih (t.srcLen - t.dp.ip) (by omega) t (stepKeepsInvariant s t hs hstep)
        (by rw [ht.shape]; exact hf) (by rw [ht.shape]; exact hh) rfl
      exact ⟨k + 1, u, by omega, reaches_succ.mpr ⟨t, hstep, hreach⟩, hend⟩

end Sys2Proof.Machine
end

section
/-! PROOFS. A DECOMPRESS of a stream that ends OK beside one of fewer of its bytes: they go together until the shorter stream runs out
(40_primitives.md R140, R142, 42_decompressor.md R191, R198). -/

namespace Sys2Proof

/-- A token's header is read the same whatever follows it (R92, R93). -/
theorem decodeToken_append {st : DecState} {bs : List Byte} {i : Instr} {k : Nat} (h : decodeToken st bs = .ok (i, k))
    (more : List Byte) : decodeToken st (bs ++ more) = .ok (i, k) := by
  obtain ⟨hwf, hread, rfl, rest, rfl⟩ := spelled_of_decodeToken h
  rw [List.append_assoc, decodeToken_encode _ hwf hread]

end Sys2Proof

namespace Sys2Proof.Machine

/-! ## A shorter SRC -/

/-- The block with SRC_LEN set to `w`. -/
def State.withSrcLen (s : State) (w : Word) : State := { s with csr := { s.csr with srcLen := w } }

/-- SRC cut short leaves a stream cut short. -/
theorem stream_eq_withSrcLen_append {s : State} {w : Word} (hip : s.dp.ip ≤ w.toNat) (hw : w.toNat ≤ s.srcLen) :
    s.stream = (s.withSrcLen w).stream ++ s.srcFrom (s.srcLen - w.toNat) w.toNat := by
  have hcut : (s.withSrcLen w).stream = s.srcFrom (w.toNat - s.dp.ip) s.dp.ip :=
    srcFrom_congr (s := s) (s' := s.withSrcLen w) (fun _ => rfl) _ _
  rw [hcut, State.stream, show s.srcLen - s.dp.ip = w.toNat - s.dp.ip + (s.srcLen - w.toNat) by omega, srcFrom_add,
    Nat.add_sub_cancel' hip]

/-- A header within the shorter SRC is consumed alike. -/
theorem consumed_withSrcLen {s : State} {w : Word} {i : Instr} {k : Nat} (hip : s.dp.ip ≤ w.toNat) (hw : w.toNat ≤ s.srcLen)
    (hk : k ≤ w.toNat - s.dp.ip) : (s.withSrcLen w).consumed i k = (s.consumed i k).withSrcLen w := by
  have htake : s.stream.take k = (s.withSrcLen w).stream.take k := by
    rw [stream_eq_withSrcLen_append hip hw, List.take_append_of_le_length (by rw [stream_length]; exact hk)]
  simp only [State.consumed, htake]
  rfl

/-- A ready block accepts a DECOMPRESS (R211). -/
theorem exec_decompress_of_ready {s : State} (h : s.Ready) (ie strict : Bool) :
    exec (.decompress ie strict) s = .next (s.acceptStart 2 ie strict (.runDecompress .check)) := by
  obtain ⟨-, hidle, -, -, -, -⟩ := h
  rw [exec_decompress, startCommand_idle hidle]

/-- Regions apart in the address space stay so where SRC is shorter (R74, R75). -/
theorem ready_withSrcLen {s : State} (h : s.Ready) {w : Word} (hw : w.toNat ≤ s.srcLen) : (s.withSrcLen w).Ready := by
  obtain ⟨hinv, hidle, hh, hinit, hspace, hover⟩ := h
  refine ⟨inv_of_idle_csr hinv hidle rfl, hidle, hh, hinit, ?_, ?_⟩
  · rw [← Bool.not_eq_false, inSpace_eq_false_iff] at hspace ⊢
    change ¬(2 ^ 32 < s.csr.srcBase.toNat + w.toNat ∨ 2 ^ 32 < s.csr.dstBase.toNat + s.dstCap)
    omega
  · rw [← Bool.not_eq_true, overlap_iff] at hover ⊢
    change ¬(0 < w.toNat ∧ 0 < s.dstCap ∧ s.csr.srcBase.toNat < s.csr.dstBase.toNat + s.dstCap ∧
      s.csr.dstBase.toNat < s.csr.srcBase.toNat + w.toNat)
    omega

/-! ## Copies -/

theorem copyLits_fsm (n : Nat) (s : State) : (copyLits n s).fsm = s.fsm := by
  induction n generalizing s with
  | zero => rfl
  | succ n ih => rw [copyLits, ih]; rfl

theorem copyLits_withSrcLen (n : Nat) (s : State) (w : Word) : copyLits n (s.withSrcLen w) = (copyLits n s).withSrcLen w := by
  induction n generalizing s with
  | zero => rfl
  | succ n ih => exact ih ((s.putDst (s.src s.dp.ip)).setIp (s.dp.ip + 1))

theorem copyBack_withSrcLen (dist len : Nat) (s : State) (w : Word) :
    copyBack dist len (s.withSrcLen w) = (copyBack dist len s).withSrcLen w := by
  induction len generalizing s with
  | zero => rfl
  | succ len ih => exact ih (s.putDst (s.dst (s.dp.op - dist)))

/-- What a primitive of the token loop does, and what it does where SRC_LEN is `w`: both go on alike, or the second runs out of SRC, or the first
ends in an error. -/
inductive Res.CutShort (w : Word) : Res → Res → Prop where
  | ok {u : State} (hf : u.fsm = .runDecompress .fetch) : CutShort w (.ok u) (.ok (u.withSrcLen w))
  | overrun (r : Res) (u' : State) : CutShort w r (.raise .inputOverrun u')
  | failed {e : ErrorCode} (he : e ≠ .ok) (u : State) (r' : Res) : CutShort w (.raise e u) r'

theorem Res.CutShort.andThen {w : Word} {r r' : Res} {f : State → Res} (h : Res.CutShort w r r')
    (hf : ∀ u, u.fsm = .runDecompress .fetch → Res.CutShort w (f u) (f (u.withSrcLen w))) :
    Res.CutShort w (r.andThen f) (r'.andThen f) := by
  cases h with
  | ok hu => exact hf _ hu
  | overrun r u' => exact .overrun _ u'
  | failed he u r' => exact .failed he u _

section
variable {s : State} (w : Word) (hf : s.fsm = .runDecompress .fetch)
include hf

theorem copyLiterals_cutShort (n : Nat) : Res.CutShort w (copyLiterals n s) (copyLiterals n (s.withSrcLen w)) := by
  rcases copyLiterals_cases n s with ⟨-, hc⟩ | ⟨-, -, hc⟩ | ⟨hroom, -, hc⟩ <;> rw [hc]
  · exact .failed (by decide) _ _
  · exact .failed (by decide) _ _
  · rcases copyLiterals_cases n (s.withSrcLen w) with ⟨hfull, -⟩ | ⟨-, -, hc'⟩ | ⟨-, -, hc'⟩
    · exact absurd hroom (Nat.not_le.mpr hfull)
    · rw [hc']
      exact .overrun _ _
    · rw [hc', copyLits_withSrcLen]
      exact .ok ((copyLits_fsm n s).trans hf)

theorem copyMatch_cutShort (dist len : Nat) : Res.CutShort w (copyMatch dist len s) (copyMatch dist len (s.withSrcLen w)) := by
  rcases copyMatch_cases dist len s with ⟨-, hc⟩ | ⟨-, -, hc⟩ | ⟨hback, hroom, hc⟩ <;> rw [hc]
  · exact .failed (by decide) _ _
  · exact .failed (by decide) _ _
  · rcases copyMatch_cases dist len (s.withSrcLen w) with ⟨hshort, -⟩ | ⟨-, hfull, -⟩ | ⟨-, -, hc'⟩
    · exact absurd hback (Nat.not_le.mpr hshort)
    · exact absurd hroom (Nat.not_le.mpr hfull)
    · rw [hc', copyBack_withSrcLen]
      exact .ok ((copyBack_wrote dist len s).1.fsm.trans hf)

theorem litToken_cutShort (n : Nat) (st : DecState) : Res.CutShort w (litToken n st s) (litToken n st (s.withSrcLen w)) :=
  (copyLiterals_cutShort (s := s.latchCount n) w hf n).andThen fun u hu => .ok (u := u.setS st) hu

theorem trail_cutShort (t : BitVec 2) : Res.CutShort w (trail t s) (trail t (s.withSrcLen w)) := by
  rw [trail_eq, trail_eq]
  exact (copyLiterals_cutShort w hf t.toNat).andThen fun u hu => .ok (u := u.setS (.trail t)) hu

theorem copyToken_cutShort (len dist : Nat) (t : BitVec 2) :
    Res.CutShort w (copyToken len dist t s) (copyToken len dist t (s.withSrcLen w)) :=
  (copyMatch_cutShort (s := s.latchCopy len dist t) w hf dist len).andThen fun _ hu => trail_cutShort w hu t

end

/-! ## Steps and runs -/

/-- A command has ended with InputOverrun. -/
def State.Overran (s : State) : Prop := s.fsm = .idle ∧ s.csr.done = true ∧ s.csr.errcode = 5

/-- The states that a step leads to, with the whole SRC and with SRC_LEN `w`: both go on alike, or the second has run out of SRC, or the first
has ended in an error. -/
inductive CutShort (w : Word) : State → State → Prop where
  | goesOn {t : State} (hf : t.fsm = .runDecompress .fetch) : CutShort w t (t.withSrcLen w)
  | overrun (t : State) {t' : State} (h : t'.Overran) : CutShort w t t'
  | failed {t : State} (hidle : t.fsm = .idle) (hcode : t.csr.errcode ≠ 0) (t' : State) : CutShort w t t'

theorem code_ne_zero {e : ErrorCode} (he : e ≠ .ok) : e.code ≠ 0 := by
  cases e with
  | ok => exact absurd rfl he
  | _ => decide

theorem Res.CutShort.settle {w : Word} {r r' : Res} (h : Res.CutShort w r r') : Machine.CutShort w r.settle r'.settle := by
  cases h with
  | ok hf => exact .goesOn hf
  | overrun r u' => exact .overrun _ ⟨rfl, rfl, rfl⟩
  | failed he u r' => exact .failed rfl (code_ne_zero he) _

/-- An end marker before the end of SRC is an error (R191). -/
theorem eosCode_ne_ok {s : State} (h : s.dp.ip < s.srcLen) : s.eosCode ≠ .ok := by
  rw [State.eosCode, if_pos h]
  decide

/-- The same token, with its header consumed, where SRC goes on past `w`. -/
theorem exec_cutShort {s : State} {w : Word} {i : Instr} (hi : i.isCommand = false) (hf : s.fsm = .runDecompress .fetch)
    (hspace : s.inSpace = true) (hspace' : (s.withSrcLen w).inSpace = true) (hip : s.dp.ip < s.srcLen) :
    ∃ t t', exec i s = .next t ∧ exec i (s.withSrcLen w) = .next t' ∧ CutShort w t t' := by
  rcases exec_token_cases hi with ⟨n, st, he⟩ | ⟨len, dist, t, he⟩ | ⟨len, he⟩ <;> rw [he, he]
  · exact ⟨_, _, guarded_inSpace hspace _, guarded_inSpace hspace' _, (litToken_cutShort w hf n st).settle⟩
  · exact ⟨_, _, guarded_inSpace hspace _, guarded_inSpace hspace' _, (copyToken_cutShort w hf len dist t).settle⟩
  · exact ⟨_, _, rfl, rfl, .failed rfl (code_ne_zero (eosCode_ne_ok hip)) _⟩

/-- A fetch within the shorter SRC reads the same token, or runs out of SRC (R140, R182). -/
theorem step_cutShort {s : State} {w : Word} (hs : s.Decoding) (hs' : (s.withSrcLen w).Decoding) (hh : s.host = [])
    (hw : w.toNat < s.srcLen) : ∃ t t', step s = .next t ∧ step (s.withSrcLen w) = .next t' ∧ CutShort w t t' := by
  obtain ⟨hinv, hf, -⟩ := id hs
  have hspace := (decoding_started hinv hf).1.inSpace
  obtain ⟨hstarted', hip⟩ := decoding_started hs'.1 hf
  change s.dp.ip ≤ w.toNat at hip
  rcases fetchStep_cases (s.withSrcLen w) with ⟨i, k, hd, -, hk, hi, -⟩ | ⟨hd, -⟩
  · change k ≤ w.toNat - s.dp.ip at hk
    have hdecode : decodeToken s.dp.sreg s.stream = .ok (i, k) := by
      rw [stream_eq_withSrcLen_append hip hw.le]
      exact decodeToken_append hd _
    obtain ⟨t, t', ht, ht', hcut⟩ := exec_cutShort (s := s.consumed i k) (w := w) hi hf hspace hstarted'.inSpace
      (show s.dp.ip + k < s.srcLen by omega)
    refine ⟨t, t', ((stepRunsDecodedToken s i k hs hdecode).1 hh).trans ht, ?_, hcut⟩
    rw [(stepRunsDecodedToken _ i k hs' hd).1 hh, consumed_withSrcLen hip hw.le hk, ht']
  · obtain ⟨t, ht, -⟩ := step_done_or_ended hinv hf hh
    exact ⟨t, _, ht, truncatedHeaderEndsCommand _ hs' hh hd, .overrun t ⟨rfl, rfl, rfl⟩⟩

/-- Where the run with the whole SRC ends OK, the one with less of it ends with InputOverrun. -/
theorem overran_of_reaches_ok {w : Word} {j : Nat} {s t : State} (hs : s.Decoding) (hs' : (s.withSrcLen w).Decoding)
    (hh : s.host = []) (hw : w.toNat < s.srcLen) (hreach : Reaches j s t) (hidle : t.fsm = .idle) (hcode : t.csr.errcode = 0) :
    ∃ j' t', Reaches j' (s.withSrcLen w) t' ∧ t'.Overran := by
  induction j generalizing s with
  | zero =>
    obtain rfl := reaches_zero.mp hreach
    obtain ⟨-, hfetch, -⟩ := hs
    exact absurd (hfetch.symm.trans hidle) (by decide)
  | succ j ih =>
    obtain ⟨hinv, hfetch, hraced⟩ := id hs
    obtain ⟨u, hstep, hrest⟩ := reaches_succ.mp hreach
    obtain ⟨v, v', hv, hv', hcut⟩ := step_cutShort hs hs' hh hw
    obtain rfl : u = v := Host.Outcome.next.inj (hstep.symm.trans hv)
    have huh : u.host = [] := by
      rw [step_engine hh] at hstep
      exact (engineStep_engineFrame hstep).host.trans hh
    cases hcut with
    | goesOn hf =>
      obtain ⟨u', hu', hcases⟩ := step_done_or_ended hinv hfetch hh
      obtain rfl : u = u' := Host.Outcome.next.inj (hstep.symm.trans hu')
      rcases hcases with ⟨hend, -⟩ | hdone
      · exact absurd (hf.symm.trans hend) (by decide)
      · have hu : u.Inv := stepKeepsInvariant _ _ hinv hstep
        have huraced : u.raced = false := by rw [hdone.shape]; exact hraced
        obtain ⟨j', t', hrun, hover⟩ := ih ⟨hu, hf, huraced⟩ ⟨stepKeepsInvariant _ _ hs'.1 hv', hf, huraced⟩ huh
          (hdone.srcLen ▸ hw) hrest
        exact ⟨j' + 1, t', reaches_succ.mpr ⟨_, hv', hrun⟩, hover⟩
    | overrun hover => exact ⟨1, v', reaches_step hv', hover⟩
    | failed hend hne =>
      obtain rfl := eq_of_reaches_idle hend huh hrest
      exact absurd hcode hne

/-- Settles O20: past the start checks, which pass for the shorter SRC too, by `overran_of_reaches_ok`. -/
theorem truncationIsInputOverrun : Obligations.TruncationIsInputOverrun := by
  intro s s1 t j ie strict hready hstart hreach hidle hcode n hn
  have hword : (BitVec.ofNat 32 n).toNat = n := Nat.mod_eq_of_lt (Nat.lt_trans hn s.csr.srcLen.isLt)
  have hready' : (s.withSrcLen (BitVec.ofNat 32 n)).Ready := ready_withSrcLen hready (by omega)
  rw [exec_decompress_of_ready hready] at hstart
  cases hstart
  cases j with
  | zero =>
    obtain rfl := reaches_zero.mp hreach
    cases hidle
  | succ j =>
    obtain ⟨u, hstep, hrun⟩ := reaches_succ.mp hreach
    obtain rfl := Host.Outcome.next.inj (hstep.symm.trans (step_decompress_of_ready hready ie strict))
    have hh := accepted_host hready 2 ie strict (.runDecompress .check)
    obtain ⟨j', t', hrun', hover⟩ := overran_of_reaches_ok (beginDecompress_decoding hready ie strict)
      (beginDecompress_decoding hready' ie strict) hh (show (BitVec.ofNat 32 n).toNat < s.srcLen by omega) hrun hidle hcode
    exact ⟨_, j' + 1, t', exec_decompress_of_ready hready' ie strict,
      reaches_succ.mpr ⟨_, step_decompress_of_ready hready' ie strict, hrun'⟩, hover⟩

end Sys2Proof.Machine
end

section
/-! PROOFS. An accepted START of each command, and the two commands that are over with it or one step later: the reserved one and INIT
(43_commands.md R211, R213, R216). -/

namespace Sys2Proof.Machine

/-- Settles O35: an IDLE block accepts each START, and `acceptStart` writes the fields of R211. -/
theorem acceptedStart : Obligations.AcceptedStart := by
  intro s ie strict hidle
  refine ⟨?init, ?compress, ?decompress⟩
  case init => rw [exec_init, startCommand_idle hidle]; rfl
  case compress => rw [exec_compress, startCommand_idle hidle]; rfl
  case decompress => rw [exec_decompress, startCommand_idle hidle]; rfl

/-- A command that ends before its start checks pass leaves the flight an IDLE block would: it has the regions and never ran (R212). -/
theorem endFlight_acceptStart {s : State} (hidle : s.fsm = .idle) (cmd : BitVec 2) (ie strict : Bool) {f : Fsm}
    (hf : (s.acceptStart cmd ie strict f).pastChecks = false) : (s.acceptStart cmd ie strict f).endFlight = s.endFlight := by
  have hs : s.pastChecks = false := by simp [State.pastChecks, hidle]
  simp only [State.endFlight, hf, hs, State.acceptStart_csr]

/-- A command that ends with FSM still IDLE counts nothing and leaves INIT_OK alone (R216, R217). -/
theorem terminate_idle {s : State} (h : s.fsm = .idle) (e : ErrorCode) : s.terminate e = s.endedWith e.code 0 0 := by
  simp [State.terminate, State.endedWith, Csr.ended, State.results, h]

/-- Settles O37: the START access goes on to `terminate`, with FSM IDLE. -/
theorem reservedCommand : Obligations.ReservedCommand := by
  intro s ie strict hidle
  have hbusy : ¬ s.busy = true := fun hb => busy_eq_true_iff.mp hb hidle
  rw [exec_reservedCmd3, if_neg hbusy, terminate_idle rfl, State.endedWith, endFlight_acceptStart hidle 3 ie strict rfl]
  rfl

/-- Settles O38: the START moves FSM to RUN_INIT, and the next step is the handshake. -/
theorem initCommand : Obligations.InitCommand := by
  intro s ie strict hidle hhost
  have hstart : exec (.init ie strict) s = .next (s.acceptStart 0 ie strict .runInit) := by
    rw [exec_init, startCommand_idle hidle]
  refine ⟨s.acceptStart 0 ie strict .runInit, hstart, ?_⟩
  rw [step_engine (s := s.acceptStart 0 ie strict .runInit) hhost, engineStep_init rfl, initStep_eq rfl,
    endFlight_acceptStart hidle 0 ie strict rfl]
  rfl

end Sys2Proof.Machine
end

section
/-! PROOFS. The end of a command, for every command and outcome (43_commands.md R217, 60_exceptions.md R238). -/

namespace Sys2Proof.Machine

/-! ## The status a termination shows -/

/-- Only OK has code 0 (R231). -/
theorem errorCode_code_eq_zero_iff {e : ErrorCode} : e.code = 0 ↔ e = .ok := by cases e <;> decide

/-- STATUS.ERR reads 1 after every outcome but OK (R27). -/
theorem terminate_err (s : State) (e : ErrorCode) : (s.terminate e).err = decide (e ≠ .ok) := by
  rw [State.err, State.terminate_errcode]
  exact decide_eq_decide.mpr errorCode_code_eq_zero_iff.not

/-- The interrupt output follows IE alone, since DONE is set (R49). -/
theorem terminate_irq (s : State) (e : ErrorCode) : (s.terminate e).irq = s.csr.ie := by
  rw [State.irq, State.terminate_done, State.terminate_ie, Bool.true_and]

/-! ## The counts a termination writes -/

@[simp] theorem State.endedWith_outLen (s : State) (code : Byte) (o i : Nat) :
    (s.endedWith code o i).csr.outLen = BitVec.ofNat 32 o := rfl
@[simp] theorem State.endedWith_inUsed (s : State) (code : Byte) (o i : Nat) :
    (s.endedWith code o i).csr.inUsed = BitVec.ofNat 32 i := rfl

/-- INIT, and a command that has not passed its start checks, count nothing (R217). -/
theorem terminate_uncounted {s : State}
    (h : s.fsm = .idle ∨ s.fsm = .runInit ∨ s.fsm = .runCompress .check ∨ s.fsm = .runDecompress .check) (e : ErrorCode) :
    (s.terminate e).csr.outLen = 0 ∧ (s.terminate e).csr.inUsed = 0 := by
  rcases h with hidle | hinit | hcheck
  · rw [terminate_idle hidle]
    exact ⟨rfl, rfl⟩
  · have hcounts : s.results e = (0, 0) := by rw [State.results, hinit]
    rw [State.terminate_outLen, State.terminate_inUsed, hcounts]
    exact ⟨rfl, rfl⟩
  · rw [terminate_check hcheck]
    exact ⟨rfl, rfl⟩

/-- IN_USED of a COMPRESS past its checks is the SRC_LEN register itself where it ends OK (R217). -/
theorem terminate_compress_inUsed {s : State} {ph : CompressPhase} (hf : s.fsm = .runCompress ph) (hph : ph ≠ .check)
    (e : ErrorCode) : (s.terminate e).csr.inUsed = if e = .ok then s.csr.srcLen else 0 := by
  rw [terminate_compress hf hph, State.endedWith_inUsed]
  split
  · rw [State.srcLen, BitVec.ofNat_toNat, BitVec.setWidth_eq]
  · rfl

/-! ## The whole table -/

/-- Settles O41: the status by `terminate_err` and `terminate_irq`, the counts by one lemma per row of R217. -/
theorem terminationTable : Obligations.TerminationTable := by
  intro s e
  refine ⟨s.terminate_errcode e, terminate_err s e, s.terminate_done e, s.terminate_fsm e,
    busy_eq_false_iff.mpr (s.terminate_fsm e), terminate_irq s e, s.terminate_ie e, s.terminate_strict e, s.terminate_cmd e,
    s.terminate_mem e, s.terminate_dp e, s.terminate_tbl e, ?initOk, ?initOkKept, (terminate_uncounted · e), ?compress,
    ?decompress⟩
  case initOk => exact fun hinit => by rw [State.terminate_initOk, if_pos hinit]
  case initOkKept => exact fun hinit => by rw [State.terminate_initOk, if_neg hinit]
  case compress =>
    intro ph hf hph
    refine ⟨?_, terminate_compress_inUsed hf hph e⟩
    rw [terminate_compress hf hph, State.endedWith_outLen]
  case decompress =>
    intro hf
    rw [terminate_fetch hf, State.endedWith_outLen, State.endedWith_inUsed]
    exact ⟨rfl, rfl⟩

end Sys2Proof.Machine
end

section
/-! PROOFS. The lifetime of INIT_OK: only the end of an INIT writes it, and a reset clears it (70_reset_and_hazards.md R275). -/

namespace Sys2Proof.Machine

/-! ## Ending a command other than INIT -/

/-- `u` still has the CSR file of `s` and is at a stage of no INIT: a command that ends in `u` leaves INIT_OK as it was in `s` (R238). -/
structure OutsideInit (s u : State) : Prop where
  csr : u.csr = s.csr
  fsm : u.fsm ≠ .runInit

theorem OutsideInit.terminate_initOk {s u : State} (h : OutsideInit s u) (e : ErrorCode) :
    (u.terminate e).csr.initOk = s.csr.initOk := by
  rw [State.terminate_initOk, if_neg h.fsm, h.csr]

theorem OutsideInit.settle_initOk {s : State} {r : Res} (h : r.All (OutsideInit s)) : r.settle.csr.initOk = s.csr.initOk := by
  cases r with
  | ok u => rw [Res.settle_ok, OutsideInit.csr h]
  | raise e u => exact OutsideInit.terminate_initOk h e

theorem Worked.csr {s u : State} (h : Worked s u) : u.csr = s.csr := by rw [h]

theorem Alike.refl (s : State) : Alike s.fsm s s := ⟨rfl, rfl⟩

/-- A primitive run on one state, seen as the twin of itself, is at the stages its twin lemma names. -/
theorem Res.Twin.outsideInit {s : State} {f f' : Fsm} {r : Res} (h : Res.Twin f (Alike f') r r) (hf : f ≠ .runInit)
    (hf' : f' ≠ .runInit) (hw : r.All (Worked s)) : r.All (OutsideInit s) := by
  cases r with
  | ok u => exact ⟨Worked.csr hw, fun hu => hf' ((Alike.fsm h).symm.trans hu)⟩
  | raise e u =>
    obtain ⟨-, hlike⟩ := h
    exact ⟨Worked.csr hw, fun hu => hf (hlike.fsm.symm.trans hu)⟩

/-! ## The engine, stage by stage -/

/-- A token's primitives stay at the stage of DECOMPRESS that fetched it. -/
theorem exec_token_initOk {i : Instr} (hi : i.isCommand = false) {s t : State} (hf : s.fsm = .runDecompress .fetch)
    (h : exec i s = .next t) : t.csr.initOk = s.csr.initOk := by
  have hlike : Alike (.runDecompress .fetch) s s := hf ▸ Alike.refl s
  rcases exec_token_cases hi with ⟨n, st, he⟩ | ⟨len, dist, tr, he⟩ | ⟨len, he⟩ <;> rw [he] at h
  · rw [(guarded_next h).2]
    exact OutsideInit.settle_initOk ((litToken_twin n st hlike).outsideInit nofun nofun (litToken_worked n st s))
  · rw [(guarded_next h).2]
    exact OutsideInit.settle_initOk ((copyToken_twin len dist tr hlike).outsideInit nofun nofun (copyToken_worked len dist tr s))
  · cases h
    exact OutsideInit.terminate_initOk (u := { s with dp := { s.dp with len := len } }) ⟨rfl, by simp [hf]⟩ _

theorem fetchStep_initOk {s t : State} (hf : s.fsm = .runDecompress .fetch) (h : s.fetchStep = .next t) :
    t.csr.initOk = s.csr.initOk := by
  rcases fetchStep_cases s with ⟨i, k, -, -, -, hi, hx⟩ | ⟨-, hx⟩ <;> rw [hx] at h
  · exact exec_token_initOk (s := s.consumed i k) hi hf h
  · cases h
    exact OutsideInit.terminate_initOk (u := s.setIp s.srcLen) ⟨rfl, by simp [hf]⟩ _

theorem hitStep_initOk {s : State} (hf : s.fsm = .runCompress .hit) : s.hitStep.settle.csr.initOk = s.csr.initOk := by
  have hlike : Alike (.runCompress .hit) s s := hf ▸ Alike.refl s
  have htwin : Res.Twin (.runCompress .hit) (Alike (.runCompress .next)) s.hitStep s.hitStep :=
    (flushRun_twin hlike).andThen fun _ _ hu => emitMatch_twin hu
  exact OutsideInit.settle_initOk (htwin.outsideInit nofun nofun (hitStep_worked s))

theorem flushStep_initOk {s : State} (hf : s.fsm = .runCompress .flush) : s.flushStep.settle.csr.initOk = s.csr.initOk := by
  have hlike : Alike (.runCompress .flush) s s := hf ▸ Alike.refl s
  have htwin := (flushTail_twin hlike).andThen fun _ _ hu => emitAll_twin eosBytes hu (.inr rfl)
  have hworked := (flushTail_worked s).then_worked (emitAll_worked eosBytes)
  obtain ⟨e, u, hu, hend⟩ := flushStep_settle_all (htwin.outsideInit nofun nofun hworked)
  rw [hend, hu.terminate_initOk]

theorem checkCompress_initOk {s : State} (hf : s.fsm ≠ .runInit) : s.checkCompress.csr.initOk = s.csr.initOk := by
  unfold State.checkCompress
  split
  · exact OutsideInit.terminate_initOk ⟨rfl, hf⟩ _
  · rfl

theorem checkDecompress_initOk {s : State} (hf : s.fsm ≠ .runInit) : s.checkDecompress.csr.initOk = s.csr.initOk := by
  unfold State.checkDecompress
  split
  · exact OutsideInit.terminate_initOk ⟨rfl, hf⟩ _
  · rfl

/-- Neither a stage that keeps INIT_OK nor the end of a raced command changes it (R85). -/
theorem running_initOk {s t : State} {k : Host.Outcome State Fault Refusal} (h : s.running k = .next t)
    (hk : ∀ u, k = .next u → u.csr.initOk = s.csr.initOk) : t.csr.initOk = s.csr.initOk := by
  rcases (running_next h).2 with ⟨-, rfl⟩ | ⟨-, hn⟩
  · rfl
  · exact hk t hn

theorem running_next_initOk {s t u : State} (h : s.running (.next u) = .next t) (hu : u.csr.initOk = s.csr.initOk) :
    t.csr.initOk = s.csr.initOk :=
  running_initOk h fun v hv => by
    cases hv
    exact hu

/-- COMPRESS and DECOMPRESS do not change INIT_OK (R275). -/
theorem engineStep_initOk {s t : State} (hinit : s.fsm ≠ .runInit) (h : s.engineStep = .next t) :
    t.csr.initOk = s.csr.initOk := by
  rcases hf : s.fsm with _ | _ | ph | ph
  case idle =>
    rw [engineStep_idle hf] at h
    cases h
    rfl
  case runInit => exact absurd hf hinit
  case runCompress =>
    cases ph with
    | check =>
      rw [engineStep_checkCompress hf] at h
      cases h
      exact checkCompress_initOk hinit
    | outer =>
      rw [engineStep_outer hf] at h
      exact running_next_initOk h (by rw [(outerStep_host_csr s).2])
    | next =>
      rw [engineStep_next hf] at h
      exact running_next_initOk h (by rw [(nextStep_host_csr s).2])
    | hit =>
      rw [engineStep_hit hf] at h
      exact running_next_initOk h (hitStep_initOk hf)
    | flush =>
      rw [engineStep_flush hf] at h
      exact running_next_initOk h (flushStep_initOk hf)
  case runDecompress =>
    cases ph with
    | check =>
      rw [engineStep_checkDecompress hf] at h
      cases h
      exact checkDecompress_initOk hinit
    | fetch =>
      rw [engineStep_fetch hf] at h
      exact running_initOk h fun _ => fetchStep_initOk hf

/-! ## The host's turns -/

/-- No CSR write changes INIT_OK, the START of the reserved command included, which ends with FSM IDLE (R216). -/
theorem csrWrite_initOk {s t : State} {off : Nat} {v : Word} (h : s.csrWrite off v = .next t) : t.csr.initOk = s.csr.initOk := by
  by_cases hf : s.fsm = .idle
  · rcases csrWrite_cases h with ⟨-, hw⟩ | ⟨-, rfl⟩ | ⟨-, -, c, rfl⟩
    · rcases ctrlWrite_idle_cases hf v with ⟨-, hc⟩ | ⟨-, cmd, f, ie, strict, hc, -⟩ | ⟨-, ie, strict, -, hc⟩ <;>
        (rw [hc] at hw; cases hw; rfl)
    · rw [writeStatus_eq]
    · rw [if_pos hf]
      rfl
  · rcases csrWrite_busy_cases hf h with rfl | rfl | rfl <;> rfl

theorem hostStore_initOk (s : State) (a : Word) (v : Byte) : (s.hostStore a v).csr.initOk = s.csr.initOk := by
  rcases hostStore_csr s a v with hcsr | ⟨-, -, -, -, code, outLen, inUsed, hcsr⟩ <;> rw [hcsr]

/-! ## The statement -/

/-- Settles O53: of the turns of `step_next_cases`, only the engine's step in RUN_INIT and a reset change INIT_OK. -/
theorem initOkLifetime : Obligations.InitOkLifetime := by
  intro s t h hne
  rcases step_next_cases h with ⟨host, he⟩ | ⟨off, v, rest, -, hw⟩ | ⟨a, v, rest, -, rfl⟩ | ⟨rest, hh, rfl⟩ |
    ⟨host, rdata, flight, draws, rfl, -⟩
  · by_cases hf : s.fsm = .runInit
    · rw [engineStep_init (s := { s with host := host }) hf, initStep_eq (s := { s with host := host }) hf] at he
      cases he
      exact .inl ⟨hf, rfl, rfl⟩
    · exact absurd (engineStep_initOk (s := { s with host := host }) hf he) hne
  · exact absurd (csrWrite_initOk hw) hne
  · exact absurd (hostStore_initOk _ a v) hne
  · exact .inr ⟨rest, hh, rfl⟩
  · exact absurd rfl hne

end Sys2Proof.Machine
end
